-- ==== Sys2Proof/Word.lean ====
section
/-! DEFINITION. The word types of the host port and of the block's buffers. -/

namespace Sys2Proof

/-- A data word of the host port (R60), a command word (R90), a register as the host reads it (R22). -/
abbrev Word := BitVec 32

/-- A byte: a field element (R120), a payload byte, a codeword (R14). -/
abbrev Byte := BitVec 8

/-- A word address of the host port, 0x0000..0x1FFF (R60). -/
abbrev Addr := BitVec 13

end Sys2Proof
end

