-- ==== Sys2Proof/Syntax.lean ====
section
/-! DEFINITION. The 17 commands of R93, one constructor per row of the opcode table, operands as R91 assembles them. -/

namespace Sys2Proof

/-- A command of the block (R93). Field elements are bytes; counts and sizes are natural numbers; FSTAMP's
anchor is a pair of integers (R91, R95). `Instr.wellFormed` says which operands a word can carry. -/
inductive Instr where
  | nop                                    -- R280
  | gfinit                                 -- R122
  | gfmul (a b : Byte)                     -- R125
  | rsgen (degree : Nat)                   -- R141
  | rsenc (eccount : Nat)                  -- R143
  | vsel                                   -- R161
  | pack                                   -- R170
  | b2b                                    -- R175
  | xbits                                  -- R178
  | mnew (n : Nat)                         -- R191
  | fstamp (row col : Int)                 -- R194
  | sstamp                                 -- R196
  | place                                  -- R221
  | mask                                   -- R232
  | encode                                 -- R241
  | draw (w h : Nat)                       -- R261
  | clrerr                                 -- R281
deriving DecidableEq, Repr

end Sys2Proof
end

