-- ==== Sys2Proof/WellFormed.lean ====
section
/-! DEFINITION. Which commands a word can express: the ranges of the operand fields (R91). -/

namespace Sys2Proof

/-- The value range of an unsigned byte field (R91). -/
def fitsByte (x : Nat) : Bool := decide (x < 256)

/-- The value range of a signed byte field: "both in -128..127" (R91). -/
def fitsSignedByte (x : Int) : Bool := decide (-128 ≤ x) && decide (x ≤ 127)

/-- The value range of DRAW's 12-bit fields: "unsigned 12-bit integers, 0..4095" (R91). -/
def fits12 (x : Nat) : Bool := decide (x < 4096)

/-- A command whose operands fit the fields of its format (R90, R91). Out-of-range operands that a field can
carry (RSGEN 31, MNEW 0) are well formed: they decode, and the command raises ILLEGAL_OPERAND (R94). -/
def Instr.wellFormed : Instr → Bool
  | .nop => true
  | .gfinit => true
  | .gfmul _ _ => true
  | .rsgen degree => fitsByte degree
  | .rsenc eccount => fitsByte eccount
  | .vsel => true
  | .pack => true
  | .b2b => true
  | .xbits => true
  | .mnew n => fitsByte n
  | .fstamp row col => fitsSignedByte row && fitsSignedByte col
  | .sstamp => true
  | .place => true
  | .mask => true
  | .encode => true
  | .draw w h => fits12 w && fits12 h
  | .clrerr => true

end Sys2Proof
end

