-- ==== Sys2Proof/Decode.lean ====
section
/-! DEFINITION. The command words: fields, the opcode table of R93, the decoder, the encoder. -/

namespace Sys2Proof

/-! ### Fields (R90, R91) -/

/-- `op`, bits [31:24]. -/
def opField (w : Word) : Byte := w.extractLsb' 24 8

/-- Bits [15:8]: `a` of format P. -/
def fieldHi (w : Word) : Byte := w.extractLsb' 8 8

/-- Bits [7:0]: `b` of format P, `a` of format B. -/
def fieldLo (w : Word) : Byte := w.extractLsb' 0 8

/-- Bits [23:12]: `w` of format S. -/
def fieldW (w : Word) : BitVec 12 := w.extractLsb' 12 12

/-- Bits [11:0]: `h` of format S. -/
def fieldH (w : Word) : BitVec 12 := w.extractLsb' 0 12

/-- `sext_8` (R14): the byte read as two's complement. -/
def sext8 (b : Byte) : Int := b.toInt

/-! ### The opcode table (R93) -/

/-- A row of R93: the bits of `mask` must equal those of `pattern` (the table's `match`); `build` reads the operand
fields of the row's format. -/
structure OpRow where
  mnemonic : String
  pattern  : Word
  mask     : Word
  build    : Word → Instr

/-- The rows of R93, in its order. -/
def opcodeTable : List OpRow :=
  [ ⟨"NOP",    0x00000000, 0xFFFFFFFF, fun _ => .nop⟩,
    ⟨"GFINIT", 0x01000000, 0xFFFFFFFF, fun _ => .gfinit⟩,
    ⟨"GFMUL",  0x02000000, 0xFFFF0000, fun w => .gfmul (fieldHi w) (fieldLo w)⟩,
    ⟨"RSGEN",  0x03000000, 0xFFFFFF00, fun w => .rsgen (fieldLo w).toNat⟩,
    ⟨"RSENC",  0x04000000, 0xFFFFFF00, fun w => .rsenc (fieldLo w).toNat⟩,
    ⟨"VSEL",   0x05000000, 0xFFFFFFFF, fun _ => .vsel⟩,
    ⟨"PACK",   0x06000000, 0xFFFFFFFF, fun _ => .pack⟩,
    ⟨"B2B",    0x07000000, 0xFFFFFFFF, fun _ => .b2b⟩,
    ⟨"XBITS",  0x08000000, 0xFFFFFFFF, fun _ => .xbits⟩ ] ++
  [ ⟨"MNEW",   0x09000000, 0xFFFFFF00, fun w => .mnew (fieldLo w).toNat⟩,
    ⟨"FSTAMP", 0x0A000000, 0xFFFF0000, fun w => .fstamp (sext8 (fieldHi w)) (sext8 (fieldLo w))⟩,
    ⟨"SSTAMP", 0x0B000000, 0xFFFFFFFF, fun _ => .sstamp⟩,
    ⟨"PLACE",  0x0C000000, 0xFFFFFFFF, fun _ => .place⟩,
    ⟨"MASK",   0x0D000000, 0xFFFFFFFF, fun _ => .mask⟩,
    ⟨"ENCODE", 0x0E000000, 0xFFFFFFFF, fun _ => .encode⟩,
    ⟨"DRAW",   0x0F000000, 0xFF000000, fun w => .draw (fieldW w).toNat (fieldH w).toNat⟩,
    ⟨"CLRERR", 0x10000000, 0xFFFFFFFF, fun _ => .clrerr⟩ ]

/-- "a row matches when `(word & mask) = match`" (R92 step 2). -/
def OpRow.matchesWord (r : OpRow) (w : Word) : Bool := (w &&& r.mask) == r.pattern

/-! ### The decoder (R92, R94) -/

/-- Why a word is illegal (R94): its opcode is none of R93's, or a reserved bit of its format is set. -/
inductive DecodeReject where
  | unknownOpcode (op : Byte)
  | reservedBitSet (op : Byte)
deriving DecidableEq, Repr

/-- What the decoder answers for a word: the one command it stands for, or the reason it stands for none. -/
inductive Decoded where
  | command (i : Instr)
  | illegal (r : DecodeReject)
deriving DecidableEq, Repr

/-- The name of an illegal word's defect: "every word with `op` in 0x11..0xFF, and every word with `op` in
0x00..0x10 whose reserved bits are not all 0" (R94). -/
def rejectReason (w : Word) : DecodeReject :=
  if opField w ≤ 0x10 then .reservedBitSet (opField w) else .unknownOpcode (opField w)

/-- Decoding a command word (R92 steps 2 and 3): the row that matches builds the command, no row means illegal. -/
def decode (w : Word) : Decoded :=
  match opcodeTable.find? (fun r => r.matchesWord w) with
  | some r => .command (r.build w)
  | none => .illegal (rejectReason w)

/-! ### The encoder (R90, R95) -/

/-- Format Z: the opcode, then zeros. -/
def formatZ (op : Byte) : Word := op ++ (0 : BitVec 24)

/-- Format B: the opcode, zeros, one byte. -/
def formatB (op a : Byte) : Word := op ++ (0 : BitVec 16) ++ a

/-- Format P: the opcode, zeros, two bytes. -/
def formatP (op a b : Byte) : Word := op ++ (0 : Byte) ++ a ++ b

/-- Format S: the opcode and two 12-bit fields. -/
def formatS (op : Byte) (w h : BitVec 12) : Word := op ++ w ++ h

/-- The command word of a well-formed command, from the format and opcode of R90 and R93. -/
def encode : Instr → Word
  | .nop => formatZ 0x00
  | .gfinit => formatZ 0x01
  | .gfmul a b => formatP 0x02 a b
  | .rsgen degree => formatB 0x03 (BitVec.ofNat 8 degree)
  | .rsenc eccount => formatB 0x04 (BitVec.ofNat 8 eccount)
  | .vsel => formatZ 0x05
  | .pack => formatZ 0x06
  | .b2b => formatZ 0x07
  | .xbits => formatZ 0x08
  | .mnew n => formatB 0x09 (BitVec.ofNat 8 n)
  | .fstamp row col => formatP 0x0A (BitVec.ofInt 8 row) (BitVec.ofInt 8 col)
  | .sstamp => formatZ 0x0B
  | .place => formatZ 0x0C
  | .mask => formatZ 0x0D
  | .encode => formatZ 0x0E
  | .draw w h => formatS 0x0F (BitVec.ofNat 12 w) (BitVec.ofNat 12 h)
  | .clrerr => formatZ 0x10

/-! ### The host's question about a table row -/

/-- The command the decoder reads from the word `w` of `nbits` bits; a command is exactly one 32-bit word (R90),
so the bits above `nbits` are 0. -/
def decodeTableWord (nbits w : Nat) : Option Instr :=
  match decode (BitVec.ofNat 32 (w % 2 ^ nbits)) with
  | .command i => some i
  | .illegal _ => none

end Sys2Proof
end

