-- ==== Sys2Proof/Config.lean ====
section
/-! DEFINITION. What an implementation fixes (R9 to R12) and the one free value of the model (R341). -/

namespace Sys2Proof

/-- The implementation parameters the source withholds. "The model takes them as configuration arguments"
(00_scope.md section 3): every statement about every state holds for every value of them. -/
structure Config where
  /-- MODE_IND, the 4-bit byte-mode indicator (R9). -/
  modeInd : BitVec 4
  /-- PAD_A, the first filler byte (R10). -/
  padA : Byte
  /-- PAD_B, the second filler byte (R10). -/
  padB : Byte
  /-- RPAD, the rasterizer's margin in pixels (R11). -/
  rpad : Nat
  /-- TIMING_EVEN_DARK, whether even positions of the timing strips are dark (R12). -/
  timingEvenDark : Bool
deriving DecidableEq, Repr

/-- The defaults of R9, R10 and R12 with a given RPAD, the configuration of the vectors of 95_test_vectors.md.
PRESUMED (log 4): the spec marks all four defaults as general knowledge, not in the source; RPAD has none. -/
def Config.withDefaults (rpad : Nat) : Config :=
  { modeInd := 0b0100, padA := 0xEC, padB := 0x11, rpad := rpad, timingEvenDark := true }

/-- FREE VALUE (log 3): what a buffer element that nothing has written since the last reset holds, as a function
of how many resets there have been and of the element's word address. R341 leaves it "unspecified" and allows
"an arbitrary value fixed at reset"; it has no body, so no proof can know it. -/
opaque Config.unspecifiedByte : Nat → Nat → Byte

end Sys2Proof
end

