-- ==== Sys2Proof/Machine/State.lean ====
section
/-! DEFINITION. The state of the block as the spec gives it (10_state.md, 70_reset_and_hazards.md R341), the
latched faults, the port events, and the state after reset. -/

namespace Sys2Proof.Machine

/-- The four fault causes of R300, the values STATUS.ERR can hold besides 0. The block LATCHES a fault and goes on
(R304), so raising one is a NEXT state whose `err` holds it (log 8): `step` never answers `.fault`. Safe. -/
inductive Fault where
  /-- Code 1. Latched by PACK and ENCODE (R301). Safe: the state is the one the spec gives. -/
  | payloadTooLong
  /-- Code 2. Latched by the write of a word no row matches (R306, R94). Safe: the state is the one the spec gives. -/
  | illegalCmd
  /-- Code 3. Latched by RSGEN, RSENC, PACK, B2B, XBITS, MNEW, SSTAMP, PLACE, DRAW (R302). Safe: the state is the
  one the spec gives. -/
  | illegalOperand
  /-- Code 4. Latched by the host port (R303). Safe: the state is the one the spec gives. -/
  | badAccess
deriving DecidableEq, Repr

/-- Why the model has no meaning for a command. No command of the finished model is refused. -/
inductive Refusal where
  /-- Raised by `exec` for a command that has no meaning yet. Safe: nothing is claimed of it. -/
  | notModelled (mnemonic : String)
deriving DecidableEq, Repr

/-- What the host can do at the port (R60, R340): a word read, a word write, or a reset. -/
inductive PortEvent where
  /-- `MemRead(A, 1)`. -/
  | read (a : Addr)
  /-- `MemWrite(A, 1, v)`. -/
  | write (a : Addr) (v : Word)
  /-- The reset input asserted and released (R340). -/
  | reset
deriving DecidableEq, Repr

/-- The three states of a matrix cell: "an explicit three-variant tag", "never a nullable boolean" (R36). -/
inductive CellState where
  | unresolved
  | light
  | dark
deriving DecidableEq, Repr

/-- The byte and bit buffers PAYLOAD, EXP, LOG, GEN, PAR, CW, BITS (R30 to R35), one entry per element that holds a written
value, keyed by the element's word address on the host port (R63), addresses strictly rising, no entry equal to what an
unlisted address reads as. -/
abbrev Memory := List Host.Cell

/-- The matrix store M (R36): the resolved cells, keyed by their word address on the host port (R63), addresses strictly
rising; an unlisted cell is unresolved. -/
abbrev Matrix := List (Nat × CellState)

/-- The surface SURF (R38): the pixels the block has written, keyed by `4096 * y + x`, keys strictly rising; `true` is
dark (pixel value 1). An unlisted pixel holds whatever the host left there (log 6). -/
abbrev Surface := List (Nat × Bool)

/-- Everything the spec gives the machine, and the model's own fields `cfg`, `pending`, `rdata`, `resetCount`. -/
structure State where
  /-- The configuration, R9 to R12: not architectural state (R20); no step changes it (log 4). -/
  cfg        : Config
  /-- STATUS bit 0 (R23): EXP and LOG hold the tables. -/
  gfvalid    : Bool
  /-- STATUS bit 1 (R23): the last MASK met an unresolved cell. -/
  unres      : Bool
  /-- STATUS bits [11:8] (R23, R300); `none` is code 0, no fault. -/
  err        : Option Fault
  /-- ERRINFO, fault information (R22, R304). -/
  errinfo    : Word
  /-- PLEN, payload byte count. -/
  plen       : Byte
  /-- VER, version, legal 1..5. -/
  ver        : BitVec 3
  /-- N, matrix side, 0..37. -/
  n          : BitVec 6
  /-- BITLEN, bit count, legal 0..1024. -/
  bitlen     : BitVec 11
  /-- DLEN, data codeword count. -/
  dlen       : Byte
  /-- ECLEN, parity codeword count, legal 0..30. -/
  eclen      : BitVec 5
  /-- GDEG, degree of the polynomial in GEN. -/
  gdeg       : BitVec 5
  /-- RESULT, result byte. -/
  result     : Byte
  /-- SURFW, surface width of the last DRAW. -/
  surfw      : BitVec 12
  /-- SURFH, surface height of the last DRAW. -/
  surfh      : BitVec 12
  /-- CELLSZ, cell size of the last DRAW. -/
  cellsz     : BitVec 12
  /-- OFFX, x offset of the last DRAW, two's complement. -/
  offx       : Word
  /-- OFFY, y offset of the last DRAW, two's complement. -/
  offy       : Word
  /-- PAYLOAD, EXP, LOG, GEN, PAR, CW, BITS (R30 to R35). -/
  mem        : Memory
  /-- M (R36, R37). -/
  matrix     : Matrix
  /-- SURF (R38). -/
  surf       : Surface
  /-- The port events the host has issued and the port has not performed, oldest first (R60, R70; log 1). -/
  pending    : List PortEvent
  /-- The data word the port returned for the last host read (R60; log 2). -/
  rdata      : Word
  /-- How many resets since power up: the argument of `Config.unspecifiedByte` (log 3). -/
  resetCount : Nat
deriving DecidableEq, Repr

/-- The state after reset (R341): every register and flag 0, no matrix, no buffer element written. `cfg` holds the
defaults (PRESUMED, log 4) with RPAD 4 (DESIGN CHOICE, log 5); `surf` lists nothing (log 6), `rdata` is 0 (DESIGN CHOICE,
log 2), `resetCount` is 0 (DESIGN CHOICE, log 3). -/
def State.reset : State :=
  { cfg := Config.withDefaults 4
    gfvalid := false, unres := false, err := none, errinfo := 0
    plen := 0, ver := 0, n := 0, bitlen := 0, dlen := 0, eclen := 0, gdeg := 0, result := 0
    surfw := 0, surfh := 0, cellsz := 0, offx := 0, offy := 0
    mem := [], matrix := [], surf := []
    pending := [], rdata := 0, resetCount := 0 }

end Sys2Proof.Machine
end

