-- ==== Sys2Proof/Machine/Ops.lean ====
section
/-! DEFINITION. The shared operations: sparse maps, the memory of buffers and its address map, the matrix
store, the surface, the fault
latch and its acknowledge, reset. -/

namespace Sys2Proof.Machine

/-! ### Sparse maps: lists of key and value, keys strictly rising -/

/-- The value listed for a key: that of the first entry with it. Written over the list's recursor, as `insertKey` is, so that
Lean's kernel evaluates a look-up and an insertion quickly; `lookupKey_cons` and `insertKey_cons` state the recursion. -/
def lookupKey {α : Type} (k : Nat) (l : List (Nat × α)) : Option α :=
  l.rec none (fun e _ found => bif Nat.beq e.1 k then some e.2 else found)

/-- List a value for a key, at its place in the rising order, over any value listed before. -/
def insertKey {α : Type} (k : Nat) (v : α) (l : List (Nat × α)) : List (Nat × α) :=
  l.rec [(k, v)] (fun e rest inserted =>
    bif Nat.blt e.1 k then e :: inserted
    else bif Nat.beq e.1 k then (k, v) :: rest
    else (k, v) :: e :: rest)

/-- Take a key off the list. -/
def eraseKey {α : Type} (k : Nat) (l : List (Nat × α)) : List (Nat × α) :=
  l.filter (fun e => e.1 != k)

/-- Keys strictly rising. -/
def risingKeys {α : Type} : List (Nat × α) → Bool
  | [] => true
  | [_] => true
  | (a, _) :: (b, v) :: rest => decide (a < b) && risingKeys ((b, v) :: rest)

/-! ### The address map (R63) -/

/-- Word address of PAYLOAD[i]. -/
def payloadAddr (i : Nat) : Nat := 0x0100 + i
/-- Word address of EXP[i]. -/
def expAddr (i : Nat) : Nat := 0x0200 + i
/-- Word address of LOG[i]. -/
def logAddr (i : Nat) : Nat := 0x0400 + i
/-- Word address of GEN[i]. -/
def genAddr (i : Nat) : Nat := 0x0500 + i
/-- Word address of PAR[i]. -/
def parAddr (i : Nat) : Nat := 0x0520 + i
/-- Word address of CW[i]. -/
def cwAddr (i : Nat) : Nat := 0x0600 + i
/-- Word address of BITS[i]. -/
def bitsAddr (i : Nat) : Nat := 0x0800 + i
/-- Word address of M[r][c]. -/
def cellAddr (r c : Nat) : Nat := 0x1000 + 64 * r + c

/-- The address ranges of R63's table. -/
def inPayload (a : Nat) : Bool := decide (0x0100 ≤ a ∧ a < 0x0200)
def inExp (a : Nat) : Bool := decide (0x0200 ≤ a ∧ a < 0x0400)
def inLog (a : Nat) : Bool := decide (0x0400 ≤ a ∧ a < 0x0500)
def inGen (a : Nat) : Bool := decide (0x0500 ≤ a ∧ a < 0x0520)
def inPar (a : Nat) : Bool := decide (0x0520 ≤ a ∧ a < 0x0540)
def inCw (a : Nat) : Bool := decide (0x0600 ≤ a ∧ a < 0x0700)
def inBits (a : Nat) : Bool := decide (0x0800 ≤ a ∧ a < 0x0C00)
def inCells (a : Nat) : Bool := decide (0x1000 ≤ a ∧ a < 0x2000)

/-- The word addresses at which an element of a byte or bit buffer exists (R63). -/
def inBuffers (a : Nat) : Bool :=
  inPayload a || inExp a || inLog a || inGen a || inPar a || inCw a || inBits a

/-! ### The memory of buffers -/

/-- What an unlisted address reads as: 0 at LOG[0] (R31, R341); elsewhere no value, because R341 gives none ("holding no
value until something writes it"). -/
def Memory.absent (a : Nat) : Option Byte := if a = logAddr 0 then some 0 else none

/-- The canonical form: addresses strictly rising, no entry equal to what an unlisted address reads as. -/
def Memory.wf (m : Memory) : Bool :=
  risingKeys m && m.all (fun e => Memory.absent e.1 != some e.2)

/-- The value an address holds, `none` where nothing has written it and R341 gives no value. -/
def memRead (m : Memory) (a : Nat) : Option Byte :=
  match lookupKey a m with
  | some v => some v
  | none => Memory.absent a

/-- Store a value at an address, keeping the canonical form. -/
def memWrite (a : Nat) (v : Byte) (m : Memory) : Memory :=
  if Memory.absent a == some v then eraseKey a m else insertKey a v m

/-- Store values at consecutive addresses. The addresses are distinct, so the order of the stores is of no effect. -/
def memWriteList (a : Nat) : List Byte → Memory → Memory
  | [], m => m
  | v :: vs, m => memWrite a v (memWriteList (a + 1) vs m)

/-- The element at a word address. Where nothing has written it and R341 gives no value it is a FREE VALUE, "an
arbitrary value fixed at reset" (R341; log 3). -/
def State.byteAt (s : State) (a : Nat) : Byte :=
  match memRead s.mem a with
  | some v => v
  | none => Config.unspecifiedByte s.resetCount a

/-- Store one element. -/
def State.setByte (a : Nat) (v : Byte) (s : State) : State := { s with mem := memWrite a v s.mem }

/-- Store elements at consecutive addresses: `ARR[i] <- y[i]` for every index of y. -/
def State.setBytes (a : Nat) (vs : List Byte) (s : State) : State := { s with mem := memWriteList a vs s.mem }

/-- The elements at `len` consecutive addresses: `ARR[0..len-1]`. -/
def State.bytesAt (s : State) (a len : Nat) : List Byte := (List.range len).map (fun i => s.byteAt (a + i))

/-! ### Bits (R15, R35) -/

/-- A bit as the element of BITS that holds it. -/
def bitByte (b : Bool) : Byte := if b then 1 else 0

/-- BITS[i]: the element is in bit [0] of its word (R62). -/
def State.bitAt (s : State) (i : Nat) : Bool := (s.byteAt (bitsAddr i)).getLsbD 0

/-- BITS[0..len-1]. -/
def State.bitsAt (s : State) (len : Nat) : List Bool := (List.range len).map s.bitAt

/-- `BITS[i] <- b[i]` for every index of b. -/
def State.setBits (bs : List Bool) (s : State) : State := s.setBytes (bitsAddr 0) (bs.map bitByte)

/-- `bits8(y)`: the MSB-first expansion of a byte (R15). -/
def bits8 (y : Byte) : List Bool :=
  [y.getLsbD 7, y.getLsbD 6, y.getLsbD 5, y.getLsbD 4, y.getLsbD 3, y.getLsbD 2, y.getLsbD 1, y.getLsbD 0]

/-- `byte8(b0..b7) = 128*b0 + 64*b1 + ... + 1*b7`, over the first eight bits of a sequence (R15). -/
def byte8 (bs : List Bool) : Byte :=
  BitVec.ofNat 8 ((bs.take 8).foldl (fun acc b => 2 * acc + b.toNat) 0)

/-! ### Matrix cells (R36, R37) -/

/-- The cell code of R37: 0 = U, 2 = L, 3 = D. -/
def CellState.code : CellState → Byte
  | .unresolved => 0
  | .light => 2
  | .dark => 3

/-- The canonical form of the matrix store: addresses strictly rising, no unresolved cell listed. -/
def Matrix.wf (m : Matrix) : Bool := risingKeys m && m.all (fun e => e.2 != .unresolved)

/-- `M[r][c]`. -/
def getCell (m : Matrix) (r c : Nat) : CellState :=
  match lookupKey (cellAddr r c) m with
  | some t => t
  | none => .unresolved

/-- `M[r][c] <- t`. -/
def setCell (r c : Nat) (t : CellState) (m : Matrix) : Matrix :=
  if t = .unresolved then eraseKey (cellAddr r c) m else insertKey (cellAddr r c) t m

/-- `new_matrix` (R190): every cell unresolved. -/
def newMatrix : Matrix := []

/-- M[r][c] of a state. -/
def State.cell (s : State) (r c : Nat) : CellState := getCell s.matrix r c

/-- The (row, column) pairs of a `rows` by `cols` grid, row by row. -/
def gridCoords (rows cols : Nat) : List (Nat × Nat) :=
  (List.range rows).flatMap (fun r => (List.range cols).map (fun c => (r, c)))

/-! ### The surface and the pixel port (R38, R74) -/

/-- The key of pixel (x, y); x is at most 4095 (R13). -/
def pixelKey (x y : Nat) : Nat := 4096 * y + x

/-- `SurfWrite(x, y, p)`, `true` is dark (R16). -/
def surfWrite (x y : Nat) (p : Bool) (f : Surface) : Surface := insertKey (pixelKey x y) p f

/-- The pixel the block last wrote at (x, y); `none` where it has written none, and the host's own content stands. -/
def surfPixel (f : Surface) (x y : Nat) : Option Bool := lookupKey (pixelKey x y) f

/-! ### Faults (R304, R308) and reset (R340, R341) -/

/-- `raise F(info)` (R304): "STATUS.ERR <- code(F); ERRINFO <- info", nothing else is saved and nothing else changes. -/
def raise (f : Fault) (info : Word) (s : State) : State := { s with err := some f, errinfo := info }

/-- The return, CLRERR's effect: "STATUS.ERR <- 0; ERRINFO <- 0" (R281, R308). -/
def acknowledge (s : State) : State := { s with err := none, errinfo := 0 }

/-- The reset input (R340, R341): every register, flag and buffer as after power up; the configuration is fixed (R20) and
the surface is not touched (R38). The buffers are unspecified anew, so the free values are those of a new count (log 3).
The events the host issued after the reset stay pending (log 10). -/
def resetBlock (s : State) : State :=
  { State.reset with
    cfg := s.cfg, surf := s.surf, pending := s.pending, resetCount := s.resetCount + 1 }

end Sys2Proof.Machine
end

