-- ==== Sys2Proof/Machine/Operands.lean ====
section
/-! DEFINITION. The operands commands read: the parameters of a version, the sequences in the buffers, and the domain
of every command (R302). -/

namespace Sys2Proof.Machine

/-! ### Parameters of a version (R7, R8) -/

/-- `SIDE(v) = 17 + 4*v` (R7). -/
def side (v : Nat) : Nat := 17 + 4 * v

/-- `CAP(v)`: "14, 26, 42, 62, 84 for v = 1..5" (R7); no version outside 1..5 has a capacity. -/
def cap : Nat → Nat
  | 1 => 14
  | 2 => 26
  | 3 => 42
  | 4 => 62
  | 5 => 84
  | _ => 0

/-- `clamp(x, lo, hi) = max(lo, min(x, hi))` (R8). -/
def clamp (x lo hi : Nat) : Nat := max lo (min x hi)

/-- `EC(v) = clamp(floor(CAP(v)/3), 7, 30)` (R8). -/
def ecCount (v : Nat) : Nat := clamp (cap v / 3) 7 30

/-! ### Sequences in the buffers -/

/-- PAYLOAD[0..PLEN-1] (R30). -/
def State.payload (s : State) : List Byte := s.bytesAt (payloadAddr 0) s.plen.toNat

/-- CW[0..DLEN-1] (R34). -/
def State.dataCodewords (s : State) : List Byte := s.bytesAt (cwAddr 0) s.dlen.toNat

/-- PAR[0..ECLEN-1] (R33). -/
def State.parityCodewords (s : State) : List Byte := s.bytesAt (parAddr 0) s.eclen.toNat

/-- BITS[0..BITLEN-1] (R35). -/
def State.bitSequence (s : State) : List Bool := s.bitsAt s.bitlen.toNat

/-! ### Domains (R302): what each command checks before it writes any state -/

/-- "v in 1..5" (R7). -/
def legalVersion (v : Nat) : Bool := decide (1 ≤ v ∧ v ≤ 5)

/-- RSGEN's domain: the degree is at most 30 (R141). -/
def rsgenLegal (degree : Nat) : Bool := decide (degree ≤ 30)

/-- RSENC's domain: 1 to 30 parity codewords (R143). -/
def rsencLegal (eccount : Nat) : Bool := decide (1 ≤ eccount ∧ eccount ≤ 30)

/-- B2B's domain: at most 1024 bits, a multiple of 8 (R175). -/
def b2bLegal (s : State) : Bool := decide (s.bitlen.toNat ≤ 1024 ∧ s.bitlen.toNat % 8 = 0)

/-- XBITS's domain: the parity buffer's use and the bit buffer's size (R178). -/
def xbitsLegal (s : State) : Bool := decide (s.eclen.toNat ≤ 30 ∧ s.dlen.toNat + s.eclen.toNat ≤ 128)

/-- MNEW's domain: a side of 1 to 37 (R191). -/
def mnewLegal (n : Nat) : Bool := decide (1 ≤ n ∧ n ≤ 37)

/-- SSTAMP's domain: a legal version and a matrix of its side (R196). -/
def sstampLegal (s : State) : Bool := legalVersion s.ver.toNat && decide (s.n.toNat = side s.ver.toNat)

/-- PLACE's domain: a version's side and at most 1024 bits (R221). -/
def placeLegal (s : State) : Bool :=
  [21, 25, 29, 33, 37].contains s.n.toNat && decide (s.bitlen.toNat ≤ 1024)

/-- DRAW's domain: there is a matrix (R261). -/
def drawLegal (s : State) : Bool := decide (s.n.toNat ≠ 0)

end Sys2Proof.Machine
end

