-- ==== Sys2Proof/Machine/MatrixBuild.lean ====
section
/-! DEFINITION. The matrix builder (43_matrix_build.md): new matrix, finder motif, structural stamp, and the meanings of
MNEW, FSTAMP, SSTAMP. -/

namespace Sys2Proof.Machine

/-! ### Finder motif (R193, R192) -/

/-- `|d - 3|` for an offset 0..6. -/
def fromCentre (d : Nat) : Nat := if d < 3 then 3 - d else d - 3

/-- The motif's cell at offsets dr, dc: L on the ring at distance 2 from the centre, D elsewhere (R193). -/
def motifCell (dr dc : Nat) : CellState :=
  if max (fromCentre dr) (fromCentre dc) = 2 then .light else .dark

/-- One motif cell, "simply skipped" where its position is outside the grid (R192). -/
def stampMotifCell (n : Nat) (row col : Int) (m : Matrix) (d : Nat × Nat) : Matrix :=
  let r := row + d.1
  let c := col + d.2
  if 0 ≤ r ∧ r < n ∧ 0 ≤ c ∧ c < n then setCell r.toNat c.toNat (motifCell d.1 d.2) m else m

/-- `stamp_finder(row, col)` on a matrix of side n (R192). -/
def stampFinder (n : Nat) (row col : Int) (m : Matrix) : Matrix :=
  (gridCoords 7 7).foldl (stampMotifCell n row col) m

/-! ### Structural stamp (R195) -/

/-- "only where still unresolved" (R195). -/
def setIfUnresolved (r c : Nat) (t : CellState) (m : Matrix) : Matrix :=
  if getCell m r c = .unresolved then setCell r c t m else m

/-- The colour of timing position i (R195 part 2, R12). -/
def timingCell (evenDark : Bool) (i : Nat) : CellState :=
  if decide (i % 2 = 0) = evenDark then .dark else .light

/-- Part (1) of R195: three finders. -/
def stampFinders (n : Nat) (m : Matrix) : Matrix :=
  stampFinder n ((n : Int) - 7) 0 (stampFinder n 0 ((n : Int) - 7) (stampFinder n 0 0 m))

/-- Part (2) of R195: positions 7..n-8 of row 6 and of column 6. -/
def stampTiming (evenDark : Bool) (n : Nat) (m : Matrix) : Matrix :=
  (List.range' 7 (n - 14)).foldl
    (fun m i => setIfUnresolved i 6 (timingCell evenDark i) (setIfUnresolved 6 i (timingCell evenDark i) m)) m

/-- Part (3) of R195: the reservation zones on row 8 and column 8. -/
def stampReservation (n : Nat) (m : Matrix) : Matrix :=
  let m := (List.range 9).foldl (fun m c => if c ≠ 6 then setIfUnresolved 8 c .light m else m) m
  let m := (List.range 9).foldl (fun m r => if r ≠ 6 then setIfUnresolved r 8 .light m else m) m
  (List.range' (n - 8) 8).foldl (fun m i => setIfUnresolved i 8 .light (setIfUnresolved 8 i .light m)) m

/-- `stamp_structural(v)` on a matrix of side n = SIDE(v), its three parts in order (R195). -/
def stampStructural (evenDark : Bool) (v : Nat) (m : Matrix) : Matrix :=
  stampReservation (side v) (stampTiming evenDark (side v) (stampFinders (side v) m))

/-! ### Effects and meanings -/

/-- `N <- n; M[r][c] <- U` for every cell (R191). -/
def mnewEffect (n : Nat) (s : State) : State := { s with n := BitVec.ofNat 6 n, matrix := newMatrix }

/-- `stamp_structural(v)` on the state's matrix (R195, R196). -/
def sstampEffect (v : Nat) (s : State) : State :=
  { s with matrix := stampStructural s.cfg.timingEvenDark v s.matrix }

/-- MNEW n (R191). -/
def execMnew (n : Nat) (s : State) : Host.Outcome State Fault Refusal :=
  if mnewLegal n then .next (mnewEffect n s) else .next (raise .illegalOperand (encode (.mnew n)) s)

/-- FSTAMP row, col (R194). -/
def execFstamp (row col : Int) (s : State) : Host.Outcome State Fault Refusal :=
  .next { s with matrix := stampFinder s.n.toNat row col s.matrix }

/-- SSTAMP (R196). -/
def execSstamp (s : State) : Host.Outcome State Fault Refusal :=
  if sstampLegal s then .next (sstampEffect s.ver.toNat s)
  else .next (raise .illegalOperand (encode .sstamp) s)

end Sys2Proof.Machine
end

