-- ==== Sys2Proof/Machine/Flags.lean ====
section
/-! DEFINITION. The flags: the STATUS word (R23), the fault codes (R300), UNRES (R232). -/

namespace Sys2Proof.Machine

/-- `code(F)`: the value STATUS.ERR holds for a fault (R300). -/
def Fault.code : Fault → BitVec 4
  | .payloadTooLong => 1
  | .illegalCmd => 2
  | .illegalOperand => 3
  | .badAccess => 4

/-- STATUS.ERR (R23): 0 is no fault. -/
def State.errCode (s : State) : BitVec 4 :=
  match s.err with
  | none => 0
  | some f => f.code

/-- A Boolean as a field of one bit. -/
def flagBit (b : Bool) : BitVec 1 := if b then 1 else 0

/-- The STATUS word (R23): [11:8] ERR, [1] UNRES, [0] GFVALID, every other bit 0. -/
def State.statusWord (s : State) : Word :=
  (0 : BitVec 20) ++ s.errCode ++ (0 : BitVec 6) ++ flagBit s.unres ++ flagBit s.gfvalid

/-- "some M[r][c] = U with r, c < N" (R232): the value MASK and ENCODE give UNRES. -/
def anyUnresolved (n : Nat) (m : Matrix) : Bool :=
  (gridCoords n n).any (fun p => decide (getCell m p.1 p.2 = .unresolved))

end Sys2Proof.Machine
end

