-- ==== Sys2Proof/Machine/PlaceMask.lean ====
section
/-! DEFINITION. The data placer and the mask stage (44_place_mask.md), and the meanings of PLACE and MASK. -/

namespace Sys2Proof.Machine

/-! ### Data placer (R220) -/

/-- The right columns of the pairs, from `col` leftward: two columns at a time while col > 0, and column 6 is never the
right column of a pair (R220). The first argument bounds the number of pairs. -/
def rightColumns : Nat → Nat → List Nat
  | 0, _ => []
  | k + 1, col =>
    if col = 0 then []
    else if col = 6 then 5 :: rightColumns k 3
    else col :: rightColumns k (col - 2)

/-- The rows of a side in scan order: bottom to top when the scan goes up (R220). -/
def scanRows (n : Nat) (up : Bool) : List Nat := if up then (List.range n).reverse else List.range n

/-- The cells of one pair in scan order: within each row the right column first (R220). -/
def scanPair (n : Nat) (up : Bool) (col : Nat) : List (Nat × Nat) :=
  (scanRows n up).flatMap (fun row => [(row, col), (row, col - 1)])

/-- The scan of the pairs with these right columns; the direction alternates once per pair (R220). -/
def scanPairs (n : Nat) : Bool → List Nat → List (Nat × Nat)
  | _, [] => []
  | up, col :: cols => scanPair n up col ++ scanPairs n (!up) cols

/-- Every cell `place_data` visits on a matrix of side n, in order: the rightmost pair first, upward (R220). -/
def placeOrder (n : Nat) : List (Nat × Nat) := scanPairs n true (rightColumns n (n - 1))

/-- "Bit 1 makes the cell dark and bit 0 light" (R220). -/
def bitCell (b : Bool) : CellState := if b then .dark else .light

/-- One visit of `place_data` with cursor k: an unresolved cell takes bit k, or 0 beyond the end of the stream, and moves the
cursor; a resolved cell is left as it is and takes no bit (R220). -/
def placeVisit (bits : List Bool) (km : Nat × Matrix) (p : Nat × Nat) : Nat × Matrix :=
  if getCell km.2 p.1 p.2 = .unresolved then
    (km.1 + 1, setCell p.1 p.2 (bitCell (bits.getD km.1 false)) km.2)
  else km

/-- `place_data(b)` on a matrix of side n: the final cursor and the matrix (R220). -/
def placeData (n : Nat) (bits : List Bool) (m : Matrix) : Nat × Matrix :=
  (placeOrder n).foldl (placeVisit bits) (0, m)

/-! ### Mask (R231) -/

/-- A cell with its dark/light value inverted; an unresolved cell stays unresolved (R231). -/
def CellState.invert : CellState → CellState
  | .unresolved => .unresolved
  | .light => .dark
  | .dark => .light

/-- One cell of `apply_mask`: inverted where row + column is even (R231). -/
def maskCell (m : Matrix) (p : Nat × Nat) : Matrix :=
  if (p.1 + p.2) % 2 = 0 then setCell p.1 p.2 (getCell m p.1 p.2).invert m else m

/-- `apply_mask()` on a matrix of side n (R231). -/
def applyMask (n : Nat) (m : Matrix) : Matrix := (gridCoords n n).foldl maskCell m

/-! ### Effects and meanings -/

/-- `place_data(BITS[0..BITLEN-1])` on the state's matrix; "the cursor is not kept" (R221). -/
def placeEffect (s : State) : State :=
  { s with matrix := (placeData s.n.toNat s.bitSequence s.matrix).2 }

/-- `STATUS.UNRES <- (1 if some cell is U else 0); apply_mask()` (R232). -/
def maskEffect (s : State) : State :=
  { s with unres := anyUnresolved s.n.toNat s.matrix, matrix := applyMask s.n.toNat s.matrix }

/-- PLACE (R221). -/
def execPlace (s : State) : Host.Outcome State Fault Refusal :=
  if placeLegal s then .next (placeEffect s) else .next (raise .illegalOperand (encode .place) s)

/-- MASK (R232). -/
def execMask (s : State) : Host.Outcome State Fault Refusal := .next (maskEffect s)

end Sys2Proof.Machine
end

