-- ==== Sys2Proof/Machine/Gf.lean ====
section
/-! DEFINITION. The GF(256) engine (40_gf256.md): table build, lazy build, multiply, and the meanings of GFINIT and GFMUL. -/

namespace Sys2Proof.Machine

/-! ### The table build (R121) -/

/-- One doubling of R121's 9-bit working value: shift left, and XOR with 0x11D when the 9th bit is set. -/
def gfDouble (x : BitVec 9) : BitVec 9 :=
  let y := x <<< 1
  if y &&& 0x100 ≠ 0 then y ^^^ 0x11D else y

/-- "recording 255 distinct nonzero field elements": the first loop's `EXP[i] <- x`, as the list of `k` successive working
values from x (R121). -/
def powersFrom : Nat → BitVec 9 → List Byte
  | 0, _ => []
  | k + 1, x => x.setWidth 8 :: powersFrom k (gfDouble x)

/-- EXP[0..511]: the 255 elements "starting from element 1", then "extend the exponent table to 512 entries by repeating the
first 255" (R121). -/
def expTable : List Byte :=
  let first := powersFrom 255 1
  first ++ first ++ first.take 2

/-- "... and their discrete logarithms": the first loop's `LOG[x] <- i` from index i with working value x, for `k` more
indices (R121). -/
def writeLogs : Nat → Nat → BitVec 9 → Memory → Memory
  | 0, _, _, m => m
  | k + 1, i, x, m => writeLogs k (i + 1) (gfDouble x) (memWrite (logAddr x.toNat) (BitVec.ofNat 8 i) m)

/-- `build_tables()` (R121). EXP and LOG are disjoint, so writing them one after the other is of no effect. -/
def buildTables (m : Memory) : Memory := memWriteList (expAddr 0) expTable (writeLogs 255 0 1 m)

/-- `ensure_gf()` (R123): the lazy, memoised build. -/
def ensureGf (s : State) : State :=
  if s.gfvalid then s else { s with mem := buildTables s.mem, gfvalid := true }

/-! ### Multiplication (R124) -/

/-- EXP[i]. -/
def State.exp (s : State) (i : Nat) : Byte := s.byteAt (expAddr i)

/-- LOG[x]. -/
def State.log (s : State) (x : Byte) : Byte := s.byteAt (logAddr x.toNat)

/-- `gfmul(a, b)` (R124), by the tables the state holds. -/
def State.gfmul (s : State) (a b : Byte) : Byte :=
  if a = 0 ∨ b = 0 then 0 else s.exp ((s.log a).toNat + (s.log b).toNat)

/-! ### Meanings -/

/-- GFINIT (R122): "build the tables now". -/
def execGfinit (s : State) : Host.Outcome State Fault Refusal := .next (ensureGf s)

/-- GFMUL a, b (R125): `ensure_gf(); RESULT <- gfmul(a, b)`. -/
def execGfmul (a b : Byte) (s : State) : Host.Outcome State Fault Refusal :=
  let s := ensureGf s
  .next { s with result := s.gfmul a b }

end Sys2Proof.Machine
end

