-- ==== Sys2Proof/Machine/ReedSolomon.lean ====
section
/-! DEFINITION. The Reed-Solomon encoder (41_reed_solomon.md): generator polynomial, parity, and the meanings of RSGEN and
RSENC. The polynomial functions take the field multiplication they use, the machine's `State.gfmul`. -/

namespace Sys2Proof.Machine

/-- `generator(d)` (R140), coefficients from the highest degree down. Each pass keeps a copy of the polynomial scaled by
EXP[i], appends a trailing zero, and XORs the scaled copy in one place further down. -/
def generator (mul : Byte → Byte → Byte) (exp : Nat → Byte) : Nat → List Byte
  | 0 => [1]
  | i + 1 =>
    let g := generator mul exp i
    let scaled := g.map (fun c => mul c (exp i))
    List.zipWith (· ^^^ ·) (g ++ [0]) (0 :: scaled)

/-- One data byte of `rs_parity` (R142): feedback, shift left, and XOR of the generator's coefficients after the leading
1, each times the feedback. -/
def parityStep (mul : Byte → Byte → Byte) (g : List Byte) (r : List Byte) (d : Byte) : List Byte :=
  let f := d ^^^ r.headD 0
  let shifted := r.tail ++ [0]
  if f ≠ 0 then List.zipWith (· ^^^ ·) shifted (g.tail.map (fun c => mul c f)) else shifted

/-- `rs_parity(data, ec)` (R142) with g the generator of degree ec. -/
def rsParity (mul : Byte → Byte → Byte) (g : List Byte) (data : List Byte) (ec : Nat) : List Byte :=
  data.foldl (parityStep mul g) (List.replicate ec 0)

/-- The generator polynomial by the tables the state holds. -/
def State.generator (s : State) (d : Nat) : List Byte := Machine.generator s.gfmul s.exp d

/-- `GEN[j] <- g[j] for j in 0..d; GDEG <- d` with g = generator(d) (R141, R143). -/
def storeGenerator (d : Nat) (s : State) : State :=
  { s.setBytes (genAddr 0) (s.generator d) with gdeg := BitVec.ofNat 5 d }

/-- `r <- rs_parity(CW[0..DLEN-1], ec); PAR[j] <- r[j] for j in 0..ec-1; ECLEN <- ec` (R143). -/
def storeParity (ec : Nat) (s : State) : State :=
  { s.setBytes (parAddr 0) (rsParity s.gfmul (s.generator ec) s.dataCodewords ec) with eclen := BitVec.ofNat 5 ec }

/-- What RSENC does once its operand is accepted (R143). -/
def rsencEffect (ec : Nat) (s : State) : State := storeParity ec (storeGenerator ec (ensureGf s))

/-- RSGEN degree (R141). -/
def execRsgen (degree : Nat) (s : State) : Host.Outcome State Fault Refusal :=
  if rsgenLegal degree then .next (storeGenerator degree (ensureGf s))
  else .next (raise .illegalOperand (encode (.rsgen degree)) s)

/-- RSENC eccount (R143). -/
def execRsenc (eccount : Nat) (s : State) : Host.Outcome State Fault Refusal :=
  if rsencLegal eccount then .next (rsencEffect eccount s)
  else .next (raise .illegalOperand (encode (.rsenc eccount)) s)

end Sys2Proof.Machine
end

