-- ==== Sys2Proof/Machine/VersionPack.lean ====
section
/-! DEFINITION. The version selector and the bit packer (42_version_pack.md), and the meanings of VSEL, PACK, B2B, XBITS. -/

namespace Sys2Proof.Machine

/-! ### Version selector (R160) -/

/-- `choose_version(len)`: the smallest version whose capacity is at least len, else 5 (R160). -/
def chooseVersion (len : Nat) : Nat := ([1, 2, 3, 4, 5].find? (fun v => decide (len ≤ cap v))).getD 5

/-- `v <- choose_version(PLEN); VER <- v; RESULT <- v` (R161). -/
def vselEffect (s : State) : State :=
  let v := chooseVersion s.plen.toNat
  { s with ver := BitVec.ofNat 3 v, result := BitVec.ofNat 8 v }

/-! ### Bit packer (R169) -/

/-- The mode indicator's four bits, most significant first (R9, R169 step 1). -/
def modeBits (m : BitVec 4) : List Bool := [m.getLsbD 3, m.getLsbD 2, m.getLsbD 1, m.getLsbD 0]

/-- `expand(y)`: every byte to 8 bits, MSB-first (R177). -/
def expand (ys : List Byte) : List Bool := ys.flatMap bits8

/-- Steps 1 to 3 of R169: mode indicator, 8-bit count, payload bytes. -/
def packHead (cfg : Config) (pay : List Byte) : List Bool :=
  modeBits cfg.modeInd ++ bits8 (BitVec.ofNat 8 pay.length) ++ expand pay

/-- Step 4 of R169: `t <- min(4, max(0, C - length(b)))` zeros. -/
def packTerminator (c : Nat) (b : List Bool) : List Bool := b ++ List.replicate (min 4 (c - b.length)) false

/-- Step 5 of R169: zeros until the count is a multiple of 8. -/
def packAlign (b : List Bool) : List Bool := b ++ List.replicate ((8 - b.length % 8) % 8) false

/-- The filler byte number k of step 6: PAD_A if k is even, else PAD_B (R10, R169). -/
def fillerByte (cfg : Config) (k : Nat) : Byte := if k % 2 = 0 then cfg.padA else cfg.padB

/-- Step 6 of R169: filler bytes while the count is below C, one more pass for every eight bits or part of eight missing. -/
def packFill (cfg : Config) (c : Nat) (b : List Bool) : List Bool :=
  b ++ expand ((List.range ((c - b.length + 7) / 8)).map (fillerByte cfg))

/-- `pack_bits(pay, v)` (R169); `none` is the failure PAYLOAD_TOO_LONG, "if the raw payload byte length exceeds `capacity`
before any packing begins" (R171). -/
def packBits (cfg : Config) (pay : List Byte) (v : Nat) : Option (List Bool) :=
  if pay.length > cap v then none
  else some (packFill cfg (8 * cap v) (packAlign (packTerminator (8 * cap v) (packHead cfg pay))))

/-- `BITS[i] <- b[i] for i in 0..length(b)-1; BITLEN <- length(b)` (R170, R178). -/
def storeBitSequence (b : List Bool) (s : State) : State := { s.setBits b with bitlen := BitVec.ofNat 11 b.length }

/-! ### Bits to bytes and back (R174, R177) -/

/-- `bits_to_bytes(b)` for `m` bytes: byte i is `byte8` of bits 8i..8i+7 (R174). -/
def bitsToBytes : Nat → List Bool → List Byte
  | 0, _ => []
  | m + 1, b => byte8 b :: bitsToBytes m (b.drop 8)

/-- `CW[i] <- y[i]; DLEN <- BITLEN / 8` with y = bits_to_bytes(BITS[0..BITLEN-1]) (R175). -/
def b2bEffect (s : State) : State :=
  { s.setBytes (cwAddr 0) (bitsToBytes (s.bitlen.toNat / 8) s.bitSequence) with
    dlen := BitVec.ofNat 8 (s.bitlen.toNat / 8) }

/-- `full <- CW[0..DLEN-1] ++ PAR[0..ECLEN-1]`, expanded into BITS (R178). -/
def xbitsEffect (s : State) : State := storeBitSequence (expand (s.dataCodewords ++ s.parityCodewords)) s

/-! ### Meanings -/

/-- VSEL (R161). -/
def execVsel (s : State) : Host.Outcome State Fault Refusal := .next (vselEffect s)

/-- PACK (R170): the version is checked before the payload length (R307). -/
def execPack (s : State) : Host.Outcome State Fault Refusal :=
  if legalVersion s.ver.toNat then
    match packBits s.cfg s.payload s.ver.toNat with
    | some b => .next (storeBitSequence b s)
    | none => .next (raise .payloadTooLong (encode .pack) s)
  else .next (raise .illegalOperand (encode .pack) s)

/-- B2B (R175). -/
def execB2b (s : State) : Host.Outcome State Fault Refusal :=
  if b2bLegal s then .next (b2bEffect s) else .next (raise .illegalOperand (encode .b2b) s)

/-- XBITS (R178). -/
def execXbits (s : State) : Host.Outcome State Fault Refusal :=
  if xbitsLegal s then .next (xbitsEffect s) else .next (raise .illegalOperand (encode .xbits) s)

end Sys2Proof.Machine
end

