-- ==== Sys2Proof/Machine/Encode.lean ====
section
/-! DEFINITION. The whole pipeline in one command (45_encode.md): the meaning of ENCODE. -/

namespace Sys2Proof.Machine

/-- The pipeline up to the packer: VER, RESULT, a fresh matrix of the version's side, the structural stamp (R241). -/
def encodeFront (s : State) : State :=
  let v := chooseVersion s.plen.toNat
  sstampEffect v (mnewEffect (side v) (vselEffect s))

/-- The pipeline from the packed bits on: B2B, RSENC, XBITS, PLACE, MASK (R241). -/
def encodeBack (v : Nat) (b : List Bool) (s : State) : State :=
  maskEffect (placeEffect (xbitsEffect (rsencEffect (ecCount v) (b2bEffect (storeBitSequence b s)))))

/-- ENCODE (R241). When the payload exceeds the capacity the matrix is set back to unresolved and PAYLOAD_TOO_LONG is
raised; VER, RESULT and N stay written (R242). -/
def execEncode (s : State) : Host.Outcome State Fault Refusal :=
  let v := chooseVersion s.plen.toNat
  let front := encodeFront s
  match packBits s.cfg s.payload v with
  | none => .next (raise .payloadTooLong (encode .encode) { front with matrix := newMatrix })
  | some b => .next (encodeBack v b front)

end Sys2Proof.Machine
end

