-- ==== Sys2Proof/Machine/Raster.lean ====
section
/-! DEFINITION. The rasterizer (46_raster.md): geometry, pixel writes, and the meaning of DRAW. -/

namespace Sys2Proof.Machine

/-! ### Geometry (R260, R262) -/

/-- `cs <- max(1, floor((min(w, h) - 2*RPAD) / N))` (R261). Integer division by the positive N rounds toward minus
infinity (R14). -/
def cellSize (rpad n w h : Nat) : Nat := (max 1 (((min w h : Nat) - 2 * (rpad : Int)) / (n : Int))).toNat

/-- `floor((w - N*cs) / 2)` (R262): the offset that centres the grid along an axis of the surface. -/
def centreOffset (extent n cs : Nat) : Int := ((extent : Int) - n * cs) / 2

/-! ### Pixel writes (R261, R264) -/

/-- The clearing writes: pixel value 0 at every pixel of the w by h surface. Within the group no order is defined
(R264); the model goes from the last pixel to the first (log 7). -/
def clearSurface (w h : Nat) (f : Surface) : Surface :=
  (gridCoords h w).foldr (fun p f => surfWrite p.2 p.1 false f) f

/-- One painting write: pixel value 1 at integer coordinates, only inside the surface (R261). -/
def paintPixel (w h : Nat) (x y : Int) (f : Surface) : Surface :=
  if 0 ≤ x ∧ x < w ∧ 0 ≤ y ∧ y < h then surfWrite x.toNat y.toNat true f else f

/-- The painting writes of cell (r, c) if it is dark: the square of side cs whose corner is at (ox + c*cs, oy + r*cs)
(R263). -/
def paintCell (m : Matrix) (w h cs : Nat) (ox oy : Int) (f : Surface) (p : Nat × Nat) : Surface :=
  if getCell m p.1 p.2 = .dark then
    (gridCoords cs cs).foldl
      (fun f d => paintPixel w h (ox + p.2 * cs + d.2) (oy + p.1 * cs + d.1) f) f
  else f

/-- The painting writes of every cell of a matrix of side n (R261). -/
def paintCells (m : Matrix) (n w h cs : Nat) (ox oy : Int) (f : Surface) : Surface :=
  (gridCoords n n).foldl (paintCell m w h cs ox oy) f

/-! ### Meaning -/

/-- What DRAW does once its operand is accepted (R261): five registers, then "all clearing writes precede all painting
writes" (R264). -/
def drawEffect (w h : Nat) (s : State) : State :=
  let n := s.n.toNat
  let cs := cellSize s.cfg.rpad n w h
  let ox := centreOffset w n cs
  let oy := centreOffset h n cs
  { s with
    surfw := BitVec.ofNat 12 w, surfh := BitVec.ofNat 12 h, cellsz := BitVec.ofNat 12 cs
    offx := BitVec.ofInt 32 ox, offy := BitVec.ofInt 32 oy
    surf := paintCells s.matrix n w h cs ox oy (clearSurface w h s.surf) }

/-- DRAW w, h (R261). -/
def execDraw (w h : Nat) (s : State) : Host.Outcome State Fault Refusal :=
  if drawLegal s then .next (drawEffect w h s) else .next (raise .illegalOperand (encode (.draw w h)) s)

end Sys2Proof.Machine
end

