-- ==== Sys2Proof/Machine/System.lean ====
section
/-! DEFINITION. The system commands (47_system.md): the meanings of NOP and CLRERR. -/

namespace Sys2Proof.Machine

/-- NOP (R280): "leaves every register and buffer unchanged". -/
def execNop (s : State) : Host.Outcome State Fault Refusal := .next s

/-- CLRERR (R281): acknowledge a fault. -/
def execClrerr (s : State) : Host.Outcome State Fault Refusal := .next (acknowledge s)

end Sys2Proof.Machine
end

