-- ==== Sys2Proof/Machine/Dispatch.lean ====
section
/-! DEFINITION. The meaning of every command: "run the rule the row names, with the operands of rule R91" (R92 step 4). -/

namespace Sys2Proof.Machine

def exec (i : Instr) (s : State) : Host.Outcome State Fault Refusal :=
  match i with
  | .nop => Sys2Proof.Machine.execNop s
  | .gfinit => Sys2Proof.Machine.execGfinit s
  | .gfmul a b => Sys2Proof.Machine.execGfmul a b s
  | .rsgen degree => Sys2Proof.Machine.execRsgen degree s
  | .rsenc eccount => Sys2Proof.Machine.execRsenc eccount s
  | .vsel => Sys2Proof.Machine.execVsel s
  | .pack => Sys2Proof.Machine.execPack s
  | .b2b => Sys2Proof.Machine.execB2b s
  | .xbits => Sys2Proof.Machine.execXbits s
  | .mnew n => Sys2Proof.Machine.execMnew n s
  | .fstamp row col => Sys2Proof.Machine.execFstamp row col s
  | .sstamp => Sys2Proof.Machine.execSstamp s
  | .place => Sys2Proof.Machine.execPlace s
  | .mask => Sys2Proof.Machine.execMask s
  | .encode => Sys2Proof.Machine.execEncode s
  | .draw w h => Sys2Proof.Machine.execDraw w h s
  | .clrerr => Sys2Proof.Machine.execClrerr s

end Sys2Proof.Machine
end

