-- ==== Sys2Proof/Machine/HostPort.lean ====
section
/-! DEFINITION. The host port (20_memory.md): the register window, reads, writes, the write of a command, reset. -/

namespace Sys2Proof.Machine

/-- The word address of CMD (R22). -/
def cmdAddr : Addr := 0x0000

/-- The word of CLRERR, "the only command executed while STATUS.ERR != 0" (R92 step 1, R281). -/
def clrerrWord : Word := 0x10000000

/-- The register at a word address 0x0000..0x000F as the host reads it (R22): the field in the low bits, all other bits 0;
CMD reads 0. -/
def State.regWord (s : State) : Nat → Word
  | 0x1 => s.statusWord
  | 0x2 => s.plen.setWidth 32
  | 0x3 => s.ver.setWidth 32
  | 0x4 => s.n.setWidth 32
  | 0x5 => s.bitlen.setWidth 32
  | 0x6 => s.dlen.setWidth 32
  | 0x7 => s.eclen.setWidth 32
  | 0x8 => s.gdeg.setWidth 32
  | 0x9 => s.result.setWidth 32
  | 0xA => s.surfw.setWidth 32
  | 0xB => s.surfh.setWidth 32
  | 0xC => s.cellsz.setWidth 32
  | 0xD => s.offx
  | 0xE => s.offy
  | 0xF => s.errinfo
  | _ => 0

/-- The word a host read of a matrix address returns (R64 (b), R37): the cell code, or 0 for a cell that does not exist. -/
def State.cellWord (s : State) (a : Nat) : Word :=
  let r := (a - 0x1000) / 64
  let c := (a - 0x1000) % 64
  if r < s.n.toNat ∧ c < s.n.toNat then (s.cell r c).code.setWidth 32 else 0

/-- The word a host read returns, `none` where the address is unmapped (R63, R64 (a) to (d), (g)). -/
def State.readWord (s : State) (a : Nat) : Option Word :=
  if a < 0x10 then some (s.regWord a)
  else if inCells a then some (s.cellWord a)
  else if a = logAddr 0 then some 0
  else if inBits a then some ((bitByte (s.bitAt (a - bitsAddr 0))).setWidth 32)
  else if inBuffers a then some ((s.byteAt a).setWidth 32)
  else none

/-- The read side effect (R65): a read of an EXP or LOG word first runs `ensure_gf()`, also while a fault is latched
(R305). -/
def readEffect (a : Nat) (s : State) : State := if inExp a || inLog a then ensureGf s else s

/-- `MemRead(A, 1)` (R60, R64, R65): the port's data word is `rdata`. A read of an unmapped address returns 0 and raises
BAD_ACCESS(A), but never while a fault is latched (R64 (g), (h), R305). -/
def hostRead (a : Addr) (s : State) : State :=
  let s := readEffect a.toNat s
  match s.readWord a.toNat with
  | some w => { s with rdata := w }
  | none =>
    let s := { s with rdata := 0 }
    if s.err = none then raise .badAccess (a.setWidth 32) s else s

/-- A host write to a location other than CMD while no fault is latched: a read-write register stores the low bits (R22),
a read-write element its own (R62), every other address raises BAD_ACCESS(A) and stores nothing (R64 (e), (g), R303). -/
def hostStore (a : Addr) (v : Word) (s : State) : State :=
  if a = 0x2 then { s with plen := v.setWidth 8 }
  else if a = 0x3 then { s with ver := v.setWidth 3 }
  else if a = 0x5 then { s with bitlen := v.setWidth 11 }
  else if a = 0x6 then { s with dlen := v.setWidth 8 }
  else if a = 0x7 then { s with eclen := v.setWidth 5 }
  else if inPayload a.toNat || inCw a.toNat then s.setByte a.toNat (v.setWidth 8)
  else if inBits a.toNat then s.setByte a.toNat (bitByte (v.getLsbD 0))
  else raise .badAccess (a.setWidth 32) s

/-- The write of a word to CMD (R92): while a fault is latched only CLRERR runs; a word no row matches raises
ILLEGAL_CMD(word); any other runs its rule. -/
def cmdWrite (w : Word) (s : State) : Host.Outcome State Fault Refusal :=
  if s.err.isSome then
    if w = clrerrWord then exec .clrerr s else .next s
  else
    match decode w with
    | .command i => exec i s
    | .illegal _ => .next (raise .illegalCmd w s)

/-- `MemWrite(A, 1, v)` (R60, R64 (e) to (h)): while a fault is latched a write to anything but CMD is ignored (R305). -/
def hostWrite (a : Addr) (v : Word) (s : State) : Host.Outcome State Fault Refusal :=
  if a = cmdAddr then cmdWrite v s
  else if s.err.isSome then .next s
  else .next (hostStore a v s)

/-- One event at the port, performed to completion (R60, R69). -/
def portEvent (e : PortEvent) (s : State) : Host.Outcome State Fault Refusal :=
  match e with
  | .read a => .next (hostRead a s)
  | .write a v => hostWrite a v s
  | .reset => .next (resetBlock s)

/-- The oldest pending event is taken from the list and performed (R70: issue order); with none pending "the engine waits
for host accesses" (R340) and nothing changes (log 1). -/
def performNext (s : State) : Host.Outcome State Fault Refusal :=
  match s.pending with
  | [] => .next s
  | e :: rest => portEvent e { s with pending := rest }

/-- The state in which the host's next access is the write of a word to CMD: `nbits` bits of `w`, the bits above 0. -/
def issueCommand (s : State) (nbits w : Nat) : State :=
  { s with pending := .write cmdAddr (BitVec.ofNat 32 (w % 2 ^ nbits)) :: s.pending }

end Sys2Proof.Machine
end

