-- ==== Sys2Proof/Machine/Step.lean ====
section
/-! DEFINITION. One step: one event at the host port (R20, R60). -/

namespace Sys2Proof.Machine

/-- One step of the machine: the host port performs the oldest pending event (R60, R70; log 1). -/
def step (s : State) : Host.Outcome State Fault Refusal := performNext s

/-- The block fetches nothing (R21): a command is the data of a write to CMD. So the word is placed where `step` takes its
next command from, as the oldest pending event, and nothing else changes (log 1). -/
def State.withFetchWord (s : State) (nbits w : Nat) : State := issueCommand s nbits w

end Sys2Proof.Machine
end

