-- ==== Sys2Proof/Safety.lean ====
section
/-! DEFINITION. What holds of every state the block can be in (the invariant), and which states a host can reach. -/

namespace Sys2Proof.Machine

/-! ### The field, without the tables (R6, R120, R121) -/

/-- A field element times 2: "double (left-shift by one bit) and reduce with XOR 0x11D" (R121). -/
def gfTwice (x : Byte) : Byte := (x <<< 1) ^^^ (if x.msb then 0x1D else 0)

/-- `2^i` in the field: "starting from element 1, repeatedly double" (R121). -/
def gfPow : Nat → Byte
  | 0 => 1
  | i + 1 => gfTwice (gfPow i)

/-- The product of two bytes as polynomials modulo `x^8+x^4+x^3+x^2+1` (R6), one bit of b at a time from the highest down. -/
def gfTimes (a b : Byte) : Byte :=
  [7, 6, 5, 4, 3, 2, 1, 0].foldl (fun acc k => gfTwice acc ^^^ (if b.getLsbD k then a else 0)) 0

/-- The value at x of the polynomial with these coefficients, highest degree first (R140, R144). -/
def polyEval (p : List Byte) (x : Byte) : Byte := p.foldl (fun acc c => gfTimes acc x ^^^ c) 0

/-- The product of two polynomials, coefficients highest degree first; g is not empty. -/
def polyTimes : List Byte → List Byte → List Byte
  | [], g => List.replicate (g.length - 1) 0
  | a :: p, g => List.zipWith (· ^^^ ·) (g.map (gfTimes a) ++ List.replicate p.length 0) (0 :: polyTimes p g)

/-- `(x - 2^0)·(x - 2^1)· ... ·(x - 2^(d-1))` (R140), "where subtraction is XOR", as a product of polynomials. -/
def rootPoly : Nat → List Byte
  | 0 => [1]
  | d + 1 => polyTimes (rootPoly d) [1, gfPow d]

/-- EXP and LOG hold the tables of R121: `EXP[i] = 2^(i mod 255)` for i in 0..511, `LOG[EXP[i]] = i` for i in 0..254. -/
def TablesBuilt (m : Memory) : Prop :=
  (∀ i, i < 512 → memRead m (expAddr i) = some (gfPow (i % 255))) ∧
  (∀ i, i < 255 → memRead m (logAddr (gfPow i).toNat) = some (BitVec.ofNat 8 i))

/-! ### The places of a matrix (R193, R197, R220) -/

/-- The finder motif's cell at row offset dr and column offset dc, by R193's `ring = max(|dr - 3|, |dc - 3|)`. -/
def motifAt (dr dc : Int) : CellState := if max (dr - 3).natAbs (dc - 3).natAbs = 2 then .light else .dark

/-- A finder cell of a stamped matrix of side n, with the colour of its motif (R197); the anchors are (0, 0), (0, n-7) and
(n-7, 0). -/
def finderAt (n : Nat) (r c : Nat) : Option CellState :=
  if r ≤ 6 ∧ c ≤ 6 then some (motifAt r c)
  else if r ≤ 6 ∧ n - 7 ≤ c then some (motifAt r ((c : Int) - (n - 7)))
  else if n - 7 ≤ r ∧ c ≤ 6 then some (motifAt ((r : Int) - (n - 7)) c)
  else none

/-- A timing cell of a stamped matrix of side n, with its position along the strip (R197). -/
def timingAt (n : Nat) (r c : Nat) : Option Nat :=
  if r = 6 ∧ 7 ≤ c ∧ c ≤ n - 8 then some c
  else if c = 6 ∧ 7 ≤ r ∧ r ≤ n - 8 then some r
  else none

/-- The reservation cells of a stamped matrix of side n (R197). -/
def reservedAt (n : Nat) (r c : Nat) : Bool :=
  decide ((r = 8 ∧ (c ≤ 8 ∨ n - 8 ≤ c) ∧ c ≠ 6) ∨ (c = 8 ∧ (r ≤ 8 ∨ n - 8 ≤ r) ∧ r ≠ 6))

/-- The place of cell (r, c), c not 6, in the zigzag scan of a matrix of side n, from the prose of R220: column pairs from the
right, "skipping column 6 entirely" (so the pairs right of it come first), the vertical direction alternating per pair and
starting upward, and in each row the right column of the pair before the left. -/
def scanRank (n : Nat) (p : Nat × Nat) : Nat :=
  let fromRight := if p.2 > 6 then n - 1 - p.2 else n - 7 + (5 - p.2)
  let pair := fromRight / 2
  let rowsBefore := if pair % 2 = 0 then n - 1 - p.1 else p.1
  pair * (2 * n) + 2 * rowsBefore + fromRight % 2

/-! ### The packed stream, bit by bit (R169, R172) -/

/-- Bit k of a byte's MSB-first expansion (R15). -/
def msbFirst (y : Byte) (k : Nat) : Bool := y.getLsbD (7 - k)

/-- Bit i of the packed stream of a payload: mode indicator, 8-bit count, payload bytes, four zeros, then the filler bytes
PAD_A, PAD_B, PAD_A, ... (R172). -/
def packedBit (cfg : Config) (pay : List Byte) (i : Nat) : Bool :=
  if i < 4 then cfg.modeInd.getLsbD (3 - i)
  else if i < 12 then msbFirst (BitVec.ofNat 8 pay.length) (i - 4)
  else if i < 12 + 8 * pay.length then msbFirst (pay.getD ((i - 12) / 8) 0) ((i - 12) % 8)
  else if i < 16 + 8 * pay.length then false
  else
    let j := i - 16 - 8 * pay.length
    msbFirst (if j / 8 % 2 = 0 then cfg.padA else cfg.padB) (j % 8)

/-! ### The drawing (R261, R263) -/

/-- The cell that pixel (x, y) shows is inside the matrix and dark: "with c = floor((x - ox)/cs) and r = floor((y - oy)/cs),
0 <= r < N and 0 <= c < N and M[r][c] = D" (R261). Integer division by the positive cs rounds toward minus infinity. -/
def ShowsDark (m : Matrix) (n cs : Nat) (ox oy : Int) (x y : Nat) : Prop :=
  let c := ((x : Int) - ox) / cs
  let r := ((y : Int) - oy) / cs
  0 ≤ r ∧ r < n ∧ 0 ≤ c ∧ c < n ∧ getCell m r.toNat c.toNat = .dark

/-! ### The invariant and the reachable states -/

/-- What every step keeps and reset establishes. -/
structure State.Inv (s : State) : Prop where
  /-- The memory is in its canonical form. -/
  memWf : s.mem.wf = true
  /-- Every listed address is an element of R63's map, and LOG[0] is never listed (R31). -/
  memMapped : ∀ a v, lookupKey a s.mem = some v → inBuffers a = true ∧ a ≠ logAddr 0
  /-- An element of BITS is a bit (R62). -/
  bitRange : ∀ i v, i < 1024 → lookupKey (bitsAddr i) s.mem = some v → v = 0 ∨ v = 1
  /-- The matrix store is in its canonical form: no unresolved cell is listed. -/
  matrixWf : s.matrix.wf = true
  /-- Only cells inside the matrix are listed: "Cells with r >= N or c >= N do not exist" (R36). -/
  cellRange : ∀ a t, lookupKey a s.matrix = some t →
    ∃ r c, a = cellAddr r c ∧ r < s.n.toNat ∧ c < s.n.toNat
  /-- "GFVALID: 1 when EXP and LOG hold the tables" (R23). -/
  tables : s.gfvalid = true → TablesBuilt s.mem
  /-- N is 0..37 (R22). -/
  nRange : s.n.toNat ≤ 37
  /-- GDEG is 0..30 (R22). -/
  gdegRange : s.gdeg.toNat ≤ 30
  /-- Without a fault ERRINFO is 0 (R300, R281). -/
  errinfoClear : s.err = none → s.errinfo = 0
  /-- The surface lists each pixel once, in rising order. -/
  surfRising : risingKeys s.surf = true

/-! ### Runs -/

/-- The state in which the host's next event at the port is e. -/
def State.offering (e : PortEvent) (s : State) : State := { s with pending := e :: s.pending }

/-- Commands one after the other, each from the state the one before left. -/
def runCommands : List Instr → State → Host.Outcome State Fault Refusal
  | [], s => .next s
  | i :: is, s =>
    match exec i s with
    | .next t => runCommands is t
    | .fault f => .fault f
    | .refused r => .refused r

/-- The states a host can bring the block to from reset, with any configuration, any content of the surface the block has
not written, and any sequence of port events. -/
inductive Reachable : State → Prop where
  | reset (cfg : Config) : Reachable { State.reset with cfg := cfg }
  | issue {s : State} (es : List PortEvent) : Reachable s → Reachable { s with pending := s.pending ++ es }
  | step {s t : State} : Reachable s → Machine.step s = .next t → Reachable t

end Sys2Proof.Machine
end

