-- ==== Sys2Proof/Certificates/Slice0/Obligations.lean ====
section
/-! DEFINITION. The statements about the machine, for the provers. Where a statement has the premise `TablesSound s`, that is
part `tables` of `State.Inv`, which every step keeps (EveryStepKeepsTheInvariant). A statement that reads a buffer's element
(`byteAt`, `bitAt` and what is made of them) holds of an element nothing has written since reset for whatever free value it
has: log 3 (DESIGN CHOICE; R341 also allows a fault or a refusal there). -/

namespace Sys2Proof.Machine

/-! ### Words the statements share -/

/-- "GFVALID: 1 when EXP and LOG hold the tables" (R23): part `tables` of the invariant. -/
def TablesSound (s : State) : Prop := s.gfvalid = true → TablesBuilt s.mem

/-- What `ensure_gf()` makes of the tables between s and t (R123): they are built in t, and if they were in s nothing of
them has changed; LOG[0] is never touched (R31). -/
def TablesReady (s t : State) : Prop :=
  t.gfvalid = true ∧ TablesBuilt t.mem ∧
  (s.gfvalid = true → ∀ a, inExp a = true ∨ inLog a = true → t.byteAt a = s.byteAt a) ∧
  t.byteAt (logAddr 0) = s.byteAt (logAddr 0)

/-- A word no row of R93 matches, by R94's list of opcodes and R90's reserved bits. -/
def IllegalWord (w : Word) : Prop :=
  let op := w.toNat / 2 ^ 24
  let rest := w.toNat % 2 ^ 24
  op > 0x10 ∨
  (op ∈ [0x00, 0x01, 0x05, 0x06, 0x07, 0x08, 0x0B, 0x0C, 0x0D, 0x0E, 0x10] ∧ rest ≠ 0) ∨
  (op ∈ [0x03, 0x04, 0x09] ∧ rest / 2 ^ 8 ≠ 0) ∨
  (op ∈ [0x02, 0x0A] ∧ rest / 2 ^ 16 ≠ 0)

/-- The addresses R63's table does not list. -/
def Unmapped (a : Nat) : Prop :=
  (0x0010 ≤ a ∧ a ≤ 0x00FF) ∨ (0x0540 ≤ a ∧ a ≤ 0x05FF) ∨ (0x0700 ≤ a ∧ a ≤ 0x07FF) ∨ (0x0C00 ≤ a ∧ a ≤ 0x0FFF)

/-- The addresses of STATUS, N, GDEG, RESULT, SURFW, SURFH, CELLSZ, OFFX, OFFY, ERRINFO, EXP, LOG, GEN, PAR and M (R303). -/
def ReadOnly (a : Nat) : Prop :=
  a = 0x1 ∨ a = 0x4 ∨ (0x8 ≤ a ∧ a ≤ 0xF) ∨ (0x0200 ≤ a ∧ a ≤ 0x053F) ∨ (0x1000 ≤ a ∧ a ≤ 0x1FFF)

/-- The number of a fault in STATUS.ERR (R300). -/
def faultNumber : Option Fault → Nat
  | none => 0
  | some .payloadTooLong => 1
  | some .illegalCmd => 2
  | some .illegalOperand => 3
  | some .badAccess => 4

/-- A host read of address a returns w and changes nothing. -/
def ReadGives (s : State) (a : Addr) (w : Word) : Prop :=
  step (s.offering (.read a)) = .next { s with rdata := w }

/-- R302's list: an operand is outside the command's domain. -/
def OperandIllegal (i : Instr) (s : State) : Prop :=
  match i with
  | .rsgen degree => degree > 30
  | .rsenc eccount => eccount = 0 ∨ eccount > 30
  | .pack => s.ver.toNat = 0 ∨ s.ver.toNat > 5
  | .b2b => s.bitlen.toNat > 1024 ∨ s.bitlen.toNat % 8 ≠ 0
  | .xbits => s.eclen.toNat > 30 ∨ s.dlen.toNat + s.eclen.toNat > 128
  | .mnew n => n = 0 ∨ n > 37
  | .sstamp => s.ver.toNat = 0 ∨ s.ver.toNat > 5 ∨ s.n.toNat ≠ 17 + 4 * s.ver.toNat
  | .place => s.n.toNat ∉ [21, 25, 29, 33, 37] ∨ s.bitlen.toNat > 1024
  | .draw _ _ => s.n.toNat = 0
  | .nop | .gfinit | .gfmul _ _ | .vsel | .fstamp _ _ | .mask | .encode | .clrerr => False

end Sys2Proof.Machine

open Sys2Proof Sys2Proof.Machine Host

/-! ### Encoding -/

/-- Every well-formed command survives encoding and decoding, with every operand. -/
def Obligations.DecodeOfEncodeIsTheCommand : Prop :=
  ∀ i : Instr, i.wellFormed = true → decode (encode i) = .command i

/-- Every word that decodes is the encoding of its command: no bit of a word is dropped, no two words share a command. -/
def Obligations.EncodeOfDecodeIsTheWord : Prop :=
  ∀ (w : Word) (i : Instr), decode w = .command i → i.wellFormed = true ∧ encode i = w

/-- R91, with the word formulas of the command rules: the operands a word carries, by arithmetic on the word's value. -/
def Obligations.OperandsAreAssembledByFormula : Prop :=
  (∀ a b, a < 256 → b < 256 →
    decode (BitVec.ofNat 32 (0x02000000 + 256 * a + b)) = .command (.gfmul (BitVec.ofNat 8 a) (BitVec.ofNat 8 b))) ∧
  (∀ a, a < 256 →
    decode (BitVec.ofNat 32 (0x03000000 + a)) = .command (.rsgen a) ∧
    decode (BitVec.ofNat 32 (0x04000000 + a)) = .command (.rsenc a) ∧
    decode (BitVec.ofNat 32 (0x09000000 + a)) = .command (.mnew a)) ∧
  (∀ row col : Int, -128 ≤ row → row ≤ 127 → -128 ≤ col → col ≤ 127 →
    decode (BitVec.ofNat 32 (0x0A000000 + 256 * (row % 256).toNat + (col % 256).toNat)) = .command (.fstamp row col)) ∧
  (∀ w h, w < 4096 → h < 4096 →
    decode (BitVec.ofNat 32 (0x0F000000 + 4096 * w + h)) = .command (.draw w h))

/-- Words of the table of R93 and the examples of R95, one or more of each family, decode to the commands they stand for. -/
def Obligations.SpecWordsDecode : Prop :=
  decode 0x00000000 = .command .nop ∧ decode 0x01000000 = .command .gfinit ∧
  decode 0x02008002 = .command (.gfmul 0x80 2) ∧ decode 0x03000007 = .command (.rsgen 7) ∧
  decode 0x0400000A = .command (.rsenc 10) ∧ decode 0x05000000 = .command .vsel ∧
  decode 0x06000000 = .command .pack ∧ decode 0x07000000 = .command .b2b ∧
  decode 0x08000000 = .command .xbits ∧ decode 0x09000015 = .command (.mnew 21) ∧
  decode 0x0A00FE04 = .command (.fstamp (-2) 4) ∧ decode 0x0B000000 = .command .sstamp ∧
  decode 0x0C000000 = .command .place ∧ decode 0x0D000000 = .command .mask ∧
  decode 0x0E000000 = .command .encode ∧ decode 0x0F064050 = .command (.draw 100 80) ∧
  decode 0x10000000 = .command .clrerr

/-- R94, R306: the illegal words are those of R94's list, each latches ILLEGAL_CMD with the word and changes nothing else;
R94's example RSGEN 31 is not illegal and raises ILLEGAL_OPERAND (the general rule, R302: IllegalOperandInExactlyItsCases). -/
def Obligations.IllegalWordsLatchIllegalCmd : Prop :=
  ∀ (s : State) (w : Word), s.err = none →
    ((∀ i, decode w ≠ .command i) ↔ IllegalWord w) ∧
    (IllegalWord w →
      step (s.offering (.write 0x0000 w)) = .next { s with err := some .illegalCmd, errinfo := w }) ∧
    step (s.offering (.write 0x0000 0x0300001F)) =
      .next { s with err := some .illegalOperand, errinfo := 0x0300001F }

/-! ### The host port -/

/-- R92: what the write of a word to CMD does, in its order. -/
def Obligations.CommandWriteFollowsTheDispatchRule : Prop :=
  ∀ (s : State) (w : Word),
    (s.err ≠ none → w = 0x10000000 → step (s.offering (.write 0x0000 w)) = exec .clrerr s) ∧
    (s.err ≠ none → w ≠ 0x10000000 → step (s.offering (.write 0x0000 w)) = .next s) ∧
    (∀ r ∈ opcodeTable, ∀ r' ∈ opcodeTable, w &&& r.mask = r.pattern → w &&& r'.mask = r'.pattern →
      r.mnemonic = r'.mnemonic) ∧
    (s.err = none → (∀ r ∈ opcodeTable, w &&& r.mask ≠ r.pattern) →
      step (s.offering (.write 0x0000 w)) = .next { s with err := some .illegalCmd, errinfo := w }) ∧
    (s.err = none → ∀ r ∈ opcodeTable, w &&& r.mask = r.pattern →
      step (s.offering (.write 0x0000 w)) = exec (r.build w) s)

/-- A step runs the decoded command: when the host's next event is the write to CMD of a word that decodes to i and no fault
is latched, the step is exec of i in the state without that event. `withFetchWord` makes a word that event (log 1). -/
def Obligations.StepRunsTheDecodedCommand : Prop :=
  ∀ (s : State) (w : Word) (i : Instr), s.err = none → decode w = .command i →
    step (s.offering (.write 0x0000 w)) = exec i s ∧ step (s.withFetchWord 32 w.toNat) = exec i s

/-- R305: while a fault is latched every write but CLRERR's word to CMD is discarded, reads work and never fault, an unmapped
read returns 0, and a read of EXP or LOG still builds the tables. -/
def Obligations.LatchedFaultBlocksTheBlock : Prop :=
  ∀ s : State, s.err ≠ none →
    (∀ (a : Addr) (v : Word), ¬(a = 0x0000 ∧ v = 0x10000000) → step (s.offering (.write a v)) = .next s) ∧
    (∀ a : Addr, ∃ t, step (s.offering (.read a)) = .next t ∧ t.err = s.err ∧ t.errinfo = s.errinfo ∧
      (Unmapped a.toNat → t = { s with rdata := 0 }) ∧
      (0x0200 ≤ a.toNat → a.toNat ≤ 0x04FF → t = { ensureGf s with rdata := t.rdata } ∧ t.gfvalid = true))

/-- R22's and R23's layout, as the host reads it: every register's field in the low bits, all other bits 0. -/
def Obligations.RegistersReadAsTheirFields : Prop :=
  ∀ s : State,
    ReadGives s 0x0 0 ∧
    ReadGives s 0x1 (BitVec.ofNat 32 (256 * faultNumber s.err + 2 * s.unres.toNat + s.gfvalid.toNat)) ∧
    ReadGives s 0x2 (BitVec.ofNat 32 s.plen.toNat) ∧
    ReadGives s 0x3 (BitVec.ofNat 32 s.ver.toNat) ∧
    ReadGives s 0x4 (BitVec.ofNat 32 s.n.toNat) ∧
    ReadGives s 0x5 (BitVec.ofNat 32 s.bitlen.toNat) ∧
    ReadGives s 0x6 (BitVec.ofNat 32 s.dlen.toNat) ∧
    ReadGives s 0x7 (BitVec.ofNat 32 s.eclen.toNat) ∧
    ReadGives s 0x8 (BitVec.ofNat 32 s.gdeg.toNat) ∧
    ReadGives s 0x9 (BitVec.ofNat 32 s.result.toNat) ∧
    ReadGives s 0xA (BitVec.ofNat 32 s.surfw.toNat) ∧
    ReadGives s 0xB (BitVec.ofNat 32 s.surfh.toNat) ∧
    ReadGives s 0xC (BitVec.ofNat 32 s.cellsz.toNat) ∧
    ReadGives s 0xD s.offx ∧
    ReadGives s 0xE s.offy ∧
    ReadGives s 0xF s.errinfo

/-- R62, R63, R64 (a): the elements of PAYLOAD, GEN, PAR, CW and BITS, each at its word address, zero-extended. Of
an element nothing has written since reset this holds because the model gives it a free value: log 3 (DESIGN CHOICE; R341
also allows a fault or a refusal of the read). -/
def Obligations.BuffersReadAsTheirElements : Prop :=
  ∀ (s : State) (i : Nat),
    (i < 256 → ReadGives s (BitVec.ofNat 13 (0x0100 + i)) (BitVec.ofNat 32 (s.byteAt (payloadAddr i)).toNat)) ∧
    (i < 32 → ReadGives s (BitVec.ofNat 13 (0x0500 + i)) (BitVec.ofNat 32 (s.byteAt (genAddr i)).toNat)) ∧
    (i < 32 → ReadGives s (BitVec.ofNat 13 (0x0520 + i)) (BitVec.ofNat 32 (s.byteAt (parAddr i)).toNat)) ∧
    (i < 256 → ReadGives s (BitVec.ofNat 13 (0x0600 + i)) (BitVec.ofNat 32 (s.byteAt (cwAddr i)).toNat)) ∧
    (i < 1024 → ReadGives s (BitVec.ofNat 13 (0x0800 + i)) (BitVec.ofNat 32 (s.bitAt i).toNat))

/-- R37, R64 (b): a matrix word reads 0, 2 or 3 for U, L or D, and 0 where no cell exists; bit 1 is "resolved", bit 0 is
"dark". -/
def Obligations.MatrixReadsAsCellCodes : Prop :=
  ∀ (s : State) (r c : Nat), r < 64 → c < 64 →
    ∃ code : Nat, ReadGives s (BitVec.ofNat 13 (0x1000 + 64 * r + c)) (BitVec.ofNat 32 code) ∧
      (code = 0 ∨ code = 2 ∨ code = 3) ∧
      (r < s.n.toNat ∧ c < s.n.toNat →
        (s.cell r c = .unresolved ↔ code = 0) ∧ (s.cell r c = .light ↔ code = 2) ∧ (s.cell r c = .dark ↔ code = 3) ∧
        (code.testBit 1 = true ↔ s.cell r c ≠ .unresolved) ∧ (code.testBit 0 = true ↔ s.cell r c = .dark)) ∧
      (¬(r < s.n.toNat ∧ c < s.n.toNat) → code = 0)

/-- R121, R64 (c): a read of EXP[i] returns `2^(i mod 255)`, a read of LOG[2^i] returns i, a read of LOG[0] returns 0. -/
def Obligations.TablesReadAsPowersAndLogarithms : Prop :=
  ∀ s : State, TablesSound s →
    (∀ i, i < 512 → ∃ t, step (s.offering (.read (BitVec.ofNat 13 (0x0200 + i)))) = .next t ∧
      t.rdata = BitVec.ofNat 32 (gfPow (i % 255)).toNat ∧
      t = { s with mem := t.mem, gfvalid := true, rdata := t.rdata } ∧ TablesReady s t ∧
      ∀ a, inExp a = false → inLog a = false → t.byteAt a = s.byteAt a) ∧
    (∀ i, i < 255 → ∃ t, step (s.offering (.read (BitVec.ofNat 13 (0x0400 + (gfPow i).toNat)))) = .next t ∧
      t.rdata = BitVec.ofNat 32 i ∧
      t = { s with mem := t.mem, gfvalid := true, rdata := t.rdata } ∧ TablesReady s t ∧
      ∀ a, inExp a = false → inLog a = false → t.byteAt a = s.byteAt a) ∧
    (∃ t, step (s.offering (.read 0x0400)) = .next t ∧ t.rdata = 0)

/-- R65: a read of an EXP or LOG word first runs `ensure_gf()`; every other mapped read changes nothing; a location read again
answers the same and the second read changes nothing. -/
def Obligations.OnlyTableReadsHaveAnEffect : Prop :=
  ∀ (s : State) (a : Addr), ∃ t, step (s.offering (.read a)) = .next t ∧
    (0x0200 ≤ a.toNat ∧ a.toNat ≤ 0x04FF → t = { ensureGf s with rdata := t.rdata }) ∧
    (¬(0x0200 ≤ a.toNat ∧ a.toNat ≤ 0x04FF) → ¬Unmapped a.toNat → t = { s with rdata := t.rdata }) ∧
    (¬Unmapped a.toNat → step (t.offering (.read a)) = .next t)

/-- R303: a read or write of an unmapped word address, and a write of a read-only location, latch BAD_ACCESS with the word
address and have no other effect; a faulting read returns 0. -/
def Obligations.BadAccessesLatchBadAccess : Prop :=
  ∀ (s : State) (a : Addr) (v : Word), s.err = none →
    (Unmapped a.toNat → step (s.offering (.read a)) =
      .next { s with rdata := 0, err := some .badAccess, errinfo := BitVec.ofNat 32 a.toNat }) ∧
    (Unmapped a.toNat ∨ ReadOnly a.toNat → step (s.offering (.write a v)) =
      .next { s with err := some .badAccess, errinfo := BitVec.ofNat 32 a.toNat })

/-- R22, R62, R64 (e): a host write to a read-write register or element stores the low bits of the word, whatever they are,
and changes nothing else. -/
def Obligations.HostWritesStoreTheLowBits : Prop :=
  ∀ (s : State) (v : Word), s.err = none →
    step (s.offering (.write 0x2 v)) = .next { s with plen := BitVec.ofNat 8 v.toNat } ∧
    step (s.offering (.write 0x3 v)) = .next { s with ver := BitVec.ofNat 3 v.toNat } ∧
    step (s.offering (.write 0x5 v)) = .next { s with bitlen := BitVec.ofNat 11 v.toNat } ∧
    step (s.offering (.write 0x6 v)) = .next { s with dlen := BitVec.ofNat 8 v.toNat } ∧
    step (s.offering (.write 0x7 v)) = .next { s with eclen := BitVec.ofNat 5 v.toNat } ∧
    (∀ i, i < 256 → ∃ t, step (s.offering (.write (BitVec.ofNat 13 (0x0100 + i)) v)) = .next t ∧
      t = { s with mem := t.mem } ∧ t.byteAt (payloadAddr i) = BitVec.ofNat 8 v.toNat ∧
      ∀ a, a ≠ payloadAddr i → t.byteAt a = s.byteAt a) ∧
    (∀ i, i < 256 → ∃ t, step (s.offering (.write (BitVec.ofNat 13 (0x0600 + i)) v)) = .next t ∧
      t = { s with mem := t.mem } ∧ t.byteAt (cwAddr i) = BitVec.ofNat 8 v.toNat ∧
      ∀ a, a ≠ cwAddr i → t.byteAt a = s.byteAt a) ∧
    (∀ i, i < 1024 → ∃ t, step (s.offering (.write (BitVec.ofNat 13 (0x0800 + i)) v)) = .next t ∧
      t = { s with mem := t.mem } ∧ t.byteAt (bitsAddr i) = BitVec.ofNat 8 (v.toNat % 2) ∧
      ∀ a, a ≠ bitsAddr i → t.byteAt a = s.byteAt a)

/-- R341: what reset leaves, by the table of reset values: after a reset event in any state, and in `State.reset`. No buffer
element but LOG[0] holds a value. -/
def Obligations.ResetLeavesTheResetValues : Prop :=
  ∀ s : State, ∃ t, step (s.offering .reset) = .next t ∧ t.surf = s.surf ∧ t.cfg = s.cfg ∧
    ∀ u ∈ [t, State.reset],
      u.gfvalid = false ∧ u.unres = false ∧ u.err = none ∧ u.errinfo = 0 ∧
      u.plen = 0 ∧ u.ver = 0 ∧ u.bitlen = 0 ∧ u.dlen = 0 ∧ u.eclen = 0 ∧ u.n = 0 ∧ u.gdeg = 0 ∧ u.result = 0 ∧
      u.surfw = 0 ∧ u.surfh = 0 ∧ u.cellsz = 0 ∧ u.offx = 0 ∧ u.offy = 0 ∧
      ReadGives u 0x0000 0 ∧ memRead u.mem (logAddr 0) = some 0 ∧
      (∀ a, a ≠ logAddr 0 → memRead u.mem a = none) ∧
      (∀ a : Addr, 0x1000 ≤ a.toNat → ReadGives u a 0)

/-- R60, R70: the events at the port take effect in the order issued, one a step; with none pending a step changes nothing
(the idle step is the model's, log 1). -/
def Obligations.EventsTakeEffectInIssueOrder : Prop :=
  ∀ s : State, (s.pending = [] → step s = .next s) ∧
    ∀ (e : PortEvent) (rest : List PortEvent), s.pending = e :: rest →
      ∃ t, step s = .next t ∧ t.pending = rest ∧ step s = portEvent e { s with pending := rest }

/-- No step of the machine stops. This is the MODEL'S CHOICE, no rule of the spec's own: log 8 (DEDUCED from R304: a latched
fault is a next state, so every refusal the spec names is a state the machine goes on from), log 3 (DESIGN CHOICE: an element
nothing has written reads as a free value, where R341 also allows a fault or a refusal of the read) and log 1 (the idle step,
with no event pending, answers the same state). -/
def Obligations.EveryStepAnswersANextState : Prop := ∀ s : State, ∃ t, step s = .next t

/-! ### The invariant -/

/-- The invariant holds after power up, with any configuration. -/
def Obligations.ResetSatisfiesTheInvariant : Prop :=
  ∀ cfg : Config, State.Inv { State.reset with cfg := cfg }

/-- Every step from every state that satisfies the invariant keeps it. -/
def Obligations.EveryStepKeepsTheInvariant : Prop :=
  ∀ s t : State, s.Inv → step s = .next t → t.Inv

/-- Every state a host can reach satisfies the invariant. -/
def Obligations.ReachableStatesSatisfyTheInvariant : Prop := ∀ s : State, Reachable s → s.Inv

/-! ### Rules about the whole machine -/

/-- R305, R308: a latched fault is never overwritten and never lost: a step keeps it and its information unless the event is
CLRERR's word written to CMD, or a reset. -/
def Obligations.LatchedFaultIsNeverLost : Prop :=
  ∀ (s t : State) (f : Fault), s.err = some f → step s = .next t →
    (t.err = some f ∧ t.errinfo = s.errinfo) ∨
    ((s.pending.head? = some (.write 0x0000 0x10000000) ∨ s.pending.head? = some .reset) ∧ t.err = none ∧ t.errinfo = 0)

/-- R31, R23: "Once built the tables never change", and GFVALID is cleared by reset only. -/
def Obligations.BuiltTablesNeverChange : Prop :=
  ∀ s t : State, s.gfvalid = true → step s = .next t → s.pending.head? ≠ some .reset →
    t.gfvalid = true ∧ ∀ a, inExp a = true ∨ inLog a = true → t.byteAt a = s.byteAt a

/-- Which commands write what: R22's and R23's "written by" and "set by" columns and the written-by sentences of R30 to R36
and R38, read as limits. PLEN, PAYLOAD, the configuration, the host's events and its read result are written by no command.
Each register, UNRES, GFVALID, the matrix and the surface change only under the commands named for them. STATUS.ERR and
ERRINFO change only under a command that raises a fault, ERRINFO then being its word, or under CLRERR. An element at a word
address changes only in EXP or LOG (LOG[0] excepted) under a command that builds the tables, in GEN under RSGEN, RSENC and
ENCODE, in PAR under RSENC and ENCODE, in CW under B2B and ENCODE, in BITS under PACK, XBITS and ENCODE. The host's own writes
are no command; they are in HostWritesStoreTheLowBits. -/
def Obligations.CommandsWriteOnlyTheirOwnRegisters : Prop :=
  ∀ (i : Instr) (s t : State), exec i s = .next t →
    t.cfg = s.cfg ∧ t.plen = s.plen ∧ t.pending = s.pending ∧ t.rdata = s.rdata ∧ t.resetCount = s.resetCount ∧
    (∀ k, k < 256 → t.byteAt (payloadAddr k) = s.byteAt (payloadAddr k)) ∧
    (∀ a, t.byteAt a ≠ s.byteAt a →
      ((inExp a = true ∨ inLog a = true ∧ a ≠ logAddr 0) ∧
        (i = .gfinit ∨ (∃ x y, i = .gfmul x y) ∨ (∃ k, i = .rsgen k) ∨ (∃ k, i = .rsenc k) ∨ i = .encode)) ∨
      (inGen a = true ∧ ((∃ k, i = .rsgen k) ∨ (∃ k, i = .rsenc k) ∨ i = .encode)) ∨
      (inPar a = true ∧ ((∃ k, i = .rsenc k) ∨ i = .encode)) ∨
      (inCw a = true ∧ (i = .b2b ∨ i = .encode)) ∨
      (inBits a = true ∧ (i = .pack ∨ i = .xbits ∨ i = .encode))) ∧
    (t.err ≠ s.err ∨ t.errinfo ≠ s.errinfo →
      (t.err ≠ none ∧ t.errinfo = encode i ∧
        ((∃ k, i = .rsgen k) ∨ (∃ k, i = .rsenc k) ∨ i = .pack ∨ i = .b2b ∨ i = .xbits ∨ (∃ k, i = .mnew k) ∨
          i = .sstamp ∨ i = .place ∨ (∃ w h, i = .draw w h) ∨ i = .encode)) ∨
      (t.err = none ∧ t.errinfo = 0 ∧ i = .clrerr)) ∧
    (t.ver ≠ s.ver → i = .vsel ∨ i = .encode) ∧
    (t.n ≠ s.n → (∃ k, i = .mnew k) ∨ i = .encode) ∧
    (t.bitlen ≠ s.bitlen → i = .pack ∨ i = .xbits ∨ i = .encode) ∧
    (t.dlen ≠ s.dlen → i = .b2b ∨ i = .encode) ∧
    (t.eclen ≠ s.eclen → (∃ k, i = .rsenc k) ∨ i = .encode) ∧
    (t.gdeg ≠ s.gdeg → (∃ k, i = .rsgen k) ∨ (∃ k, i = .rsenc k) ∨ i = .encode) ∧
    (t.result ≠ s.result → (∃ a b, i = .gfmul a b) ∨ i = .vsel ∨ i = .encode) ∧
    (t.unres ≠ s.unres → i = .mask ∨ i = .encode) ∧
    (t.gfvalid ≠ s.gfvalid →
      i = .gfinit ∨ (∃ a b, i = .gfmul a b) ∨ (∃ k, i = .rsgen k) ∨ (∃ k, i = .rsenc k) ∨ i = .encode) ∧
    (t.matrix ≠ s.matrix → (∃ k, i = .mnew k) ∨ (∃ r c, i = .fstamp r c) ∨ i = .sstamp ∨ i = .place ∨ i = .mask ∨
      i = .encode) ∧
    (t.surf ≠ s.surf ∨ t.surfw ≠ s.surfw ∨ t.surfh ≠ s.surfh ∨ t.cellsz ≠ s.cellsz ∨ t.offx ≠ s.offx ∨ t.offy ≠ s.offy →
      ∃ w h, i = .draw w h)

/-- R20: the configuration never changes. -/
def Obligations.ConfigurationNeverChanges : Prop := ∀ s t : State, step s = .next t → t.cfg = s.cfg

/-- R304, R242: faults are precise: when a word written to CMD raises a fault, ERRINFO is that word and the state is that
before the command, but for ENCODE's documented effects. -/
def Obligations.FaultsArePrecise : Prop :=
  ∀ (s t : State) (w : Word), s.err = none → step (s.offering (.write 0x0000 w)) = .next t → t.err ≠ none →
    t.errinfo = w ∧ (w ≠ 0x0E000000 → t = { s with err := t.err, errinfo := w }) ∧
    (w = 0x0E000000 → t = { s with err := some .payloadTooLong, errinfo := w,
                                   ver := 5, result := 5, n := 37, matrix := newMatrix })

/-- R302: ILLEGAL_OPERAND is raised in exactly the cases listed, before the command writes any state. -/
def Obligations.IllegalOperandInExactlyItsCases : Prop :=
  ∀ (i : Instr) (s : State), s.err = none →
    ∃ t, exec i s = .next t ∧ (t.err = some .illegalOperand ↔ OperandIllegal i s) ∧
      (OperandIllegal i s → t = { s with err := some .illegalOperand, errinfo := encode i })

/-- R301: PAYLOAD_TOO_LONG is raised by PACK when PLEN > CAP(VER) with VER in 1..5, by ENCODE when PLEN > 84, and in no other
case; ERRINFO is the command word and PLEN is unchanged. -/
def Obligations.PayloadTooLongInExactlyItsCases : Prop :=
  ∀ (i : Instr) (s : State), s.err = none →
    ∃ t, exec i s = .next t ∧
      (t.err = some .payloadTooLong ↔
        (i = .pack ∧ 1 ≤ s.ver.toNat ∧ s.ver.toNat ≤ 5 ∧ s.plen.toNat > cap s.ver.toNat) ∨
        (i = .encode ∧ s.plen.toNat > 84)) ∧
      (t.err = some .payloadTooLong → t.plen = s.plen ∧
        t.errinfo = if i = .pack then 0x06000000 else 0x0E000000)

/-! ### GF(256): GFINIT, GFMUL -/

/-- R121, R122: GFINIT builds the tables of R121 (only if they are not built) and changes nothing else. -/
def Obligations.GfinitBuildsTheTables : Prop :=
  decode 0x01000000 = .command .gfinit ∧
  (∀ s : State, TablesSound s → ∃ t, exec .gfinit s = .next t ∧ t = { s with mem := t.mem, gfvalid := true } ∧
    (s.gfvalid = true → t = s) ∧
    (∀ i, i < 512 → t.byteAt (expAddr i) = gfPow (i % 255)) ∧
    (∀ i, i < 255 → t.byteAt (logAddr (gfPow i).toNat) = BitVec.ofNat 8 i) ∧
    t.byteAt (logAddr 0) = s.byteAt (logAddr 0) ∧
    ∀ a, inExp a = false → inLog a = false → t.byteAt a = s.byteAt a) ∧
  (gfPow 0 = 1 ∧ gfPow 255 = 1 ∧ gfPow 510 = 1) ∧ (∀ i, i < 255 → gfPow i ≠ 0) ∧
  (∀ i j, i < 255 → j < 255 → gfPow i = gfPow j → i = j) ∧ (∀ x : Byte, x ≠ 0 → ∃ i, i < 255 ∧ gfPow i = x)

/-- R124, R125: GFMUL a, b sets RESULT to 0 if a factor is 0 and else to the power whose exponent is the sum of the factors'
logarithms; nothing else changes but the tables on first use. -/
def Obligations.GfmulAddsLogarithms : Prop :=
  ∀ (s : State) (a b : Byte), TablesSound s →
    decode (BitVec.ofNat 32 (0x02000000 + 256 * a.toNat + b.toNat)) = .command (.gfmul a b) ∧
    ∃ t, exec (.gfmul a b) s = .next t ∧
      t = { s with mem := t.mem, gfvalid := true, result := t.result } ∧
      (a = 0 ∨ b = 0 → t.result = 0) ∧
      (∀ i j, i < 255 → j < 255 → a = gfPow i → b = gfPow j → t.result = gfPow (i + j)) ∧
      TablesReady s t ∧
      ∀ x, inExp x = false → inLog x = false → t.byteAt x = s.byteAt x

/-- R126: the laws of GFMUL, as what it leaves in RESULT: zero, commutative, one, associative, distributive over XOR, inverse. -/
def Obligations.GfmulObeysTheFieldLaws : Prop :=
  ∀ s : State, TablesSound s → ∃ mul : Byte → Byte → Byte,
    (∀ a b, exec (.gfmul a b) s = .next { ensureGf s with result := mul a b }) ∧
    (∀ a b, mul a 0 = 0 ∧ mul 0 b = 0) ∧
    (∀ a b, mul a b = mul b a) ∧
    (∀ a, mul 1 a = a) ∧
    (∀ a b c, mul (mul a b) c = mul a (mul b c)) ∧
    (∀ a b c, mul a (b ^^^ c) = mul a b ^^^ mul a c) ∧
    (∀ i, i < 255 → mul (gfPow i) (gfPow (255 - i)) = 1)

/-- R6, R120, R124: the multiplier by tables computes the product of polynomials modulo x^8+x^4+x^3+x^2+1, bit by bit. -/
def Obligations.GfmulIsPolynomialMultiplication : Prop :=
  ∀ (s : State) (a b : Byte), TablesSound s →
    exec (.gfmul a b) s = .next { ensureGf s with result := gfTimes a b }

/-! ### Reed-Solomon: RSGEN, RSENC -/

/-- R141: RSGEN degree stores the generator polynomial of that degree in GEN and the degree in GDEG, or raises ILLEGAL_OPERAND
for a degree of 31 to 255. -/
def Obligations.RsgenStoresTheGenerator : Prop :=
  ∀ (s : State) (d : Nat), TablesSound s → d < 256 →
    decode (BitVec.ofNat 32 (0x03000000 + d)) = .command (.rsgen d) ∧
    (30 < d → exec (.rsgen d) s =
      .next { s with err := some .illegalOperand, errinfo := BitVec.ofNat 32 (0x03000000 + d) }) ∧
    (d ≤ 30 → ∃ t, exec (.rsgen d) s = .next t ∧
      t = { s with mem := t.mem, gfvalid := true, gdeg := BitVec.ofNat 5 d } ∧
      (∀ j, j ≤ d → t.byteAt (genAddr j) = (rootPoly d).getD j 0) ∧ TablesReady s t ∧
      ∀ a, ¬(genAddr 0 ≤ a ∧ a ≤ genAddr d) → inExp a = false → inLog a = false → t.byteAt a = s.byteAt a)

/-- R140: the polynomial in GEN[0..GDEG] after RSGEN has leading coefficient 1, and its value at every x is the product of the
factors `x - 2^i`, i below the degree; so it vanishes at each of them. -/
def Obligations.GeneratorIsTheProductOfItsFactors : Prop :=
  ∀ (s : State) (d : Nat), TablesSound s → d ≤ 30 →
    ∃ t, exec (.rsgen d) s = .next t ∧ t.byteAt (genAddr 0) = 1 ∧
      ∀ x : Byte,
        polyEval (t.bytesAt (genAddr 0) (d + 1)) x =
          (List.range d).foldl (fun acc i => gfTimes acc (x ^^^ gfPow i)) 1 ∧
        (∀ i, i < d → polyEval (t.bytesAt (genAddr 0) (d + 1)) (gfPow i) = 0)

/-- R143: RSENC eccount stores the generator in GEN and GDEG and, in PAR, the parity of CW[0..DLEN-1]: the eccount bytes that
make data followed by parity a multiple of the generator; or raises ILLEGAL_OPERAND for 0 and for 31 to 255. -/
def Obligations.RsencStoresTheParity : Prop :=
  ∀ (s : State) (ec : Nat), TablesSound s → ec < 256 →
    decode (BitVec.ofNat 32 (0x04000000 + ec)) = .command (.rsenc ec) ∧
    (ec = 0 ∨ 30 < ec → exec (.rsenc ec) s =
      .next { s with err := some .illegalOperand, errinfo := BitVec.ofNat 32 (0x04000000 + ec) }) ∧
    (1 ≤ ec → ec ≤ 30 → ∃ t, exec (.rsenc ec) s = .next t ∧
      t = { s with mem := t.mem, gfvalid := true, gdeg := BitVec.ofNat 5 ec, eclen := BitVec.ofNat 5 ec } ∧
      (∀ j, j ≤ ec → t.byteAt (genAddr j) = (rootPoly ec).getD j 0) ∧
      (∃ q : List Byte, q.length = s.dlen.toNat ∧
        polyTimes q (rootPoly ec) = s.dataCodewords ++ t.bytesAt (parAddr 0) ec) ∧
      TablesReady s t ∧
      ∀ a, ¬(genAddr 0 ≤ a ∧ a ≤ genAddr ec) → ¬(parAddr 0 ≤ a ∧ a < parAddr ec) → inExp a = false → inLog a = false →
        t.byteAt a = s.byteAt a)

/-- R144: after RSENC the codeword CW[0..DLEN-1] ++ PAR[0..ECLEN-1], read highest degree first, evaluates to 0 at 2^0, ...,
2^(ECLEN-1); it is a multiple of the generator; with no data the parity is all zeros. -/
def Obligations.CodewordVanishesAtTheRoots : Prop :=
  ∀ (s : State) (ec : Nat), TablesSound s → 1 ≤ ec → ec ≤ 30 →
    ∃ t, exec (.rsenc ec) s = .next t ∧ t.eclen.toNat = ec ∧ t.parityCodewords.length = ec ∧
      (∃ q : List Byte, q.length = t.dlen.toNat ∧
        polyTimes q (rootPoly ec) = t.dataCodewords ++ t.parityCodewords) ∧
      (∀ i, i < ec → polyEval (t.dataCodewords ++ t.parityCodewords) (gfPow i) = 0) ∧
      (s.dlen = 0 → t.parityCodewords = List.replicate ec 0)

/-! ### Version selector and bit packer: VSEL, PACK, B2B, XBITS -/

/-- R7, R8: the five versions' sides, capacities and parity counts. -/
def Obligations.VersionParametersAreThoseOfTheSpec : Prop :=
  [1, 2, 3, 4, 5].map side = [21, 25, 29, 33, 37] ∧ [1, 2, 3, 4, 5].map cap = [14, 26, 42, 62, 84] ∧
  [1, 2, 3, 4, 5].map ecCount = [7, 8, 14, 20, 28] ∧ ∀ v, ecCount v = max 7 (min (cap v / 3) 30)

/-- R160, R161: VSEL writes VER and RESULT with the smallest version whose capacity is at least PLEN, or 5 when there is
none, and changes nothing else; it never fails. -/
def Obligations.VselChoosesTheSmallestVersion : Prop :=
  decode 0x05000000 = .command .vsel ∧
  ∀ s : State, ∃ v : Nat, 1 ≤ v ∧ v ≤ 5 ∧ (s.plen.toNat ≤ cap v ∨ s.plen.toNat > 84 ∧ v = 5) ∧
    (∀ u, 1 ≤ u → u < v → cap u < s.plen.toNat) ∧
    exec .vsel s = .next { s with ver := BitVec.ofNat 3 v, result := BitVec.ofNat 8 v }

/-- R169, R170, R172: PACK stores the packed stream, bit by bit as R172 describes it, and its length: 8·CAP bits, or 8 or 16
more for the two longest payloads; or raises ILLEGAL_OPERAND for an illegal version, before PAYLOAD_TOO_LONG. -/
def Obligations.PackStoresThePackedStream : Prop :=
  decode 0x06000000 = .command .pack ∧
  ∀ s : State,
    (s.ver.toNat = 0 ∨ s.ver.toNat > 5 →
      exec .pack s = .next { s with err := some .illegalOperand, errinfo := 0x06000000 }) ∧
    (1 ≤ s.ver.toNat → s.ver.toNat ≤ 5 → s.plen.toNat > cap s.ver.toNat →
      exec .pack s = .next { s with err := some .payloadTooLong, errinfo := 0x06000000 }) ∧
    (1 ≤ s.ver.toNat → s.ver.toNat ≤ 5 → s.plen.toNat ≤ cap s.ver.toNat →
      ∃ t, exec .pack s = .next t ∧ t = { s with mem := t.mem, bitlen := t.bitlen } ∧
        t.bitlen.toNat = max (8 * cap s.ver.toNat) (8 * s.plen.toNat + 16) ∧
        (∀ i, i < t.bitlen.toNat → t.bitAt i = packedBit s.cfg s.payload i) ∧
        ∀ a, ¬(bitsAddr 0 ≤ a ∧ a < bitsAddr t.bitlen.toNat) → t.byteAt a = s.byteAt a)

/-- R172: the length of the packed stream in its three cases, and the stream of the first. -/
def Obligations.PackedStreamHasItsThreeLengths : Prop :=
  ∀ (cfg : Config) (pay : List Byte) (v : Nat), 1 ≤ v → v ≤ 5 → pay.length ≤ cap v →
    ∃ b, packBits cfg pay v = some b ∧
      (pay.length + 2 ≤ cap v → b.length = 8 * cap v ∧
        b = modeBits cfg.modeInd ++ bits8 (BitVec.ofNat 8 pay.length) ++ pay.flatMap bits8 ++
          [false, false, false, false] ++
          (List.range (cap v - pay.length - 2)).flatMap (fun k => bits8 (if k % 2 = 0 then cfg.padA else cfg.padB))) ∧
      (pay.length + 1 = cap v → b.length = 8 * cap v + 8) ∧
      (pay.length = cap v → b.length = 8 * cap v + 16) ∧
      b.length ≤ 688

/-- R174, R175: B2B stores in CW the bytes whose MSB-first bits are BITS[0..BITLEN-1], and their count in DLEN; or raises
ILLEGAL_OPERAND. -/
def Obligations.B2bGroupsBitsIntoBytes : Prop :=
  decode 0x07000000 = .command .b2b ∧
  ∀ s : State,
    (s.bitlen.toNat > 1024 ∨ s.bitlen.toNat % 8 ≠ 0 →
      exec .b2b s = .next { s with err := some .illegalOperand, errinfo := 0x07000000 }) ∧
    (s.bitlen.toNat ≤ 1024 → s.bitlen.toNat % 8 = 0 →
      ∃ t, exec .b2b s = .next t ∧ t = { s with mem := t.mem, dlen := t.dlen } ∧
        t.dlen.toNat = s.bitlen.toNat / 8 ∧
        (∀ i k, i < t.dlen.toNat → k < 8 → (t.byteAt (cwAddr i)).getLsbD (7 - k) = s.bitAt (8 * i + k)) ∧
        ∀ a, ¬(cwAddr 0 ≤ a ∧ a < cwAddr t.dlen.toNat) → t.byteAt a = s.byteAt a)

/-- R178: XBITS stores in BITS the MSB-first bits of CW[0..DLEN-1] followed by PAR[0..ECLEN-1], and their count in BITLEN; or
raises ILLEGAL_OPERAND. -/
def Obligations.XbitsExpandsTheCodewords : Prop :=
  decode 0x08000000 = .command .xbits ∧
  ∀ s : State,
    (s.eclen.toNat > 30 ∨ s.dlen.toNat + s.eclen.toNat > 128 →
      exec .xbits s = .next { s with err := some .illegalOperand, errinfo := 0x08000000 }) ∧
    (s.eclen.toNat ≤ 30 → s.dlen.toNat + s.eclen.toNat ≤ 128 →
      ∃ t, exec .xbits s = .next t ∧ t = { s with mem := t.mem, bitlen := t.bitlen } ∧
        t.bitlen.toNat = 8 * (s.dlen.toNat + s.eclen.toNat) ∧
        (∀ i k, k < 8 → i < s.dlen.toNat + s.eclen.toNat →
          t.bitAt (8 * i + k) =
            (s.byteAt (if i < s.dlen.toNat then cwAddr i else parAddr (i - s.dlen.toNat))).getLsbD (7 - k)) ∧
        ∀ a, ¬(bitsAddr 0 ≤ a ∧ a < bitsAddr t.bitlen.toNat) → t.byteAt a = s.byteAt a)

/-- R177: B2B then XBITS with ECLEN 0 leaves BITLEN and the bits as they were; XBITS with ECLEN 0 then B2B leaves DLEN and the
codewords as they were. -/
def Obligations.BitsAndBytesRoundTrip : Prop :=
  (∀ s : State, s.bitlen.toNat ≤ 1024 → s.bitlen.toNat % 8 = 0 →
    ∃ t u, exec .b2b s = .next t ∧ exec .xbits { t with eclen := 0 } = .next u ∧
      u.bitlen = s.bitlen ∧ ∀ i, i < s.bitlen.toNat → u.bitAt i = s.bitAt i) ∧
  (∀ s : State, s.eclen = 0 → s.dlen.toNat ≤ 128 →
    ∃ t u, exec .xbits s = .next t ∧ exec .b2b t = .next u ∧
      u.dlen = s.dlen ∧ ∀ i, i < s.dlen.toNat → u.byteAt (cwAddr i) = s.byteAt (cwAddr i))

/-! ### Matrix builder: MNEW, FSTAMP, SSTAMP -/

/-- R190, R191: MNEW n sets N and makes every cell unresolved, whatever the matrix held, and changes nothing else; or raises
ILLEGAL_OPERAND for 0 and for 38 to 255. -/
def Obligations.MnewMakesAnUnresolvedMatrix : Prop :=
  ∀ (s : State) (n : Nat), n < 256 →
    decode (BitVec.ofNat 32 (0x09000000 + n)) = .command (.mnew n) ∧
    (n = 0 ∨ 37 < n → exec (.mnew n) s =
      .next { s with err := some .illegalOperand, errinfo := BitVec.ofNat 32 (0x09000000 + n) }) ∧
    (1 ≤ n → n ≤ 37 → ∃ t, exec (.mnew n) s = .next t ∧ t = { s with n := t.n, matrix := t.matrix } ∧
      t.n.toNat = n ∧ ∀ r c, t.cell r c = .unresolved)

/-- R192, R193, R194: FSTAMP row, col writes the motif's cells that fall inside the grid, whatever they held, and no other
cell. -/
def Obligations.FstampStampsTheClippedMotif : Prop :=
  ∀ (s : State) (row col : Int), -128 ≤ row → row ≤ 127 → -128 ≤ col → col ≤ 127 →
    decode (BitVec.ofNat 32 (0x0A000000 + 256 * (row % 256).toNat + (col % 256).toNat)) = .command (.fstamp row col) ∧
    ∃ t, exec (.fstamp row col) s = .next t ∧ t = { s with matrix := t.matrix } ∧
      (∀ dr dc : Nat, dr ≤ 6 → dc ≤ 6 → 0 ≤ row + dr → row + dr < s.n.toNat → 0 ≤ col + dc → col + dc < s.n.toNat →
        t.cell (row + dr).toNat (col + dc).toNat =
          if max ((dr : Int) - 3).natAbs ((dc : Int) - 3).natAbs = 2 then .light else .dark) ∧
      (∀ r c : Nat, c < 64 →
        ¬(r < s.n.toNat ∧ c < s.n.toNat ∧ row ≤ r ∧ r ≤ row + 6 ∧ col ≤ c ∧ c ≤ col + 6) → t.cell r c = s.cell r c)

/-- R195, R196, R197: SSTAMP writes the finder cells whatever they held, fills timing and reservation cells only where
unresolved, leaves every other cell, and a second SSTAMP changes no cell; or raises ILLEGAL_OPERAND. -/
def Obligations.SstampStampsTheFunctionalCells : Prop :=
  decode 0x0B000000 = .command .sstamp ∧
  ∀ s : State,
    (s.ver.toNat = 0 ∨ s.ver.toNat > 5 ∨ s.n.toNat ≠ 17 + 4 * s.ver.toNat →
      exec .sstamp s = .next { s with err := some .illegalOperand, errinfo := 0x0B000000 }) ∧
    (1 ≤ s.ver.toNat → s.ver.toNat ≤ 5 → s.n.toNat = 17 + 4 * s.ver.toNat →
      ∃ t, exec .sstamp s = .next t ∧ t = { s with matrix := t.matrix } ∧
        (∀ r c, r < s.n.toNat → c < s.n.toNat →
          (∀ colour, finderAt s.n.toNat r c = some colour → t.cell r c = colour) ∧
          (finderAt s.n.toNat r c = none → s.cell r c ≠ .unresolved → t.cell r c = s.cell r c) ∧
          (finderAt s.n.toNat r c = none → s.cell r c = .unresolved →
            (∀ i, timingAt s.n.toNat r c = some i →
              t.cell r c = if decide (i % 2 = 0) = s.cfg.timingEvenDark then .dark else .light) ∧
            (timingAt s.n.toNat r c = none → t.cell r c =
              if reservedAt s.n.toNat r c = true then .light else .unresolved))) ∧
        (∀ r c, c < 64 → ¬(r < s.n.toNat ∧ c < s.n.toNat) → t.cell r c = s.cell r c) ∧
        ∃ u, exec .sstamp t = .next u ∧ ∀ r c, r < s.n.toNat → c < s.n.toNat → u.cell r c = t.cell r c)

/-! ### Placer and mask: PLACE, MASK -/

/-- R220, R221: PLACE gives each unresolved cell outside column 6 the bit whose number is how many unresolved cells the zigzag
scan visits before it (0 beyond BITLEN: light), and changes no other cell; or raises ILLEGAL_OPERAND. -/
def Obligations.PlaceFillsTheCellsInScanOrder : Prop :=
  decode 0x0C000000 = .command .place ∧
  ∀ s : State,
    (s.n.toNat ∉ [21, 25, 29, 33, 37] ∨ s.bitlen.toNat > 1024 →
      exec .place s = .next { s with err := some .illegalOperand, errinfo := 0x0C000000 }) ∧
    (s.n.toNat ∈ [21, 25, 29, 33, 37] → s.bitlen.toNat ≤ 1024 →
      ∃ t, exec .place s = .next t ∧ t = { s with matrix := t.matrix } ∧
        ∀ r c, c < 64 →
          (r < s.n.toNat → c < s.n.toNat → c ≠ 6 → s.cell r c = .unresolved →
            ∀ k, k = ((gridCoords s.n.toNat s.n.toNat).filter (fun q => decide (q.2 ≠ 6 ∧
                s.cell q.1 q.2 = .unresolved ∧ scanRank s.n.toNat q < scanRank s.n.toNat (r, c)))).length →
              t.cell r c = if k < s.bitlen.toNat ∧ s.bitAt k = true then .dark else .light) ∧
          (¬(r < s.n.toNat ∧ c < s.n.toNat ∧ c ≠ 6 ∧ s.cell r c = .unresolved) → t.cell r c = s.cell r c))

/-- R231, R232: MASK inverts the resolved cells of even row + column, sets UNRES exactly if some cell is unresolved, and
changes nothing else. -/
def Obligations.MaskInvertsTheEvenCells : Prop :=
  decode 0x0D000000 = .command .mask ∧
  ∀ s : State, ∃ t, exec .mask s = .next t ∧ t = { s with matrix := t.matrix, unres := t.unres } ∧
    (t.unres = true ↔ ∃ r c, r < s.n.toNat ∧ c < s.n.toNat ∧ s.cell r c = .unresolved) ∧
    ∀ r c, c < 64 →
      (r < s.n.toNat → c < s.n.toNat → (r + c) % 2 = 0 →
        (s.cell r c = .dark → t.cell r c = .light) ∧ (s.cell r c = .light → t.cell r c = .dark) ∧
        (s.cell r c = .unresolved → t.cell r c = .unresolved)) ∧
      (¬(r < s.n.toNat ∧ c < s.n.toNat ∧ (r + c) % 2 = 0) → t.cell r c = s.cell r c)

/-- R231: "Applying it twice restores the matrix". -/
def Obligations.MaskTwiceRestoresTheMatrix : Prop :=
  ∀ s : State, ∃ t u, exec .mask s = .next t ∧ exec .mask t = .next u ∧
    u = { s with matrix := u.matrix, unres := t.unres } ∧ ∀ r c, c < 64 → u.cell r c = s.cell r c

/-! ### ENCODE -/

/-- R241: when the payload fits, ENCODE leaves exactly the state that the component commands leave, none of which faults. -/
def Obligations.EncodeIsTheCommandSequence : Prop :=
  ∀ (s : State) (v : Nat), s.plen.toNat ≤ cap v → 1 ≤ v → v ≤ 5 → (∀ u, 1 ≤ u → u < v → cap u < s.plen.toNat) →
    ∃ t, exec .encode s = .next t ∧ t.err = s.err ∧
      runCommands [.vsel, .mnew (17 + 4 * v), .sstamp, .pack, .b2b, .rsenc (ecCount v), .xbits, .place, .mask] s =
        .next t

/-- R242: when PLEN > 84, ENCODE leaves VER = 5, RESULT = 5, N = 37, every cell unresolved and PAYLOAD_TOO_LONG latched with
its word, and nothing else changes. -/
def Obligations.EncodeOfALongPayloadFails : Prop :=
  ∀ s : State, s.plen.toNat > 84 → ∃ t, exec .encode s = .next t ∧
    t = { s with ver := 5, result := 5, n := 37, matrix := t.matrix, err := some .payloadTooLong, errinfo := 0x0E000000 } ∧
    ∀ r c, t.cell r c = .unresolved

/-- R243: after an ENCODE that does not fail, N = 17 + 4·VER, no cell is unresolved, UNRES and ERR are 0, DLEN is CAP(VER), or
1 or 2 more, and every cell code's bit 0 is its colour. -/
def Obligations.EncodeLeavesAResolvedMatrix : Prop :=
  ∀ s : State, s.err = none → s.plen.toNat ≤ 84 → ∃ t, exec .encode s = .next t ∧
    1 ≤ t.ver.toNat ∧ t.ver.toNat ≤ 5 ∧ t.n.toNat = 17 + 4 * t.ver.toNat ∧ s.plen.toNat ≤ cap t.ver.toNat ∧
    (∀ r c, r < t.n.toNat → c < t.n.toNat → t.cell r c ≠ .unresolved ∧
      ∃ code : Nat, ReadGives t (BitVec.ofNat 13 (0x1000 + 64 * r + c)) (BitVec.ofNat 32 code) ∧
        (code.testBit 0 = true ↔ t.cell r c = .dark)) ∧
    t.unres = false ∧ t.err = none ∧
    (s.plen.toNat + 2 ≤ cap t.ver.toNat → t.dlen.toNat = cap t.ver.toNat) ∧
    (s.plen.toNat + 1 = cap t.ver.toNat → t.dlen.toNat = cap t.ver.toNat + 1) ∧
    (s.plen.toNat = cap t.ver.toNat → t.dlen.toNat = cap t.ver.toNat + 2)

/-- R241: what an ENCODE that does not fail writes, and that it writes nothing else: the registers named, BITS[0..BITLEN-1],
CW[0..DLEN-1], GEN[0..GDEG], PAR[0..ECLEN-1], the tables on first use, the matrix. -/
def Obligations.EncodeWritesOnlyItsOwnState : Prop :=
  ∀ s : State, TablesSound s → s.plen.toNat ≤ 84 → ∃ t, exec .encode s = .next t ∧
    t = { s with ver := t.ver, result := t.result, n := t.n, matrix := t.matrix, bitlen := t.bitlen, dlen := t.dlen,
                 eclen := t.eclen, gdeg := t.gdeg, unres := t.unres, gfvalid := true, mem := t.mem } ∧
    t.result.toNat = t.ver.toNat ∧ t.eclen.toNat = ecCount t.ver.toNat ∧ t.gdeg = t.eclen ∧
    t.bitlen.toNat = 8 * (t.dlen.toNat + t.eclen.toNat) ∧ TablesReady s t ∧
    ∀ a, ¬(bitsAddr 0 ≤ a ∧ a < bitsAddr t.bitlen.toNat) → ¬(cwAddr 0 ≤ a ∧ a < cwAddr t.dlen.toNat) →
      ¬(genAddr 0 ≤ a ∧ a ≤ genAddr t.gdeg.toNat) → ¬(parAddr 0 ≤ a ∧ a < parAddr t.eclen.toNat) →
      inExp a = false → inLog a = false → t.byteAt a = s.byteAt a

/-- R241: "its result is a function of (PLEN, PAYLOAD[0..PLEN-1]) and the configuration alone": two states that agree on those
give the same matrix, registers and stored sequences, whatever else they hold. -/
def Obligations.EncodeDependsOnlyOnThePayload : Prop :=
  ∀ s s' : State, TablesSound s → TablesSound s' → s'.cfg = s.cfg → s'.plen = s.plen →
    (∀ i, i < s.plen.toNat → s'.byteAt (payloadAddr i) = s.byteAt (payloadAddr i)) → s.err = none → s'.err = none →
    ∃ t t', exec .encode s = .next t ∧ exec .encode s' = .next t' ∧
      t'.ver = t.ver ∧ t'.result = t.result ∧ t'.n = t.n ∧ t'.matrix = t.matrix ∧ t'.err = t.err ∧
      (s.plen.toNat > 84 → t'.errinfo = t.errinfo) ∧
      (s.plen.toNat ≤ 84 →
        t'.unres = t.unres ∧ t'.bitlen = t.bitlen ∧ t'.dlen = t.dlen ∧ t'.eclen = t.eclen ∧ t'.gdeg = t.gdeg ∧
        t'.bitSequence = t.bitSequence ∧ t'.dataCodewords = t.dataCodewords ∧
        t'.parityCodewords = t.parityCodewords ∧
        t'.bytesAt (genAddr 0) (t.gdeg.toNat + 1) = t.bytesAt (genAddr 0) (t.gdeg.toNat + 1))

/-! ### Rasterizer: DRAW -/

/-- R260 to R263: DRAW w, h writes the five read-back registers, and the pixels of the w by h surface: dark where the pixel
shows a dark cell of the matrix, light elsewhere; it writes no other pixel and nothing else; or raises ILLEGAL_OPERAND. -/
def Obligations.DrawRendersTheMatrix : Prop :=
  ∀ (s : State) (w h : Nat), w < 4096 → h < 4096 →
    decode (BitVec.ofNat 32 (0x0F000000 + 4096 * w + h)) = .command (.draw w h) ∧
    (s.n = 0 → exec (.draw w h) s =
      .next { s with err := some .illegalOperand, errinfo := BitVec.ofNat 32 (0x0F000000 + 4096 * w + h) }) ∧
    (s.n ≠ 0 → ∃ (t : State) (cs : Nat) (ox oy : Int), exec (.draw w h) s = .next t ∧
      (cs : Int) = max 1 (((min w h : Nat) - 2 * (s.cfg.rpad : Int)) / (s.n.toNat : Int)) ∧
      ox = ((w : Int) - s.n.toNat * cs) / 2 ∧ oy = ((h : Int) - s.n.toNat * cs) / 2 ∧
      t = { s with surfw := BitVec.ofNat 12 w, surfh := BitVec.ofNat 12 h, cellsz := t.cellsz, offx := t.offx,
                   offy := t.offy, surf := t.surf } ∧
      t.cellsz.toNat = cs ∧ t.offx.toInt = ox ∧ t.offy.toInt = oy ∧
      (∀ x y, x < w → y < h →
        (surfPixel t.surf x y = some true ↔ ShowsDark s.matrix s.n.toNat cs ox oy x y) ∧
        (surfPixel t.surf x y = some false ↔ ¬ShowsDark s.matrix s.n.toNat cs ox oy x y)) ∧
      (∀ x y, x < 4096 → ¬(x < w ∧ y < h) → surfPixel t.surf x y = surfPixel s.surf x y))

/-- R261: "A second DRAW with the same operands and matrix leaves the same surface", and changes nothing at all. -/
def Obligations.DrawTwiceIsDrawOnce : Prop :=
  ∀ (s : State) (w h : Nat), w < 4096 → h < 4096 → s.n ≠ 0 → risingKeys s.surf = true →
    ∃ t, exec (.draw w h) s = .next t ∧ exec (.draw w h) t = .next t

/-! ### System commands: NOP, CLRERR -/

/-- R280: NOP leaves every register and buffer unchanged. -/
def Obligations.NopChangesNothing : Prop :=
  decode 0x00000000 = .command .nop ∧ ∀ s : State, exec .nop s = .next s

/-- R281: CLRERR clears ERR and ERRINFO and changes nothing else, and it is executed while a fault is latched. -/
def Obligations.ClrerrClearsTheFault : Prop :=
  decode 0x10000000 = .command .clrerr ∧
  ∀ s : State, exec .clrerr s = .next { s with err := none, errinfo := 0 } ∧
    step (s.offering (.write 0x0000 0x10000000)) = .next { s with err := none, errinfo := 0 } ∧
    (s.err = none → s.errinfo = 0 → exec .clrerr s = .next s)
end

