-- ==== Sys2Proof/Laws/Decode.lean ====
section
/-! SUPPORT. The command words: a row is known by its opcode, so at most one row matches; the fields of each format; what the
decoder answers. -/

-- One theorem at a time: each thread of Lean's reserves address space, which check.sh limits.
set_option Elab.async false

namespace Sys2Proof

/-! ### Rows -/

/-- Every row's mask covers the opcode, and the rows' opcodes are distinct. -/
theorem opcodeTable_masks : opcodeTable.all (fun r => r.mask.extractLsb' 24 8 == 0xFF) = true := by decide +kernel

theorem opcodeTable_opcodes : (opcodeTable.map (fun r => opField r.pattern)).Nodup := by decide +kernel

/-- A matching row has the word's opcode. -/
theorem opField_of_matches {r : OpRow} (hr : r ∈ opcodeTable) {w : Word} (h : r.matchesWord w = true) :
    opField r.pattern = opField w := by
  have hm : r.mask.extractLsb' 24 8 = 0xFF := by
    simpa using List.all_eq_true.mp opcodeTable_masks r hr
  have hw : w &&& r.mask = r.pattern := by simpa [OpRow.matchesWord] using h
  rw [opField, ← hw, BitVec.extractLsb'_and, hm]
  exact BitVec.and_allOnes (x := w.extractLsb' 24 8)

/-- "At most one row matches" (R92). -/
theorem row_unique {r r' : OpRow} (hr : r ∈ opcodeTable) (hr' : r' ∈ opcodeTable) {w : Word}
    (h : r.matchesWord w = true) (h' : r'.matchesWord w = true) : r = r' :=
  List.inj_on_of_nodup_map opcodeTable_opcodes hr hr'
    ((opField_of_matches hr h).trans (opField_of_matches hr' h').symm)

/-- The decoder runs the row that matches. -/
theorem decode_of_matches {r : OpRow} (hr : r ∈ opcodeTable) {w : Word} (h : r.matchesWord w = true) :
    decode w = .command (r.build w) := by
  unfold decode
  cases hf : opcodeTable.find? (fun r => r.matchesWord w) with
  | none => exact absurd h (by simpa using List.find?_eq_none.mp hf r hr)
  | some r' =>
    rw [row_unique (List.mem_of_find?_eq_some hf) hr (List.find?_some (p := fun r : OpRow => r.matchesWord w) hf) h]

theorem decode_eq_command_iff {w : Word} {i : Instr} :
    decode w = .command i ↔ ∃ r ∈ opcodeTable, r.matchesWord w = true ∧ r.build w = i := by
  constructor
  · intro h
    unfold decode at h
    cases hf : opcodeTable.find? (fun r => r.matchesWord w) with
    | none => rw [hf] at h; cases h
    | some r =>
      rw [hf] at h
      exact ⟨r, List.mem_of_find?_eq_some hf, List.find?_some (p := fun r : OpRow => r.matchesWord w) hf, by simpa using h⟩
  · rintro ⟨r, hr, hm, rfl⟩; exact decode_of_matches hr hm

theorem decode_illegal_iff {w : Word} :
    (∃ d, decode w = .illegal d) ↔ ∀ r ∈ opcodeTable, r.matchesWord w = false := by
  unfold decode
  cases hf : opcodeTable.find? (fun r => r.matchesWord w) with
  | none => simpa using List.find?_eq_none.mp hf
  | some r =>
    simp only [reduceCtorEq, exists_false, false_iff, not_forall]
    exact ⟨r, List.mem_of_find?_eq_some hf, by simp [List.find?_some (p := fun r : OpRow => r.matchesWord w) hf]⟩

/-! ### Words as numbers (R90, R91) -/

theorem toNat_append_add {n m : Nat} (x : BitVec n) (y : BitVec m) : (x ++ y).toNat = x.toNat * 2 ^ m + y.toNat := by
  rw [BitVec.toNat_append, ← Nat.shiftLeft_add_eq_or_of_lt y.isLt, Nat.shiftLeft_eq]

theorem toNat_formatZ (op : Byte) : (formatZ op).toNat = op.toNat * 2 ^ 24 :=
  (toNat_append_add op (0 : BitVec 24)).trans (by simp)

theorem toNat_formatB (op a : Byte) : (formatB op a).toNat = op.toNat * 2 ^ 24 + a.toNat := by
  refine (toNat_append_add (op ++ (0 : BitVec 16)) a).trans ?_
  rw [toNat_append_add]; simp; omega

theorem toNat_formatP (op a b : Byte) : (formatP op a b).toNat = op.toNat * 2 ^ 24 + a.toNat * 256 + b.toNat := by
  refine (toNat_append_add (op ++ (0 : Byte) ++ a) b).trans ?_
  rw [toNat_append_add, toNat_append_add]; simp; omega

theorem toNat_formatS (op : Byte) (w h : BitVec 12) :
    (formatS op w h).toNat = op.toNat * 2 ^ 24 + w.toNat * 4096 + h.toNat := by
  refine (toNat_append_add (op ++ w) h).trans ?_
  rw [toNat_append_add]; omega

theorem toNat_opField (w : Word) : (opField w).toNat = w.toNat / 2 ^ 24 := by
  have := w.isLt
  simp [opField, Nat.shiftRight_eq_div_pow]; omega

theorem toNat_fieldHi (w : Word) : (fieldHi w).toNat = w.toNat / 256 % 256 := by
  simp [fieldHi, Nat.shiftRight_eq_div_pow]

theorem toNat_fieldLo (w : Word) : (fieldLo w).toNat = w.toNat % 256 := by simp [fieldLo]

theorem toNat_fieldW (w : Word) : (fieldW w).toNat = w.toNat / 4096 % 4096 := by
  simp [fieldW, Nat.shiftRight_eq_div_pow]

theorem toNat_fieldH (w : Word) : (fieldH w).toNat = w.toNat % 4096 := by simp [fieldH]

/-- A mask of high ones clears the bits below. -/
theorem and_highMask (w : Word) (k : Nat) :
    (w &&& (BitVec.allOnes 32 <<< k)).toNat = w.toNat / 2 ^ k * 2 ^ k := by
  have e : w &&& (BitVec.allOnes 32 <<< k) = (w >>> k) <<< k := by
    ext i hi
    simp only [BitVec.getElem_and, BitVec.getElem_shiftLeft, BitVec.getElem_allOnes, BitVec.getElem_ushiftRight]
    by_cases h : i < k
    · simp [h]
    · simp only [h, decide_false, Bool.not_false, Bool.true_and, Bool.and_true]
      rw [show k + (i - k) = i by omega, BitVec.getLsbD_eq_getElem hi]
  rw [e, BitVec.toNat_shiftLeft, BitVec.toNat_ushiftRight, Nat.shiftRight_eq_div_pow, Nat.shiftLeft_eq]
  refine Nat.mod_eq_of_lt (Nat.lt_of_le_of_lt (Nat.div_mul_le_self _ _) w.isLt)

/-- How many low bits a row's mask leaves to operands. -/
def OpRow.free (r : OpRow) : Nat :=
  if r.mask = 0xFFFFFFFF then 0 else if r.mask = 0xFFFFFF00 then 8 else if r.mask = 0xFFFF0000 then 16 else 24

theorem opcodeTable_free :
    opcodeTable.all (fun r => decide (r.mask = BitVec.allOnes 32 <<< r.free ∧ r.pattern.toNat % 2 ^ r.free = 0)) = true := by
  decide +kernel

/-- A row matches the words that agree with its pattern above its operand bits. -/
theorem matchesWord_iff {r : OpRow} (hr : r ∈ opcodeTable) (w : Word) :
    r.matchesWord w = true ↔ w.toNat / 2 ^ r.free = r.pattern.toNat / 2 ^ r.free := by
  have h := List.all_eq_true.mp opcodeTable_free r hr
  obtain ⟨hm, hp⟩ := of_decide_eq_true h
  have hpos : 0 < 2 ^ r.free := Nat.two_pow_pos _
  have hpat : r.pattern.toNat / 2 ^ r.free * 2 ^ r.free = r.pattern.toNat := Nat.div_mul_cancel (Nat.dvd_of_mod_eq_zero hp)
  rw [OpRow.matchesWord, beq_iff_eq, hm, ← BitVec.toNat_inj, and_highMask]
  constructor
  · intro e
    rw [← e, Nat.mul_div_cancel _ hpos]
  · intro e
    rw [e, hpat]

/-- The words of a format match the row with their opcode. -/
theorem decode_word {r : OpRow} (hr : r ∈ opcodeTable) {w : Word}
    (h : w.toNat / 2 ^ r.free = r.pattern.toNat / 2 ^ r.free) : decode w = .command (r.build w) :=
  decode_of_matches hr ((matchesWord_iff hr w).mpr h)

/-! ### The words of the commands with operands, as numbers (R90, R95) -/

theorem encode_gfmul (a b : Byte) : encode (.gfmul a b) = BitVec.ofNat 32 (0x02000000 + 256 * a.toNat + b.toNat) := by
  apply BitVec.eq_of_toNat_eq
  have := a.isLt
  have := b.isLt
  rw [encode, toNat_formatP]; simp; omega

theorem encode_rsgen {d : Nat} (h : d < 256) : encode (.rsgen d) = BitVec.ofNat 32 (0x03000000 + d) := by
  apply BitVec.eq_of_toNat_eq; rw [encode, toNat_formatB]; simp; omega

theorem encode_rsenc {ec : Nat} (h : ec < 256) : encode (.rsenc ec) = BitVec.ofNat 32 (0x04000000 + ec) := by
  apply BitVec.eq_of_toNat_eq; rw [encode, toNat_formatB]; simp; omega

theorem encode_mnew {n : Nat} (h : n < 256) : encode (.mnew n) = BitVec.ofNat 32 (0x09000000 + n) := by
  apply BitVec.eq_of_toNat_eq; rw [encode, toNat_formatB]; simp; omega

theorem encode_draw {w h : Nat} (hw : w < 4096) (hh : h < 4096) :
    encode (.draw w h) = BitVec.ofNat 32 (0x0F000000 + 4096 * w + h) := by
  apply BitVec.eq_of_toNat_eq; rw [encode, toNat_formatS]; simp; omega

end Sys2Proof
end

