-- ==== Sys2Proof/Laws/State.lean ====
section
/-! SUPPORT. One lemma per field per update of the state: what each shared operation and effect makes of each field, so that
no later proof unfolds a record update. -/

-- One theorem at a time: each thread of Lean's reserves address space, which check.sh limits.
set_option Elab.async false

namespace Sys2Proof.Machine

section
variable (s : State)


/-! ### setByte -/

@[simp] theorem setByte_cfg (a : Nat) (v : Byte) : (s.setByte a v).cfg = s.cfg := rfl
@[simp] theorem setByte_gfvalid (a : Nat) (v : Byte) : (s.setByte a v).gfvalid = s.gfvalid := rfl
@[simp] theorem setByte_unres (a : Nat) (v : Byte) : (s.setByte a v).unres = s.unres := rfl
@[simp] theorem setByte_err (a : Nat) (v : Byte) : (s.setByte a v).err = s.err := rfl
@[simp] theorem setByte_errinfo (a : Nat) (v : Byte) : (s.setByte a v).errinfo = s.errinfo := rfl
@[simp] theorem setByte_plen (a : Nat) (v : Byte) : (s.setByte a v).plen = s.plen := rfl
@[simp] theorem setByte_ver (a : Nat) (v : Byte) : (s.setByte a v).ver = s.ver := rfl
@[simp] theorem setByte_n (a : Nat) (v : Byte) : (s.setByte a v).n = s.n := rfl
@[simp] theorem setByte_bitlen (a : Nat) (v : Byte) : (s.setByte a v).bitlen = s.bitlen := rfl
@[simp] theorem setByte_dlen (a : Nat) (v : Byte) : (s.setByte a v).dlen = s.dlen := rfl
@[simp] theorem setByte_eclen (a : Nat) (v : Byte) : (s.setByte a v).eclen = s.eclen := rfl
@[simp] theorem setByte_gdeg (a : Nat) (v : Byte) : (s.setByte a v).gdeg = s.gdeg := rfl
@[simp] theorem setByte_result (a : Nat) (v : Byte) : (s.setByte a v).result = s.result := rfl
@[simp] theorem setByte_surfw (a : Nat) (v : Byte) : (s.setByte a v).surfw = s.surfw := rfl
@[simp] theorem setByte_surfh (a : Nat) (v : Byte) : (s.setByte a v).surfh = s.surfh := rfl
@[simp] theorem setByte_cellsz (a : Nat) (v : Byte) : (s.setByte a v).cellsz = s.cellsz := rfl
@[simp] theorem setByte_offx (a : Nat) (v : Byte) : (s.setByte a v).offx = s.offx := rfl
@[simp] theorem setByte_offy (a : Nat) (v : Byte) : (s.setByte a v).offy = s.offy := rfl
@[simp] theorem setByte_mem (a : Nat) (v : Byte) : (s.setByte a v).mem = memWrite a v s.mem := rfl
@[simp] theorem setByte_matrix (a : Nat) (v : Byte) : (s.setByte a v).matrix = s.matrix := rfl
@[simp] theorem setByte_surf (a : Nat) (v : Byte) : (s.setByte a v).surf = s.surf := rfl
@[simp] theorem setByte_pending (a : Nat) (v : Byte) : (s.setByte a v).pending = s.pending := rfl
@[simp] theorem setByte_rdata (a : Nat) (v : Byte) : (s.setByte a v).rdata = s.rdata := rfl
@[simp] theorem setByte_resetCount (a : Nat) (v : Byte) : (s.setByte a v).resetCount = s.resetCount := rfl

/-! ### setBytes -/

@[simp] theorem setBytes_cfg (a : Nat) (vs : List Byte) : (s.setBytes a vs).cfg = s.cfg := rfl
@[simp] theorem setBytes_gfvalid (a : Nat) (vs : List Byte) : (s.setBytes a vs).gfvalid = s.gfvalid := rfl
@[simp] theorem setBytes_unres (a : Nat) (vs : List Byte) : (s.setBytes a vs).unres = s.unres := rfl
@[simp] theorem setBytes_err (a : Nat) (vs : List Byte) : (s.setBytes a vs).err = s.err := rfl
@[simp] theorem setBytes_errinfo (a : Nat) (vs : List Byte) : (s.setBytes a vs).errinfo = s.errinfo := rfl
@[simp] theorem setBytes_plen (a : Nat) (vs : List Byte) : (s.setBytes a vs).plen = s.plen := rfl
@[simp] theorem setBytes_ver (a : Nat) (vs : List Byte) : (s.setBytes a vs).ver = s.ver := rfl
@[simp] theorem setBytes_n (a : Nat) (vs : List Byte) : (s.setBytes a vs).n = s.n := rfl
@[simp] theorem setBytes_bitlen (a : Nat) (vs : List Byte) : (s.setBytes a vs).bitlen = s.bitlen := rfl
@[simp] theorem setBytes_dlen (a : Nat) (vs : List Byte) : (s.setBytes a vs).dlen = s.dlen := rfl
@[simp] theorem setBytes_eclen (a : Nat) (vs : List Byte) : (s.setBytes a vs).eclen = s.eclen := rfl
@[simp] theorem setBytes_gdeg (a : Nat) (vs : List Byte) : (s.setBytes a vs).gdeg = s.gdeg := rfl
@[simp] theorem setBytes_result (a : Nat) (vs : List Byte) : (s.setBytes a vs).result = s.result := rfl
@[simp] theorem setBytes_surfw (a : Nat) (vs : List Byte) : (s.setBytes a vs).surfw = s.surfw := rfl
@[simp] theorem setBytes_surfh (a : Nat) (vs : List Byte) : (s.setBytes a vs).surfh = s.surfh := rfl
@[simp] theorem setBytes_cellsz (a : Nat) (vs : List Byte) : (s.setBytes a vs).cellsz = s.cellsz := rfl
@[simp] theorem setBytes_offx (a : Nat) (vs : List Byte) : (s.setBytes a vs).offx = s.offx := rfl
@[simp] theorem setBytes_offy (a : Nat) (vs : List Byte) : (s.setBytes a vs).offy = s.offy := rfl
@[simp] theorem setBytes_mem (a : Nat) (vs : List Byte) : (s.setBytes a vs).mem = memWriteList a vs s.mem := rfl
@[simp] theorem setBytes_matrix (a : Nat) (vs : List Byte) : (s.setBytes a vs).matrix = s.matrix := rfl
@[simp] theorem setBytes_surf (a : Nat) (vs : List Byte) : (s.setBytes a vs).surf = s.surf := rfl
@[simp] theorem setBytes_pending (a : Nat) (vs : List Byte) : (s.setBytes a vs).pending = s.pending := rfl
@[simp] theorem setBytes_rdata (a : Nat) (vs : List Byte) : (s.setBytes a vs).rdata = s.rdata := rfl
@[simp] theorem setBytes_resetCount (a : Nat) (vs : List Byte) : (s.setBytes a vs).resetCount = s.resetCount := rfl

/-! ### setBits -/

@[simp] theorem setBits_cfg (bs : List Bool) : (s.setBits bs).cfg = s.cfg := rfl
@[simp] theorem setBits_gfvalid (bs : List Bool) : (s.setBits bs).gfvalid = s.gfvalid := rfl
@[simp] theorem setBits_unres (bs : List Bool) : (s.setBits bs).unres = s.unres := rfl
@[simp] theorem setBits_err (bs : List Bool) : (s.setBits bs).err = s.err := rfl
@[simp] theorem setBits_errinfo (bs : List Bool) : (s.setBits bs).errinfo = s.errinfo := rfl
@[simp] theorem setBits_plen (bs : List Bool) : (s.setBits bs).plen = s.plen := rfl
@[simp] theorem setBits_ver (bs : List Bool) : (s.setBits bs).ver = s.ver := rfl
@[simp] theorem setBits_n (bs : List Bool) : (s.setBits bs).n = s.n := rfl
@[simp] theorem setBits_bitlen (bs : List Bool) : (s.setBits bs).bitlen = s.bitlen := rfl
@[simp] theorem setBits_dlen (bs : List Bool) : (s.setBits bs).dlen = s.dlen := rfl
@[simp] theorem setBits_eclen (bs : List Bool) : (s.setBits bs).eclen = s.eclen := rfl
@[simp] theorem setBits_gdeg (bs : List Bool) : (s.setBits bs).gdeg = s.gdeg := rfl
@[simp] theorem setBits_result (bs : List Bool) : (s.setBits bs).result = s.result := rfl
@[simp] theorem setBits_surfw (bs : List Bool) : (s.setBits bs).surfw = s.surfw := rfl
@[simp] theorem setBits_surfh (bs : List Bool) : (s.setBits bs).surfh = s.surfh := rfl
@[simp] theorem setBits_cellsz (bs : List Bool) : (s.setBits bs).cellsz = s.cellsz := rfl
@[simp] theorem setBits_offx (bs : List Bool) : (s.setBits bs).offx = s.offx := rfl
@[simp] theorem setBits_offy (bs : List Bool) : (s.setBits bs).offy = s.offy := rfl
@[simp] theorem setBits_mem (bs : List Bool) : (s.setBits bs).mem = memWriteList (bitsAddr 0) (bs.map bitByte) s.mem := rfl
@[simp] theorem setBits_matrix (bs : List Bool) : (s.setBits bs).matrix = s.matrix := rfl
@[simp] theorem setBits_surf (bs : List Bool) : (s.setBits bs).surf = s.surf := rfl
@[simp] theorem setBits_pending (bs : List Bool) : (s.setBits bs).pending = s.pending := rfl
@[simp] theorem setBits_rdata (bs : List Bool) : (s.setBits bs).rdata = s.rdata := rfl
@[simp] theorem setBits_resetCount (bs : List Bool) : (s.setBits bs).resetCount = s.resetCount := rfl

/-! ### raise -/

@[simp] theorem raise_cfg (f : Fault) (info : Word) : (raise f info s).cfg = s.cfg := rfl
@[simp] theorem raise_gfvalid (f : Fault) (info : Word) : (raise f info s).gfvalid = s.gfvalid := rfl
@[simp] theorem raise_unres (f : Fault) (info : Word) : (raise f info s).unres = s.unres := rfl
@[simp] theorem raise_err (f : Fault) (info : Word) : (raise f info s).err = some f := rfl
@[simp] theorem raise_errinfo (f : Fault) (info : Word) : (raise f info s).errinfo = info := rfl
@[simp] theorem raise_plen (f : Fault) (info : Word) : (raise f info s).plen = s.plen := rfl
@[simp] theorem raise_ver (f : Fault) (info : Word) : (raise f info s).ver = s.ver := rfl
@[simp] theorem raise_n (f : Fault) (info : Word) : (raise f info s).n = s.n := rfl
@[simp] theorem raise_bitlen (f : Fault) (info : Word) : (raise f info s).bitlen = s.bitlen := rfl
@[simp] theorem raise_dlen (f : Fault) (info : Word) : (raise f info s).dlen = s.dlen := rfl
@[simp] theorem raise_eclen (f : Fault) (info : Word) : (raise f info s).eclen = s.eclen := rfl
@[simp] theorem raise_gdeg (f : Fault) (info : Word) : (raise f info s).gdeg = s.gdeg := rfl
@[simp] theorem raise_result (f : Fault) (info : Word) : (raise f info s).result = s.result := rfl
@[simp] theorem raise_surfw (f : Fault) (info : Word) : (raise f info s).surfw = s.surfw := rfl
@[simp] theorem raise_surfh (f : Fault) (info : Word) : (raise f info s).surfh = s.surfh := rfl
@[simp] theorem raise_cellsz (f : Fault) (info : Word) : (raise f info s).cellsz = s.cellsz := rfl
@[simp] theorem raise_offx (f : Fault) (info : Word) : (raise f info s).offx = s.offx := rfl
@[simp] theorem raise_offy (f : Fault) (info : Word) : (raise f info s).offy = s.offy := rfl
@[simp] theorem raise_mem (f : Fault) (info : Word) : (raise f info s).mem = s.mem := rfl
@[simp] theorem raise_matrix (f : Fault) (info : Word) : (raise f info s).matrix = s.matrix := rfl
@[simp] theorem raise_surf (f : Fault) (info : Word) : (raise f info s).surf = s.surf := rfl
@[simp] theorem raise_pending (f : Fault) (info : Word) : (raise f info s).pending = s.pending := rfl
@[simp] theorem raise_rdata (f : Fault) (info : Word) : (raise f info s).rdata = s.rdata := rfl
@[simp] theorem raise_resetCount (f : Fault) (info : Word) : (raise f info s).resetCount = s.resetCount := rfl

/-! ### acknowledge -/

@[simp] theorem acknowledge_cfg : (acknowledge s).cfg = s.cfg := rfl
@[simp] theorem acknowledge_gfvalid : (acknowledge s).gfvalid = s.gfvalid := rfl
@[simp] theorem acknowledge_unres : (acknowledge s).unres = s.unres := rfl
@[simp] theorem acknowledge_err : (acknowledge s).err = none := rfl
@[simp] theorem acknowledge_errinfo : (acknowledge s).errinfo = 0 := rfl
@[simp] theorem acknowledge_plen : (acknowledge s).plen = s.plen := rfl
@[simp] theorem acknowledge_ver : (acknowledge s).ver = s.ver := rfl
@[simp] theorem acknowledge_n : (acknowledge s).n = s.n := rfl
@[simp] theorem acknowledge_bitlen : (acknowledge s).bitlen = s.bitlen := rfl
@[simp] theorem acknowledge_dlen : (acknowledge s).dlen = s.dlen := rfl
@[simp] theorem acknowledge_eclen : (acknowledge s).eclen = s.eclen := rfl
@[simp] theorem acknowledge_gdeg : (acknowledge s).gdeg = s.gdeg := rfl
@[simp] theorem acknowledge_result : (acknowledge s).result = s.result := rfl
@[simp] theorem acknowledge_surfw : (acknowledge s).surfw = s.surfw := rfl
@[simp] theorem acknowledge_surfh : (acknowledge s).surfh = s.surfh := rfl
@[simp] theorem acknowledge_cellsz : (acknowledge s).cellsz = s.cellsz := rfl
@[simp] theorem acknowledge_offx : (acknowledge s).offx = s.offx := rfl
@[simp] theorem acknowledge_offy : (acknowledge s).offy = s.offy := rfl
@[simp] theorem acknowledge_mem : (acknowledge s).mem = s.mem := rfl
@[simp] theorem acknowledge_matrix : (acknowledge s).matrix = s.matrix := rfl
@[simp] theorem acknowledge_surf : (acknowledge s).surf = s.surf := rfl
@[simp] theorem acknowledge_pending : (acknowledge s).pending = s.pending := rfl
@[simp] theorem acknowledge_rdata : (acknowledge s).rdata = s.rdata := rfl
@[simp] theorem acknowledge_resetCount : (acknowledge s).resetCount = s.resetCount := rfl

/-! ### storeGenerator -/

@[simp] theorem storeGenerator_cfg (d : Nat) : (storeGenerator d s).cfg = s.cfg := rfl
@[simp] theorem storeGenerator_gfvalid (d : Nat) : (storeGenerator d s).gfvalid = s.gfvalid := rfl
@[simp] theorem storeGenerator_unres (d : Nat) : (storeGenerator d s).unres = s.unres := rfl
@[simp] theorem storeGenerator_err (d : Nat) : (storeGenerator d s).err = s.err := rfl
@[simp] theorem storeGenerator_errinfo (d : Nat) : (storeGenerator d s).errinfo = s.errinfo := rfl
@[simp] theorem storeGenerator_plen (d : Nat) : (storeGenerator d s).plen = s.plen := rfl
@[simp] theorem storeGenerator_ver (d : Nat) : (storeGenerator d s).ver = s.ver := rfl
@[simp] theorem storeGenerator_n (d : Nat) : (storeGenerator d s).n = s.n := rfl
@[simp] theorem storeGenerator_bitlen (d : Nat) : (storeGenerator d s).bitlen = s.bitlen := rfl
@[simp] theorem storeGenerator_dlen (d : Nat) : (storeGenerator d s).dlen = s.dlen := rfl
@[simp] theorem storeGenerator_eclen (d : Nat) : (storeGenerator d s).eclen = s.eclen := rfl
@[simp] theorem storeGenerator_gdeg (d : Nat) : (storeGenerator d s).gdeg = BitVec.ofNat 5 d := rfl
@[simp] theorem storeGenerator_result (d : Nat) : (storeGenerator d s).result = s.result := rfl
@[simp] theorem storeGenerator_surfw (d : Nat) : (storeGenerator d s).surfw = s.surfw := rfl
@[simp] theorem storeGenerator_surfh (d : Nat) : (storeGenerator d s).surfh = s.surfh := rfl
@[simp] theorem storeGenerator_cellsz (d : Nat) : (storeGenerator d s).cellsz = s.cellsz := rfl
@[simp] theorem storeGenerator_offx (d : Nat) : (storeGenerator d s).offx = s.offx := rfl
@[simp] theorem storeGenerator_offy (d : Nat) : (storeGenerator d s).offy = s.offy := rfl
@[simp] theorem storeGenerator_mem (d : Nat) : (storeGenerator d s).mem = memWriteList (genAddr 0) (s.generator d) s.mem := rfl
@[simp] theorem storeGenerator_matrix (d : Nat) : (storeGenerator d s).matrix = s.matrix := rfl
@[simp] theorem storeGenerator_surf (d : Nat) : (storeGenerator d s).surf = s.surf := rfl
@[simp] theorem storeGenerator_pending (d : Nat) : (storeGenerator d s).pending = s.pending := rfl
@[simp] theorem storeGenerator_rdata (d : Nat) : (storeGenerator d s).rdata = s.rdata := rfl
@[simp] theorem storeGenerator_resetCount (d : Nat) : (storeGenerator d s).resetCount = s.resetCount := rfl

/-! ### storeParity -/

@[simp] theorem storeParity_cfg (ec : Nat) : (storeParity ec s).cfg = s.cfg := rfl
@[simp] theorem storeParity_gfvalid (ec : Nat) : (storeParity ec s).gfvalid = s.gfvalid := rfl
@[simp] theorem storeParity_unres (ec : Nat) : (storeParity ec s).unres = s.unres := rfl
@[simp] theorem storeParity_err (ec : Nat) : (storeParity ec s).err = s.err := rfl
@[simp] theorem storeParity_errinfo (ec : Nat) : (storeParity ec s).errinfo = s.errinfo := rfl
@[simp] theorem storeParity_plen (ec : Nat) : (storeParity ec s).plen = s.plen := rfl
@[simp] theorem storeParity_ver (ec : Nat) : (storeParity ec s).ver = s.ver := rfl
@[simp] theorem storeParity_n (ec : Nat) : (storeParity ec s).n = s.n := rfl
@[simp] theorem storeParity_bitlen (ec : Nat) : (storeParity ec s).bitlen = s.bitlen := rfl
@[simp] theorem storeParity_dlen (ec : Nat) : (storeParity ec s).dlen = s.dlen := rfl
@[simp] theorem storeParity_eclen (ec : Nat) : (storeParity ec s).eclen = BitVec.ofNat 5 ec := rfl
@[simp] theorem storeParity_gdeg (ec : Nat) : (storeParity ec s).gdeg = s.gdeg := rfl
@[simp] theorem storeParity_result (ec : Nat) : (storeParity ec s).result = s.result := rfl
@[simp] theorem storeParity_surfw (ec : Nat) : (storeParity ec s).surfw = s.surfw := rfl
@[simp] theorem storeParity_surfh (ec : Nat) : (storeParity ec s).surfh = s.surfh := rfl
@[simp] theorem storeParity_cellsz (ec : Nat) : (storeParity ec s).cellsz = s.cellsz := rfl
@[simp] theorem storeParity_offx (ec : Nat) : (storeParity ec s).offx = s.offx := rfl
@[simp] theorem storeParity_offy (ec : Nat) : (storeParity ec s).offy = s.offy := rfl
@[simp] theorem storeParity_mem (ec : Nat) : (storeParity ec s).mem = memWriteList (parAddr 0) (rsParity s.gfmul (s.generator ec) s.dataCodewords ec) s.mem := rfl
@[simp] theorem storeParity_matrix (ec : Nat) : (storeParity ec s).matrix = s.matrix := rfl
@[simp] theorem storeParity_surf (ec : Nat) : (storeParity ec s).surf = s.surf := rfl
@[simp] theorem storeParity_pending (ec : Nat) : (storeParity ec s).pending = s.pending := rfl
@[simp] theorem storeParity_rdata (ec : Nat) : (storeParity ec s).rdata = s.rdata := rfl
@[simp] theorem storeParity_resetCount (ec : Nat) : (storeParity ec s).resetCount = s.resetCount := rfl

/-! ### storeBitSequence -/

@[simp] theorem storeBitSequence_cfg (b : List Bool) : (storeBitSequence b s).cfg = s.cfg := rfl
@[simp] theorem storeBitSequence_gfvalid (b : List Bool) : (storeBitSequence b s).gfvalid = s.gfvalid := rfl
@[simp] theorem storeBitSequence_unres (b : List Bool) : (storeBitSequence b s).unres = s.unres := rfl
@[simp] theorem storeBitSequence_err (b : List Bool) : (storeBitSequence b s).err = s.err := rfl
@[simp] theorem storeBitSequence_errinfo (b : List Bool) : (storeBitSequence b s).errinfo = s.errinfo := rfl
@[simp] theorem storeBitSequence_plen (b : List Bool) : (storeBitSequence b s).plen = s.plen := rfl
@[simp] theorem storeBitSequence_ver (b : List Bool) : (storeBitSequence b s).ver = s.ver := rfl
@[simp] theorem storeBitSequence_n (b : List Bool) : (storeBitSequence b s).n = s.n := rfl
@[simp] theorem storeBitSequence_bitlen (b : List Bool) : (storeBitSequence b s).bitlen = BitVec.ofNat 11 b.length := rfl
@[simp] theorem storeBitSequence_dlen (b : List Bool) : (storeBitSequence b s).dlen = s.dlen := rfl
@[simp] theorem storeBitSequence_eclen (b : List Bool) : (storeBitSequence b s).eclen = s.eclen := rfl
@[simp] theorem storeBitSequence_gdeg (b : List Bool) : (storeBitSequence b s).gdeg = s.gdeg := rfl
@[simp] theorem storeBitSequence_result (b : List Bool) : (storeBitSequence b s).result = s.result := rfl
@[simp] theorem storeBitSequence_surfw (b : List Bool) : (storeBitSequence b s).surfw = s.surfw := rfl
@[simp] theorem storeBitSequence_surfh (b : List Bool) : (storeBitSequence b s).surfh = s.surfh := rfl
@[simp] theorem storeBitSequence_cellsz (b : List Bool) : (storeBitSequence b s).cellsz = s.cellsz := rfl
@[simp] theorem storeBitSequence_offx (b : List Bool) : (storeBitSequence b s).offx = s.offx := rfl
@[simp] theorem storeBitSequence_offy (b : List Bool) : (storeBitSequence b s).offy = s.offy := rfl
@[simp] theorem storeBitSequence_mem (b : List Bool) : (storeBitSequence b s).mem = memWriteList (bitsAddr 0) (b.map bitByte) s.mem := rfl
@[simp] theorem storeBitSequence_matrix (b : List Bool) : (storeBitSequence b s).matrix = s.matrix := rfl
@[simp] theorem storeBitSequence_surf (b : List Bool) : (storeBitSequence b s).surf = s.surf := rfl
@[simp] theorem storeBitSequence_pending (b : List Bool) : (storeBitSequence b s).pending = s.pending := rfl
@[simp] theorem storeBitSequence_rdata (b : List Bool) : (storeBitSequence b s).rdata = s.rdata := rfl
@[simp] theorem storeBitSequence_resetCount (b : List Bool) : (storeBitSequence b s).resetCount = s.resetCount := rfl

/-! ### vselEffect -/

@[simp] theorem vselEffect_cfg : (vselEffect s).cfg = s.cfg := rfl
@[simp] theorem vselEffect_gfvalid : (vselEffect s).gfvalid = s.gfvalid := rfl
@[simp] theorem vselEffect_unres : (vselEffect s).unres = s.unres := rfl
@[simp] theorem vselEffect_err : (vselEffect s).err = s.err := rfl
@[simp] theorem vselEffect_errinfo : (vselEffect s).errinfo = s.errinfo := rfl
@[simp] theorem vselEffect_plen : (vselEffect s).plen = s.plen := rfl
@[simp] theorem vselEffect_ver : (vselEffect s).ver = BitVec.ofNat 3 (chooseVersion s.plen.toNat) := rfl
@[simp] theorem vselEffect_n : (vselEffect s).n = s.n := rfl
@[simp] theorem vselEffect_bitlen : (vselEffect s).bitlen = s.bitlen := rfl
@[simp] theorem vselEffect_dlen : (vselEffect s).dlen = s.dlen := rfl
@[simp] theorem vselEffect_eclen : (vselEffect s).eclen = s.eclen := rfl
@[simp] theorem vselEffect_gdeg : (vselEffect s).gdeg = s.gdeg := rfl
@[simp] theorem vselEffect_result : (vselEffect s).result = BitVec.ofNat 8 (chooseVersion s.plen.toNat) := rfl
@[simp] theorem vselEffect_surfw : (vselEffect s).surfw = s.surfw := rfl
@[simp] theorem vselEffect_surfh : (vselEffect s).surfh = s.surfh := rfl
@[simp] theorem vselEffect_cellsz : (vselEffect s).cellsz = s.cellsz := rfl
@[simp] theorem vselEffect_offx : (vselEffect s).offx = s.offx := rfl
@[simp] theorem vselEffect_offy : (vselEffect s).offy = s.offy := rfl
@[simp] theorem vselEffect_mem : (vselEffect s).mem = s.mem := rfl
@[simp] theorem vselEffect_matrix : (vselEffect s).matrix = s.matrix := rfl
@[simp] theorem vselEffect_surf : (vselEffect s).surf = s.surf := rfl
@[simp] theorem vselEffect_pending : (vselEffect s).pending = s.pending := rfl
@[simp] theorem vselEffect_rdata : (vselEffect s).rdata = s.rdata := rfl
@[simp] theorem vselEffect_resetCount : (vselEffect s).resetCount = s.resetCount := rfl

/-! ### b2bEffect -/

@[simp] theorem b2bEffect_cfg : (b2bEffect s).cfg = s.cfg := rfl
@[simp] theorem b2bEffect_gfvalid : (b2bEffect s).gfvalid = s.gfvalid := rfl
@[simp] theorem b2bEffect_unres : (b2bEffect s).unres = s.unres := rfl
@[simp] theorem b2bEffect_err : (b2bEffect s).err = s.err := rfl
@[simp] theorem b2bEffect_errinfo : (b2bEffect s).errinfo = s.errinfo := rfl
@[simp] theorem b2bEffect_plen : (b2bEffect s).plen = s.plen := rfl
@[simp] theorem b2bEffect_ver : (b2bEffect s).ver = s.ver := rfl
@[simp] theorem b2bEffect_n : (b2bEffect s).n = s.n := rfl
@[simp] theorem b2bEffect_bitlen : (b2bEffect s).bitlen = s.bitlen := rfl
@[simp] theorem b2bEffect_dlen : (b2bEffect s).dlen = BitVec.ofNat 8 (s.bitlen.toNat / 8) := rfl
@[simp] theorem b2bEffect_eclen : (b2bEffect s).eclen = s.eclen := rfl
@[simp] theorem b2bEffect_gdeg : (b2bEffect s).gdeg = s.gdeg := rfl
@[simp] theorem b2bEffect_result : (b2bEffect s).result = s.result := rfl
@[simp] theorem b2bEffect_surfw : (b2bEffect s).surfw = s.surfw := rfl
@[simp] theorem b2bEffect_surfh : (b2bEffect s).surfh = s.surfh := rfl
@[simp] theorem b2bEffect_cellsz : (b2bEffect s).cellsz = s.cellsz := rfl
@[simp] theorem b2bEffect_offx : (b2bEffect s).offx = s.offx := rfl
@[simp] theorem b2bEffect_offy : (b2bEffect s).offy = s.offy := rfl
@[simp] theorem b2bEffect_mem : (b2bEffect s).mem = memWriteList (cwAddr 0) (bitsToBytes (s.bitlen.toNat / 8) s.bitSequence) s.mem := rfl
@[simp] theorem b2bEffect_matrix : (b2bEffect s).matrix = s.matrix := rfl
@[simp] theorem b2bEffect_surf : (b2bEffect s).surf = s.surf := rfl
@[simp] theorem b2bEffect_pending : (b2bEffect s).pending = s.pending := rfl
@[simp] theorem b2bEffect_rdata : (b2bEffect s).rdata = s.rdata := rfl
@[simp] theorem b2bEffect_resetCount : (b2bEffect s).resetCount = s.resetCount := rfl

/-! ### xbitsEffect -/

@[simp] theorem xbitsEffect_cfg : (xbitsEffect s).cfg = s.cfg := rfl
@[simp] theorem xbitsEffect_gfvalid : (xbitsEffect s).gfvalid = s.gfvalid := rfl
@[simp] theorem xbitsEffect_unres : (xbitsEffect s).unres = s.unres := rfl
@[simp] theorem xbitsEffect_err : (xbitsEffect s).err = s.err := rfl
@[simp] theorem xbitsEffect_errinfo : (xbitsEffect s).errinfo = s.errinfo := rfl
@[simp] theorem xbitsEffect_plen : (xbitsEffect s).plen = s.plen := rfl
@[simp] theorem xbitsEffect_ver : (xbitsEffect s).ver = s.ver := rfl
@[simp] theorem xbitsEffect_n : (xbitsEffect s).n = s.n := rfl
@[simp] theorem xbitsEffect_bitlen : (xbitsEffect s).bitlen = BitVec.ofNat 11 (expand (s.dataCodewords ++ s.parityCodewords)).length := rfl
@[simp] theorem xbitsEffect_dlen : (xbitsEffect s).dlen = s.dlen := rfl
@[simp] theorem xbitsEffect_eclen : (xbitsEffect s).eclen = s.eclen := rfl
@[simp] theorem xbitsEffect_gdeg : (xbitsEffect s).gdeg = s.gdeg := rfl
@[simp] theorem xbitsEffect_result : (xbitsEffect s).result = s.result := rfl
@[simp] theorem xbitsEffect_surfw : (xbitsEffect s).surfw = s.surfw := rfl
@[simp] theorem xbitsEffect_surfh : (xbitsEffect s).surfh = s.surfh := rfl
@[simp] theorem xbitsEffect_cellsz : (xbitsEffect s).cellsz = s.cellsz := rfl
@[simp] theorem xbitsEffect_offx : (xbitsEffect s).offx = s.offx := rfl
@[simp] theorem xbitsEffect_offy : (xbitsEffect s).offy = s.offy := rfl
@[simp] theorem xbitsEffect_mem : (xbitsEffect s).mem = memWriteList (bitsAddr 0) ((expand (s.dataCodewords ++ s.parityCodewords)).map bitByte) s.mem := rfl
@[simp] theorem xbitsEffect_matrix : (xbitsEffect s).matrix = s.matrix := rfl
@[simp] theorem xbitsEffect_surf : (xbitsEffect s).surf = s.surf := rfl
@[simp] theorem xbitsEffect_pending : (xbitsEffect s).pending = s.pending := rfl
@[simp] theorem xbitsEffect_rdata : (xbitsEffect s).rdata = s.rdata := rfl
@[simp] theorem xbitsEffect_resetCount : (xbitsEffect s).resetCount = s.resetCount := rfl

/-! ### mnewEffect -/

@[simp] theorem mnewEffect_cfg (k : Nat) : (mnewEffect k s).cfg = s.cfg := rfl
@[simp] theorem mnewEffect_gfvalid (k : Nat) : (mnewEffect k s).gfvalid = s.gfvalid := rfl
@[simp] theorem mnewEffect_unres (k : Nat) : (mnewEffect k s).unres = s.unres := rfl
@[simp] theorem mnewEffect_err (k : Nat) : (mnewEffect k s).err = s.err := rfl
@[simp] theorem mnewEffect_errinfo (k : Nat) : (mnewEffect k s).errinfo = s.errinfo := rfl
@[simp] theorem mnewEffect_plen (k : Nat) : (mnewEffect k s).plen = s.plen := rfl
@[simp] theorem mnewEffect_ver (k : Nat) : (mnewEffect k s).ver = s.ver := rfl
@[simp] theorem mnewEffect_n (k : Nat) : (mnewEffect k s).n = BitVec.ofNat 6 k := rfl
@[simp] theorem mnewEffect_bitlen (k : Nat) : (mnewEffect k s).bitlen = s.bitlen := rfl
@[simp] theorem mnewEffect_dlen (k : Nat) : (mnewEffect k s).dlen = s.dlen := rfl
@[simp] theorem mnewEffect_eclen (k : Nat) : (mnewEffect k s).eclen = s.eclen := rfl
@[simp] theorem mnewEffect_gdeg (k : Nat) : (mnewEffect k s).gdeg = s.gdeg := rfl
@[simp] theorem mnewEffect_result (k : Nat) : (mnewEffect k s).result = s.result := rfl
@[simp] theorem mnewEffect_surfw (k : Nat) : (mnewEffect k s).surfw = s.surfw := rfl
@[simp] theorem mnewEffect_surfh (k : Nat) : (mnewEffect k s).surfh = s.surfh := rfl
@[simp] theorem mnewEffect_cellsz (k : Nat) : (mnewEffect k s).cellsz = s.cellsz := rfl
@[simp] theorem mnewEffect_offx (k : Nat) : (mnewEffect k s).offx = s.offx := rfl
@[simp] theorem mnewEffect_offy (k : Nat) : (mnewEffect k s).offy = s.offy := rfl
@[simp] theorem mnewEffect_mem (k : Nat) : (mnewEffect k s).mem = s.mem := rfl
@[simp] theorem mnewEffect_matrix (k : Nat) : (mnewEffect k s).matrix = newMatrix := rfl
@[simp] theorem mnewEffect_surf (k : Nat) : (mnewEffect k s).surf = s.surf := rfl
@[simp] theorem mnewEffect_pending (k : Nat) : (mnewEffect k s).pending = s.pending := rfl
@[simp] theorem mnewEffect_rdata (k : Nat) : (mnewEffect k s).rdata = s.rdata := rfl
@[simp] theorem mnewEffect_resetCount (k : Nat) : (mnewEffect k s).resetCount = s.resetCount := rfl

/-! ### sstampEffect -/

@[simp] theorem sstampEffect_cfg (v : Nat) : (sstampEffect v s).cfg = s.cfg := by simp only [sstampEffect]
@[simp] theorem sstampEffect_gfvalid (v : Nat) : (sstampEffect v s).gfvalid = s.gfvalid := by simp only [sstampEffect]
@[simp] theorem sstampEffect_unres (v : Nat) : (sstampEffect v s).unres = s.unres := by simp only [sstampEffect]
@[simp] theorem sstampEffect_err (v : Nat) : (sstampEffect v s).err = s.err := by simp only [sstampEffect]
@[simp] theorem sstampEffect_errinfo (v : Nat) : (sstampEffect v s).errinfo = s.errinfo := by simp only [sstampEffect]
@[simp] theorem sstampEffect_plen (v : Nat) : (sstampEffect v s).plen = s.plen := by simp only [sstampEffect]
@[simp] theorem sstampEffect_ver (v : Nat) : (sstampEffect v s).ver = s.ver := by simp only [sstampEffect]
@[simp] theorem sstampEffect_n (v : Nat) : (sstampEffect v s).n = s.n := by simp only [sstampEffect]
@[simp] theorem sstampEffect_bitlen (v : Nat) : (sstampEffect v s).bitlen = s.bitlen := by simp only [sstampEffect]
@[simp] theorem sstampEffect_dlen (v : Nat) : (sstampEffect v s).dlen = s.dlen := by simp only [sstampEffect]
@[simp] theorem sstampEffect_eclen (v : Nat) : (sstampEffect v s).eclen = s.eclen := by simp only [sstampEffect]
@[simp] theorem sstampEffect_gdeg (v : Nat) : (sstampEffect v s).gdeg = s.gdeg := by simp only [sstampEffect]
@[simp] theorem sstampEffect_result (v : Nat) : (sstampEffect v s).result = s.result := by simp only [sstampEffect]
@[simp] theorem sstampEffect_surfw (v : Nat) : (sstampEffect v s).surfw = s.surfw := by simp only [sstampEffect]
@[simp] theorem sstampEffect_surfh (v : Nat) : (sstampEffect v s).surfh = s.surfh := by simp only [sstampEffect]
@[simp] theorem sstampEffect_cellsz (v : Nat) : (sstampEffect v s).cellsz = s.cellsz := by simp only [sstampEffect]
@[simp] theorem sstampEffect_offx (v : Nat) : (sstampEffect v s).offx = s.offx := by simp only [sstampEffect]
@[simp] theorem sstampEffect_offy (v : Nat) : (sstampEffect v s).offy = s.offy := by simp only [sstampEffect]
@[simp] theorem sstampEffect_mem (v : Nat) : (sstampEffect v s).mem = s.mem := by simp only [sstampEffect]
@[simp] theorem sstampEffect_matrix (v : Nat) : (sstampEffect v s).matrix = stampStructural s.cfg.timingEvenDark v s.matrix := by simp only [sstampEffect]
@[simp] theorem sstampEffect_surf (v : Nat) : (sstampEffect v s).surf = s.surf := by simp only [sstampEffect]
@[simp] theorem sstampEffect_pending (v : Nat) : (sstampEffect v s).pending = s.pending := by simp only [sstampEffect]
@[simp] theorem sstampEffect_rdata (v : Nat) : (sstampEffect v s).rdata = s.rdata := by simp only [sstampEffect]
@[simp] theorem sstampEffect_resetCount (v : Nat) : (sstampEffect v s).resetCount = s.resetCount := by simp only [sstampEffect]

/-! ### placeEffect -/

@[simp] theorem placeEffect_cfg : (placeEffect s).cfg = s.cfg := rfl
@[simp] theorem placeEffect_gfvalid : (placeEffect s).gfvalid = s.gfvalid := rfl
@[simp] theorem placeEffect_unres : (placeEffect s).unres = s.unres := rfl
@[simp] theorem placeEffect_err : (placeEffect s).err = s.err := rfl
@[simp] theorem placeEffect_errinfo : (placeEffect s).errinfo = s.errinfo := rfl
@[simp] theorem placeEffect_plen : (placeEffect s).plen = s.plen := rfl
@[simp] theorem placeEffect_ver : (placeEffect s).ver = s.ver := rfl
@[simp] theorem placeEffect_n : (placeEffect s).n = s.n := rfl
@[simp] theorem placeEffect_bitlen : (placeEffect s).bitlen = s.bitlen := rfl
@[simp] theorem placeEffect_dlen : (placeEffect s).dlen = s.dlen := rfl
@[simp] theorem placeEffect_eclen : (placeEffect s).eclen = s.eclen := rfl
@[simp] theorem placeEffect_gdeg : (placeEffect s).gdeg = s.gdeg := rfl
@[simp] theorem placeEffect_result : (placeEffect s).result = s.result := rfl
@[simp] theorem placeEffect_surfw : (placeEffect s).surfw = s.surfw := rfl
@[simp] theorem placeEffect_surfh : (placeEffect s).surfh = s.surfh := rfl
@[simp] theorem placeEffect_cellsz : (placeEffect s).cellsz = s.cellsz := rfl
@[simp] theorem placeEffect_offx : (placeEffect s).offx = s.offx := rfl
@[simp] theorem placeEffect_offy : (placeEffect s).offy = s.offy := rfl
@[simp] theorem placeEffect_mem : (placeEffect s).mem = s.mem := rfl
@[simp] theorem placeEffect_matrix : (placeEffect s).matrix = (placeData s.n.toNat s.bitSequence s.matrix).2 := rfl
@[simp] theorem placeEffect_surf : (placeEffect s).surf = s.surf := rfl
@[simp] theorem placeEffect_pending : (placeEffect s).pending = s.pending := rfl
@[simp] theorem placeEffect_rdata : (placeEffect s).rdata = s.rdata := rfl
@[simp] theorem placeEffect_resetCount : (placeEffect s).resetCount = s.resetCount := rfl

/-! ### maskEffect -/

@[simp] theorem maskEffect_cfg : (maskEffect s).cfg = s.cfg := rfl
@[simp] theorem maskEffect_gfvalid : (maskEffect s).gfvalid = s.gfvalid := rfl
@[simp] theorem maskEffect_unres : (maskEffect s).unres = anyUnresolved s.n.toNat s.matrix := rfl
@[simp] theorem maskEffect_err : (maskEffect s).err = s.err := rfl
@[simp] theorem maskEffect_errinfo : (maskEffect s).errinfo = s.errinfo := rfl
@[simp] theorem maskEffect_plen : (maskEffect s).plen = s.plen := rfl
@[simp] theorem maskEffect_ver : (maskEffect s).ver = s.ver := rfl
@[simp] theorem maskEffect_n : (maskEffect s).n = s.n := rfl
@[simp] theorem maskEffect_bitlen : (maskEffect s).bitlen = s.bitlen := rfl
@[simp] theorem maskEffect_dlen : (maskEffect s).dlen = s.dlen := rfl
@[simp] theorem maskEffect_eclen : (maskEffect s).eclen = s.eclen := rfl
@[simp] theorem maskEffect_gdeg : (maskEffect s).gdeg = s.gdeg := rfl
@[simp] theorem maskEffect_result : (maskEffect s).result = s.result := rfl
@[simp] theorem maskEffect_surfw : (maskEffect s).surfw = s.surfw := rfl
@[simp] theorem maskEffect_surfh : (maskEffect s).surfh = s.surfh := rfl
@[simp] theorem maskEffect_cellsz : (maskEffect s).cellsz = s.cellsz := rfl
@[simp] theorem maskEffect_offx : (maskEffect s).offx = s.offx := rfl
@[simp] theorem maskEffect_offy : (maskEffect s).offy = s.offy := rfl
@[simp] theorem maskEffect_mem : (maskEffect s).mem = s.mem := rfl
@[simp] theorem maskEffect_matrix : (maskEffect s).matrix = applyMask s.n.toNat s.matrix := rfl
@[simp] theorem maskEffect_surf : (maskEffect s).surf = s.surf := rfl
@[simp] theorem maskEffect_pending : (maskEffect s).pending = s.pending := rfl
@[simp] theorem maskEffect_rdata : (maskEffect s).rdata = s.rdata := rfl
@[simp] theorem maskEffect_resetCount : (maskEffect s).resetCount = s.resetCount := rfl

/-! ### drawEffect -/

@[simp] theorem drawEffect_cfg (w h : Nat) : (drawEffect w h s).cfg = s.cfg := rfl
@[simp] theorem drawEffect_gfvalid (w h : Nat) : (drawEffect w h s).gfvalid = s.gfvalid := rfl
@[simp] theorem drawEffect_unres (w h : Nat) : (drawEffect w h s).unres = s.unres := rfl
@[simp] theorem drawEffect_err (w h : Nat) : (drawEffect w h s).err = s.err := rfl
@[simp] theorem drawEffect_errinfo (w h : Nat) : (drawEffect w h s).errinfo = s.errinfo := rfl
@[simp] theorem drawEffect_plen (w h : Nat) : (drawEffect w h s).plen = s.plen := rfl
@[simp] theorem drawEffect_ver (w h : Nat) : (drawEffect w h s).ver = s.ver := rfl
@[simp] theorem drawEffect_n (w h : Nat) : (drawEffect w h s).n = s.n := rfl
@[simp] theorem drawEffect_bitlen (w h : Nat) : (drawEffect w h s).bitlen = s.bitlen := rfl
@[simp] theorem drawEffect_dlen (w h : Nat) : (drawEffect w h s).dlen = s.dlen := rfl
@[simp] theorem drawEffect_eclen (w h : Nat) : (drawEffect w h s).eclen = s.eclen := rfl
@[simp] theorem drawEffect_gdeg (w h : Nat) : (drawEffect w h s).gdeg = s.gdeg := rfl
@[simp] theorem drawEffect_result (w h : Nat) : (drawEffect w h s).result = s.result := rfl
@[simp] theorem drawEffect_surfw (w h : Nat) : (drawEffect w h s).surfw = BitVec.ofNat 12 w := rfl
@[simp] theorem drawEffect_surfh (w h : Nat) : (drawEffect w h s).surfh = BitVec.ofNat 12 h := rfl
@[simp] theorem drawEffect_mem (w h : Nat) : (drawEffect w h s).mem = s.mem := rfl
@[simp] theorem drawEffect_matrix (w h : Nat) : (drawEffect w h s).matrix = s.matrix := rfl
@[simp] theorem drawEffect_pending (w h : Nat) : (drawEffect w h s).pending = s.pending := rfl
@[simp] theorem drawEffect_rdata (w h : Nat) : (drawEffect w h s).rdata = s.rdata := rfl
@[simp] theorem drawEffect_resetCount (w h : Nat) : (drawEffect w h s).resetCount = s.resetCount := rfl

/-! ### ensureGf -/

@[simp] theorem ensureGf_cfg : (ensureGf s).cfg = s.cfg := by unfold ensureGf; split <;> rfl
@[simp] theorem ensureGf_gfvalid : (ensureGf s).gfvalid = true := by unfold ensureGf; split <;> simp_all
@[simp] theorem ensureGf_unres : (ensureGf s).unres = s.unres := by unfold ensureGf; split <;> rfl
@[simp] theorem ensureGf_err : (ensureGf s).err = s.err := by unfold ensureGf; split <;> rfl
@[simp] theorem ensureGf_errinfo : (ensureGf s).errinfo = s.errinfo := by unfold ensureGf; split <;> rfl
@[simp] theorem ensureGf_plen : (ensureGf s).plen = s.plen := by unfold ensureGf; split <;> rfl
@[simp] theorem ensureGf_ver : (ensureGf s).ver = s.ver := by unfold ensureGf; split <;> rfl
@[simp] theorem ensureGf_n : (ensureGf s).n = s.n := by unfold ensureGf; split <;> rfl
@[simp] theorem ensureGf_bitlen : (ensureGf s).bitlen = s.bitlen := by unfold ensureGf; split <;> rfl
@[simp] theorem ensureGf_dlen : (ensureGf s).dlen = s.dlen := by unfold ensureGf; split <;> rfl
@[simp] theorem ensureGf_eclen : (ensureGf s).eclen = s.eclen := by unfold ensureGf; split <;> rfl
@[simp] theorem ensureGf_gdeg : (ensureGf s).gdeg = s.gdeg := by unfold ensureGf; split <;> rfl
@[simp] theorem ensureGf_result : (ensureGf s).result = s.result := by unfold ensureGf; split <;> rfl
@[simp] theorem ensureGf_surfw : (ensureGf s).surfw = s.surfw := by unfold ensureGf; split <;> rfl
@[simp] theorem ensureGf_surfh : (ensureGf s).surfh = s.surfh := by unfold ensureGf; split <;> rfl
@[simp] theorem ensureGf_cellsz : (ensureGf s).cellsz = s.cellsz := by unfold ensureGf; split <;> rfl
@[simp] theorem ensureGf_offx : (ensureGf s).offx = s.offx := by unfold ensureGf; split <;> rfl
@[simp] theorem ensureGf_offy : (ensureGf s).offy = s.offy := by unfold ensureGf; split <;> rfl
@[simp] theorem ensureGf_matrix : (ensureGf s).matrix = s.matrix := by unfold ensureGf; split <;> rfl
@[simp] theorem ensureGf_surf : (ensureGf s).surf = s.surf := by unfold ensureGf; split <;> rfl
@[simp] theorem ensureGf_pending : (ensureGf s).pending = s.pending := by unfold ensureGf; split <;> rfl
@[simp] theorem ensureGf_rdata : (ensureGf s).rdata = s.rdata := by unfold ensureGf; split <;> rfl
@[simp] theorem ensureGf_resetCount : (ensureGf s).resetCount = s.resetCount := by unfold ensureGf; split <;> rfl

/-! ### rsencEffect -/

@[simp] theorem rsencEffect_cfg (ec : Nat) : (rsencEffect ec s).cfg = s.cfg := by simp [rsencEffect]
@[simp] theorem rsencEffect_gfvalid (ec : Nat) : (rsencEffect ec s).gfvalid = true := by simp [rsencEffect]
@[simp] theorem rsencEffect_unres (ec : Nat) : (rsencEffect ec s).unres = s.unres := by simp [rsencEffect]
@[simp] theorem rsencEffect_err (ec : Nat) : (rsencEffect ec s).err = s.err := by simp [rsencEffect]
@[simp] theorem rsencEffect_errinfo (ec : Nat) : (rsencEffect ec s).errinfo = s.errinfo := by simp [rsencEffect]
@[simp] theorem rsencEffect_plen (ec : Nat) : (rsencEffect ec s).plen = s.plen := by simp [rsencEffect]
@[simp] theorem rsencEffect_ver (ec : Nat) : (rsencEffect ec s).ver = s.ver := by simp [rsencEffect]
@[simp] theorem rsencEffect_n (ec : Nat) : (rsencEffect ec s).n = s.n := by simp [rsencEffect]
@[simp] theorem rsencEffect_bitlen (ec : Nat) : (rsencEffect ec s).bitlen = s.bitlen := by simp [rsencEffect]
@[simp] theorem rsencEffect_dlen (ec : Nat) : (rsencEffect ec s).dlen = s.dlen := by simp [rsencEffect]
@[simp] theorem rsencEffect_eclen (ec : Nat) : (rsencEffect ec s).eclen = BitVec.ofNat 5 ec := by simp [rsencEffect]
@[simp] theorem rsencEffect_gdeg (ec : Nat) : (rsencEffect ec s).gdeg = BitVec.ofNat 5 ec := by simp [rsencEffect]
@[simp] theorem rsencEffect_result (ec : Nat) : (rsencEffect ec s).result = s.result := by simp [rsencEffect]
@[simp] theorem rsencEffect_surfw (ec : Nat) : (rsencEffect ec s).surfw = s.surfw := by simp [rsencEffect]
@[simp] theorem rsencEffect_surfh (ec : Nat) : (rsencEffect ec s).surfh = s.surfh := by simp [rsencEffect]
@[simp] theorem rsencEffect_cellsz (ec : Nat) : (rsencEffect ec s).cellsz = s.cellsz := by simp [rsencEffect]
@[simp] theorem rsencEffect_offx (ec : Nat) : (rsencEffect ec s).offx = s.offx := by simp [rsencEffect]
@[simp] theorem rsencEffect_offy (ec : Nat) : (rsencEffect ec s).offy = s.offy := by simp [rsencEffect]
@[simp] theorem rsencEffect_matrix (ec : Nat) : (rsencEffect ec s).matrix = s.matrix := by simp [rsencEffect]
@[simp] theorem rsencEffect_surf (ec : Nat) : (rsencEffect ec s).surf = s.surf := by simp [rsencEffect]
@[simp] theorem rsencEffect_pending (ec : Nat) : (rsencEffect ec s).pending = s.pending := by simp [rsencEffect]
@[simp] theorem rsencEffect_rdata (ec : Nat) : (rsencEffect ec s).rdata = s.rdata := by simp [rsencEffect]
@[simp] theorem rsencEffect_resetCount (ec : Nat) : (rsencEffect ec s).resetCount = s.resetCount := by simp [rsencEffect]

/-! ### encodeFront -/

@[simp] theorem encodeFront_cfg : (encodeFront s).cfg = s.cfg := by simp [encodeFront]
@[simp] theorem encodeFront_gfvalid : (encodeFront s).gfvalid = s.gfvalid := by simp [encodeFront]
@[simp] theorem encodeFront_unres : (encodeFront s).unres = s.unres := by simp [encodeFront]
@[simp] theorem encodeFront_err : (encodeFront s).err = s.err := by simp [encodeFront]
@[simp] theorem encodeFront_errinfo : (encodeFront s).errinfo = s.errinfo := by simp [encodeFront]
@[simp] theorem encodeFront_plen : (encodeFront s).plen = s.plen := by simp [encodeFront]
@[simp] theorem encodeFront_ver : (encodeFront s).ver = BitVec.ofNat 3 (chooseVersion s.plen.toNat) := by simp [encodeFront]
@[simp] theorem encodeFront_n : (encodeFront s).n = BitVec.ofNat 6 (side (chooseVersion s.plen.toNat)) := by simp [encodeFront]
@[simp] theorem encodeFront_bitlen : (encodeFront s).bitlen = s.bitlen := by simp [encodeFront]
@[simp] theorem encodeFront_dlen : (encodeFront s).dlen = s.dlen := by simp [encodeFront]
@[simp] theorem encodeFront_eclen : (encodeFront s).eclen = s.eclen := by simp [encodeFront]
@[simp] theorem encodeFront_gdeg : (encodeFront s).gdeg = s.gdeg := by simp [encodeFront]
@[simp] theorem encodeFront_result : (encodeFront s).result = BitVec.ofNat 8 (chooseVersion s.plen.toNat) := by simp [encodeFront]
@[simp] theorem encodeFront_surfw : (encodeFront s).surfw = s.surfw := by simp [encodeFront]
@[simp] theorem encodeFront_surfh : (encodeFront s).surfh = s.surfh := by simp [encodeFront]
@[simp] theorem encodeFront_cellsz : (encodeFront s).cellsz = s.cellsz := by simp [encodeFront]
@[simp] theorem encodeFront_offx : (encodeFront s).offx = s.offx := by simp [encodeFront]
@[simp] theorem encodeFront_offy : (encodeFront s).offy = s.offy := by simp [encodeFront]
@[simp] theorem encodeFront_mem : (encodeFront s).mem = s.mem := by simp [encodeFront]
@[simp] theorem encodeFront_matrix : (encodeFront s).matrix = stampStructural s.cfg.timingEvenDark (chooseVersion s.plen.toNat) newMatrix := by simp [encodeFront]
@[simp] theorem encodeFront_surf : (encodeFront s).surf = s.surf := by simp [encodeFront]
@[simp] theorem encodeFront_pending : (encodeFront s).pending = s.pending := by simp [encodeFront]
@[simp] theorem encodeFront_rdata : (encodeFront s).rdata = s.rdata := by simp [encodeFront]
@[simp] theorem encodeFront_resetCount : (encodeFront s).resetCount = s.resetCount := by simp [encodeFront]

/-! ### encodeBack -/

@[simp] theorem encodeBack_cfg (v : Nat) (b : List Bool) : (encodeBack v b s).cfg = s.cfg := by simp [encodeBack]
@[simp] theorem encodeBack_gfvalid (v : Nat) (b : List Bool) : (encodeBack v b s).gfvalid = true := by simp [encodeBack]
@[simp] theorem encodeBack_err (v : Nat) (b : List Bool) : (encodeBack v b s).err = s.err := by simp [encodeBack]
@[simp] theorem encodeBack_errinfo (v : Nat) (b : List Bool) : (encodeBack v b s).errinfo = s.errinfo := by simp [encodeBack]
@[simp] theorem encodeBack_plen (v : Nat) (b : List Bool) : (encodeBack v b s).plen = s.plen := by simp [encodeBack]
@[simp] theorem encodeBack_ver (v : Nat) (b : List Bool) : (encodeBack v b s).ver = s.ver := by simp [encodeBack]
@[simp] theorem encodeBack_n (v : Nat) (b : List Bool) : (encodeBack v b s).n = s.n := by simp [encodeBack]
@[simp] theorem encodeBack_eclen (v : Nat) (b : List Bool) : (encodeBack v b s).eclen = BitVec.ofNat 5 (ecCount v) := by simp [encodeBack]
@[simp] theorem encodeBack_gdeg (v : Nat) (b : List Bool) : (encodeBack v b s).gdeg = BitVec.ofNat 5 (ecCount v) := by simp [encodeBack]
@[simp] theorem encodeBack_result (v : Nat) (b : List Bool) : (encodeBack v b s).result = s.result := by simp [encodeBack]
@[simp] theorem encodeBack_surfw (v : Nat) (b : List Bool) : (encodeBack v b s).surfw = s.surfw := by simp [encodeBack]
@[simp] theorem encodeBack_surfh (v : Nat) (b : List Bool) : (encodeBack v b s).surfh = s.surfh := by simp [encodeBack]
@[simp] theorem encodeBack_cellsz (v : Nat) (b : List Bool) : (encodeBack v b s).cellsz = s.cellsz := by simp [encodeBack]
@[simp] theorem encodeBack_offx (v : Nat) (b : List Bool) : (encodeBack v b s).offx = s.offx := by simp [encodeBack]
@[simp] theorem encodeBack_offy (v : Nat) (b : List Bool) : (encodeBack v b s).offy = s.offy := by simp [encodeBack]
@[simp] theorem encodeBack_surf (v : Nat) (b : List Bool) : (encodeBack v b s).surf = s.surf := by simp [encodeBack]
@[simp] theorem encodeBack_pending (v : Nat) (b : List Bool) : (encodeBack v b s).pending = s.pending := by simp [encodeBack]
@[simp] theorem encodeBack_rdata (v : Nat) (b : List Bool) : (encodeBack v b s).rdata = s.rdata := by simp [encodeBack]
@[simp] theorem encodeBack_resetCount (v : Nat) (b : List Bool) : (encodeBack v b s).resetCount = s.resetCount := by simp [encodeBack]

end

end Sys2Proof.Machine
end

