-- ==== Sys2Proof/Laws/Memory.lean ====
section
/-! SUPPORT. The laws of sparse maps, of the memory of buffers, of the matrix store and of the surface: a read after a write,
and that every operation keeps the canonical form. -/

-- One theorem at a time: each thread of Lean's reserves address space, which check.sh limits.
set_option Elab.async false

namespace Sys2Proof.Machine

/-! ### Sparse maps -/

section SparseMaps
variable {α : Type}

@[simp] theorem lookupKey_nil (k : Nat) : lookupKey k ([] : List (Nat × α)) = none := rfl

theorem beq_eq_decide (a b : Nat) : Nat.beq a b = decide (a = b) := by
  rw [Bool.eq_iff_iff, Nat.beq_eq, decide_eq_true_eq]

theorem blt_eq_decide (a b : Nat) : Nat.blt a b = decide (a < b) := by
  rw [Bool.eq_iff_iff, decide_eq_true_eq, Nat.blt, Nat.ble_eq, Nat.succ_le_iff]

theorem lookupKey_cons (k : Nat) (e : Nat × α) (l : List (Nat × α)) :
    lookupKey k (e :: l) = if e.1 = k then some e.2 else lookupKey k l := by
  show (bif Nat.beq e.1 k then some e.2 else lookupKey k l) = _
  rw [beq_eq_decide, Bool.cond_decide]

@[simp] theorem insertKey_nil (k : Nat) (v : α) : insertKey k v [] = [(k, v)] := rfl

theorem insertKey_cons (k : Nat) (v : α) (e : Nat × α) (l : List (Nat × α)) :
    insertKey k v (e :: l) =
      if e.1 < k then e :: insertKey k v l else if e.1 = k then (k, v) :: l else (k, v) :: e :: l := by
  show (bif Nat.blt e.1 k then e :: insertKey k v l
    else bif Nat.beq e.1 k then (k, v) :: l else (k, v) :: e :: l) = _
  rw [beq_eq_decide, blt_eq_decide, Bool.cond_decide, Bool.cond_decide]

theorem lookupKey_insertKey (k j : Nat) (v : α) (l : List (Nat × α)) :
    lookupKey j (insertKey k v l) = if k = j then some v else lookupKey j l := by
  induction l with
  | nil => simp [lookupKey_cons]
  | cons e rest ih =>
    rw [insertKey_cons]
    split
    · simp only [lookupKey_cons, ih]; split <;> split <;> first | rfl | omega
    · split
      · rename_i h; subst h; simp only [lookupKey_cons]; split <;> rfl
      · simp only [lookupKey_cons]

@[simp] theorem lookupKey_insertKey_same (k : Nat) (v : α) (l : List (Nat × α)) :
    lookupKey k (insertKey k v l) = some v := by simp [lookupKey_insertKey]

theorem lookupKey_insertKey_other {k j : Nat} (h : k ≠ j) (v : α) (l : List (Nat × α)) :
    lookupKey j (insertKey k v l) = lookupKey j l := by simp [lookupKey_insertKey, h]

theorem lookupKey_eraseKey (k j : Nat) (l : List (Nat × α)) :
    lookupKey j (eraseKey k l) = if k = j then none else lookupKey j l := by
  induction l with
  | nil => simp [eraseKey]
  | cons e rest ih =>
    obtain ⟨a, u⟩ := e
    simp only [eraseKey] at ih
    simp only [eraseKey, List.filter_cons]
    by_cases hk : a = k
    · subst hk
      simp only [bne_self_eq_false, Bool.false_eq_true, if_false, ih, lookupKey_cons]
      split <;> rfl
    · simp only [bne_iff_ne, ne_eq, hk, not_false_eq_true, if_true, lookupKey_cons, ih]
      split <;> split <;> simp_all

/-- Every key of a rising list after the first is above the first. -/
theorem risingKeys_cons {a : Nat} {v : α} {l : List (Nat × α)} :
    risingKeys ((a, v) :: l) = true ↔ (∀ e ∈ l, a < e.1) ∧ risingKeys l = true := by
  induction l generalizing a v with
  | nil => simp [risingKeys]
  | cons e rest ih =>
    obtain ⟨b, u⟩ := e
    simp only [risingKeys, Bool.and_eq_true, decide_eq_true_eq]
    constructor
    · rintro ⟨hab, hr⟩
      refine ⟨?_, hr⟩
      have hb := (ih.mp hr).1
      intro e he
      rcases List.mem_cons.mp he with rfl | he
      · exact hab
      · exact Nat.lt_trans hab (hb e he)
    · rintro ⟨hall, hr⟩
      exact ⟨hall (b, u) (by simp), hr⟩

theorem mem_insertKey {k : Nat} {v : α} {l : List (Nat × α)} {e : Nat × α} (h : e ∈ insertKey k v l) :
    e = (k, v) ∨ e ∈ l := by
  induction l with
  | nil => simpa using h
  | cons x rest ih =>
    rw [insertKey_cons] at h
    split at h
    · rcases List.mem_cons.mp h with h | h
      · exact .inr (by simp [h])
      · exact (ih h).imp id (List.mem_cons_of_mem _)
    · split at h
      · rcases List.mem_cons.mp h with h | h
        · exact .inl h
        · exact .inr (List.mem_cons_of_mem _ h)
      · simpa using h

theorem risingKeys_insertKey (k : Nat) (v : α) {l : List (Nat × α)} (h : risingKeys l = true) :
    risingKeys (insertKey k v l) = true := by
  induction l with
  | nil => rfl
  | cons e rest ih =>
    obtain ⟨a, u⟩ := e
    obtain ⟨hlt, hr⟩ := risingKeys_cons.mp h
    rw [insertKey_cons]
    split
    · rename_i hka
      refine risingKeys_cons.mpr ⟨?_, ih hr⟩
      intro e he
      rcases mem_insertKey he with rfl | he
      · exact hka
      · exact hlt e he
    · split
      · rename_i hka
        simp only at hka
        subst hka
        exact risingKeys_cons.mpr ⟨hlt, hr⟩
      · rename_i h1 h2
        simp only at h1 h2
        refine risingKeys_cons.mpr ⟨?_, h⟩
        intro e he
        rcases List.mem_cons.mp he with rfl | he
        · simp only; omega
        · have := hlt e he; omega

theorem risingKeys_filter (p : Nat × α → Bool) {l : List (Nat × α)} (h : risingKeys l = true) :
    risingKeys (l.filter p) = true := by
  induction l with
  | nil => rfl
  | cons e rest ih =>
    obtain ⟨a, u⟩ := e
    obtain ⟨hlt, hr⟩ := risingKeys_cons.mp h
    simp only [List.filter_cons]
    split
    · exact risingKeys_cons.mpr ⟨fun e he => hlt e (List.mem_filter.mp he).1, ih hr⟩
    · exact ih hr

theorem risingKeys_eraseKey (k : Nat) {l : List (Nat × α)} (h : risingKeys l = true) :
    risingKeys (eraseKey k l) = true := risingKeys_filter _ h

/-- Two rising lists that answer every key alike are equal: the form is canonical. -/
theorem risingKeys_ext {l l' : List (Nat × α)} (h : risingKeys l = true) (h' : risingKeys l' = true)
    (heq : ∀ k, lookupKey k l = lookupKey k l') : l = l' := by
  have below : ∀ (k : Nat) (l : List (Nat × α)), (∀ e ∈ l, k < e.1) → lookupKey k l = none := by
    intro k l hl
    induction l with
    | nil => rfl
    | cons e rest ih =>
      obtain ⟨a, u⟩ := e
      have : k < a := hl (a, u) (by simp)
      simp only [lookupKey_cons, show ¬ a = k by omega, if_false]
      exact ih fun e he => hl e (List.mem_cons_of_mem _ he)
  induction l generalizing l' with
  | nil =>
    cases l' with
    | nil => rfl
    | cons e r => obtain ⟨a, u⟩ := e; simpa [lookupKey_cons] using heq a
  | cons e rest ih =>
    obtain ⟨a, u⟩ := e
    obtain ⟨hlt, hr⟩ := risingKeys_cons.mp h
    cases l' with
    | nil => simpa [lookupKey_cons] using heq a
    | cons e' rest' =>
      obtain ⟨b, w⟩ := e'
      obtain ⟨hlt', hr'⟩ := risingKeys_cons.mp h'
      have hab : a = b := by
        rcases Nat.lt_trichotomy a b with hab | hab | hab
        · have := heq a
          rw [below a ((b, w) :: rest')] at this
          · simp [lookupKey_cons] at this
          · intro e he
            rcases List.mem_cons.mp he with rfl | he
            · exact hab
            · exact Nat.lt_trans hab (hlt' e he)
        · exact hab
        · have := heq b
          rw [below b ((a, u) :: rest)] at this
          · simp [lookupKey_cons] at this
          · intro e he
            rcases List.mem_cons.mp he with rfl | he
            · exact hab
            · exact Nat.lt_trans hab (hlt e he)
      subst hab
      have huw : u = w := by simpa [lookupKey_cons] using heq a
      subst huw
      congr 1
      refine ih hr hr' fun k => ?_
      by_cases hk : a = k
      · subst hk; rw [below a rest hlt, below a rest' hlt']
      · simpa [lookupKey_cons, hk] using heq k

end SparseMaps

/-! ### The memory of buffers -/

/-- A write decides every address: the one written, and no other. -/
theorem memRead_memWrite (a b : Nat) (v : Byte) (m : Memory) :
    memRead (memWrite a v m) b = if a = b then some v else memRead m b := by
  unfold memWrite
  split
  · rename_i h
    have h : Memory.absent a = some v := by simpa using h
    simp only [memRead, lookupKey_eraseKey]
    by_cases hab : a = b
    · subst hab; simp [h]
    · simp [hab]
  · simp only [memRead, lookupKey_insertKey]
    by_cases hab : a = b <;> simp [hab]

@[simp] theorem memRead_memWrite_same (a : Nat) (v : Byte) (m : Memory) :
    memRead (memWrite a v m) a = some v := by simp [memRead_memWrite]

theorem memRead_memWrite_other {a b : Nat} (h : a ≠ b) (v : Byte) (m : Memory) :
    memRead (memWrite a v m) b = memRead m b := by simp [memRead_memWrite, h]

/-- Consecutive writes decide every address: those of the list, and no other. -/
theorem memRead_memWriteList (vs : List Byte) (a b : Nat) (m : Memory) :
    memRead (memWriteList a vs m) b =
      if a ≤ b ∧ b < a + vs.length then vs[b - a]? else memRead m b := by
  induction vs generalizing a with
  | nil => rw [if_neg (by simp)]; rfl
  | cons v vs ih =>
    simp only [memWriteList, ih, memRead_memWrite, List.length_cons]
    by_cases h2 : a = b
    · subst h2; simp
    · rw [if_neg h2]
      by_cases h1 : a + 1 ≤ b ∧ b < a + 1 + vs.length
      · rw [if_pos h1, if_pos (by omega)]
        rw [show b - a = (b - (a + 1)) + 1 by omega, List.getElem?_cons_succ]
      · rw [if_neg h1, if_neg (by omega)]

/-- The written values, in order. -/
theorem memRead_memWriteList_at {vs : List Byte} {i : Nat} (h : i < vs.length) (a : Nat) (m : Memory) :
    memRead (memWriteList a vs m) (a + i) = some vs[i] := by
  rw [memRead_memWriteList, if_pos (by omega), Nat.add_sub_cancel_left, List.getElem?_eq_getElem h]

/-- Addresses outside the list's range. -/
theorem memRead_memWriteList_outside {vs : List Byte} {a b : Nat} (h : b < a ∨ a + vs.length ≤ b) (m : Memory) :
    memRead (memWriteList a vs m) b = memRead m b := by
  rw [memRead_memWriteList, if_neg (by omega)]

/-! ### The canonical form of the memory -/

theorem Memory.wf_iff {m : Memory} :
    m.wf = true ↔ risingKeys m = true ∧ ∀ e ∈ m, Memory.absent e.1 ≠ some e.2 := by
  simp [Memory.wf]

theorem Memory.wf_memWrite (a : Nat) (v : Byte) {m : Memory} (h : m.wf = true) : (memWrite a v m).wf = true := by
  obtain ⟨hr, ha⟩ := Memory.wf_iff.mp h
  refine Memory.wf_iff.mpr ?_
  unfold memWrite
  split
  · exact ⟨risingKeys_eraseKey a hr, fun e he => ha e (List.mem_filter.mp he).1⟩
  · rename_i hne
    refine ⟨risingKeys_insertKey a v hr, fun e he => ?_⟩
    rcases mem_insertKey he with rfl | he
    · simpa using hne
    · exact ha e he

theorem Memory.wf_memWriteList (vs : List Byte) (a : Nat) {m : Memory} (h : m.wf = true) :
    (memWriteList a vs m).wf = true := by
  induction vs generalizing a with
  | nil => exact h
  | cons v vs ih => exact Memory.wf_memWrite a v (ih (a + 1))

/-- What a write can list: the address written, or one listed before. -/
theorem lookupKey_memWrite {a b : Nat} {v u : Byte} {m : Memory} (h : lookupKey b (memWrite a v m) = some u) :
    (b = a ∧ u = v) ∨ lookupKey b m = some u := by
  unfold memWrite at h
  split at h
  · rw [lookupKey_eraseKey] at h; split at h
    · simp at h
    · exact .inr h
  · rw [lookupKey_insertKey] at h; split at h
    · rename_i hab; exact .inl ⟨hab.symm, by simpa using h.symm⟩
    · exact .inr h

theorem lookupKey_memWriteList {vs : List Byte} {a b : Nat} {u : Byte} {m : Memory}
    (h : lookupKey b (memWriteList a vs m) = some u) :
    (a ≤ b ∧ b < a + vs.length ∧ u ∈ vs) ∨ lookupKey b m = some u := by
  induction vs generalizing a with
  | nil => exact .inr h
  | cons v vs ih =>
    rcases lookupKey_memWrite h with ⟨rfl, rfl⟩ | h
    · exact .inl ⟨by omega, by simp, by simp⟩
    · rcases ih h with ⟨h1, h2, h3⟩ | h
      · exact .inl ⟨by omega, by simp; omega, List.mem_cons_of_mem _ h3⟩
      · exact .inr h

/-! ### Elements of a state -/

@[simp] theorem State.byteAt_setByte_same (a : Nat) (v : Byte) (s : State) : (s.setByte a v).byteAt a = v := by
  simp [State.byteAt, State.setByte]

theorem State.byteAt_setByte_other {a b : Nat} (h : a ≠ b) (v : Byte) (s : State) :
    (s.setByte a v).byteAt b = s.byteAt b := by
  simp [State.byteAt, State.setByte, memRead_memWrite_other h]

theorem State.byteAt_setBytes_at {vs : List Byte} {i : Nat} (h : i < vs.length) (a : Nat) (s : State) :
    (s.setBytes a vs).byteAt (a + i) = vs[i] := by
  simp [State.byteAt, State.setBytes, memRead_memWriteList_at h]

theorem State.byteAt_setBytes_outside {vs : List Byte} {a b : Nat} (h : b < a ∨ a + vs.length ≤ b) (s : State) :
    (s.setBytes a vs).byteAt b = s.byteAt b := by
  simp [State.byteAt, State.setBytes, memRead_memWriteList_outside h]

/-- The elements after consecutive writes, whatever else changed. -/
theorem State.byteAt_of_writes_at {s t : State} {vs : List Byte} {a i : Nat} (hm : t.mem = memWriteList a vs s.mem)
    (h : i < vs.length) : t.byteAt (a + i) = vs[i] := by
  rw [State.byteAt, hm, memRead_memWriteList_at h]

theorem State.byteAt_of_writes_outside {s t : State} {vs : List Byte} {a b : Nat}
    (hm : t.mem = memWriteList a vs s.mem) (hr : t.resetCount = s.resetCount) (h : b < a ∨ a + vs.length ≤ b) :
    t.byteAt b = s.byteAt b := by
  rw [State.byteAt, hm, hr, memRead_memWriteList_outside h]; rfl

/-- An element depends only on the memory and the reset count. -/
theorem State.byteAt_congr {s t : State} (hm : t.mem = s.mem) (hr : t.resetCount = s.resetCount) (a : Nat) :
    t.byteAt a = s.byteAt a := by simp [State.byteAt, hm, hr]

@[simp] theorem State.length_bytesAt (s : State) (a len : Nat) : (s.bytesAt a len).length = len := by
  simp [State.bytesAt]

@[simp] theorem State.getElem_bytesAt (s : State) (a len i : Nat) (h : i < (s.bytesAt a len).length) :
    (s.bytesAt a len)[i] = s.byteAt (a + i) := by simp [State.bytesAt]

theorem State.bytesAt_congr {s t : State} {a len : Nat} (h : ∀ i, i < len → t.byteAt (a + i) = s.byteAt (a + i)) :
    t.bytesAt a len = s.bytesAt a len := by
  refine List.ext_getElem (by simp) fun i h1 h2 => ?_
  simpa using h i (by simpa using h1)

@[simp] theorem State.length_bitsAt (s : State) (len : Nat) : (s.bitsAt len).length = len := by simp [State.bitsAt]

@[simp] theorem State.getElem_bitsAt (s : State) (len i : Nat) (h : i < (s.bitsAt len).length) :
    (s.bitsAt len)[i] = s.bitAt i := by simp [State.bitsAt]

@[simp] theorem bitByte_getLsbD_zero (b : Bool) : (bitByte b).getLsbD 0 = b := by cases b <;> rfl

@[simp] theorem bitByte_getElem_zero (b : Bool) : (bitByte b)[0] = b := by cases b <;> rfl

theorem bitByte_range (b : Bool) : bitByte b = 0 ∨ bitByte b = 1 := by cases b <;> simp [bitByte]

theorem State.bitAt_setBits_at {bs : List Bool} {i : Nat} (h : i < bs.length) (s : State) :
    (s.setBits bs).bitAt i = bs[i] := by
  have h' : i < (bs.map bitByte).length := by simpa using h
  have := State.byteAt_setBytes_at h' (bitsAddr 0) s
  simp only [State.bitAt, State.setBits, bitsAddr] at *
  simp only [Nat.add_zero] at this
  simp [this]

theorem State.byteAt_setBits_outside {bs : List Bool} {a : Nat} (h : a < bitsAddr 0 ∨ bitsAddr 0 + bs.length ≤ a)
    (s : State) : (s.setBits bs).byteAt a = s.byteAt a := by
  exact State.byteAt_setBytes_outside (by simpa using h) s

/-! ### The matrix store -/

/-- Writing a cell decides every address of the store: the cell's, and no other. -/
theorem getCell_setCell_addr (r c r' c' : Nat) (t : CellState) (m : Matrix) :
    getCell (setCell r c t m) r' c' = if cellAddr r c = cellAddr r' c' then t else getCell m r' c' := by
  unfold setCell
  split
  · rename_i ht
    simp only [getCell, lookupKey_eraseKey]
    by_cases h : cellAddr r c = cellAddr r' c' <;> simp [h, ht]
  · simp only [getCell, lookupKey_insertKey]
    by_cases h : cellAddr r c = cellAddr r' c' <;> simp [h]

/-- Cells of a 64 by 64 window have addresses of their own (R63). -/
theorem cellAddr_inj {r c r' c' : Nat} (hc : c < 64) (hc' : c' < 64) :
    cellAddr r c = cellAddr r' c' ↔ r = r' ∧ c = c' := by
  unfold cellAddr; omega

theorem getCell_setCell {c c' : Nat} (hc : c < 64) (hc' : c' < 64) (r r' : Nat) (t : CellState) (m : Matrix) :
    getCell (setCell r c t m) r' c' = if r = r' ∧ c = c' then t else getCell m r' c' := by
  rw [getCell_setCell_addr]; simp only [cellAddr_inj hc hc']

@[simp] theorem getCell_setCell_same (r c : Nat) (t : CellState) (m : Matrix) :
    getCell (setCell r c t m) r c = t := by simp [getCell_setCell_addr]

@[simp] theorem getCell_newMatrix (r c : Nat) : getCell newMatrix r c = .unresolved := rfl

theorem Matrix.wf_iff {m : Matrix} :
    m.wf = true ↔ risingKeys m = true ∧ ∀ e ∈ m, e.2 ≠ CellState.unresolved := by
  simp [Matrix.wf]

theorem Matrix.wf_setCell (r c : Nat) (t : CellState) {m : Matrix} (h : m.wf = true) : (setCell r c t m).wf = true := by
  obtain ⟨hr, ha⟩ := Matrix.wf_iff.mp h
  refine Matrix.wf_iff.mpr ?_
  unfold setCell
  split
  · exact ⟨risingKeys_eraseKey _ hr, fun e he => ha e (List.mem_filter.mp he).1⟩
  · rename_i hne
    refine ⟨risingKeys_insertKey _ t hr, fun e he => ?_⟩
    rcases mem_insertKey he with rfl | he
    · exact hne
    · exact ha e he

/-- What writing a cell can list: the cell's address, or one listed before. -/
theorem lookupKey_setCell {r c a : Nat} {t u : CellState} {m : Matrix}
    (h : lookupKey a (setCell r c t m) = some u) : a = cellAddr r c ∨ lookupKey a m = some u := by
  unfold setCell at h
  split at h
  · rw [lookupKey_eraseKey] at h; split at h
    · simp at h
    · exact .inr h
  · rw [lookupKey_insertKey] at h; split at h
    · rename_i hab; exact .inl hab.symm
    · exact .inr h

/-! ### Grids of coordinates -/

theorem mem_gridCoords {rows cols : Nat} {p : Nat × Nat} : p ∈ gridCoords rows cols ↔ p.1 < rows ∧ p.2 < cols := by
  obtain ⟨r, c⟩ := p
  simp only [gridCoords, List.mem_flatMap, List.mem_range, List.mem_map, Prod.mk.injEq]
  constructor
  · rintro ⟨r', hr, c', hc, rfl, rfl⟩; exact ⟨hr, hc⟩
  · rintro ⟨hr, hc⟩; exact ⟨r, hr, c, hc, rfl, rfl⟩

theorem nodup_gridCoords (rows cols : Nat) : (gridCoords rows cols).Nodup := by
  unfold gridCoords
  rw [List.nodup_flatMap]
  refine ⟨fun r _ => List.nodup_range.map fun a b h => by simpa using h, ?_⟩
  refine List.nodup_range.imp ?_
  intro a b hab x hx hy
  obtain ⟨_, _, rfl⟩ := List.mem_map.mp hx
  obtain ⟨_, _, h⟩ := List.mem_map.mp hy
  exact hab (by simpa using congrArg Prod.fst h.symm)

/-! ### The surface -/

/-- Pixels of a surface at most 4096 wide have keys of their own (R13). -/
theorem pixelKey_inj {x y x' y' : Nat} (hx : x < 4096) (hx' : x' < 4096) :
    pixelKey x y = pixelKey x' y' ↔ x = x' ∧ y = y' := by
  unfold pixelKey; omega

theorem surfPixel_surfWrite {x x' : Nat} (hx : x < 4096) (hx' : x' < 4096) (y y' : Nat) (p : Bool) (f : Surface) :
    surfPixel (surfWrite x y p f) x' y' = if x = x' ∧ y = y' then some p else surfPixel f x' y' := by
  simp only [surfPixel, surfWrite, lookupKey_insertKey, pixelKey_inj hx hx']

theorem risingKeys_surfWrite (x y : Nat) (p : Bool) {f : Surface} (h : risingKeys f = true) :
    risingKeys (surfWrite x y p f) = true := risingKeys_insertKey _ _ h

end Sys2Proof.Machine
end

