-- ==== Sys2Proof/Laws/VersionPack.lean ====
section
/-! SUPPORT. The version selector and the bit packer: which version, how bytes and bits turn into each other, and the packed
stream bit by bit. -/

-- One theorem at a time: each thread of Lean's reserves address space, which check.sh limits.
set_option Elab.async false

namespace Sys2Proof.Machine

/-! ### Versions (R7, R8, R160) -/

/-- "len 0..14 gives 1, 15..26 gives 2, 27..42 gives 3, 43..62 gives 4, and every len >= 63 gives 5" (R160). -/
theorem chooseVersion_eq (len : Nat) : chooseVersion len =
    if len ≤ 14 then 1 else if len ≤ 26 then 2 else if len ≤ 42 then 3 else if len ≤ 62 then 4 else 5 := by
  simp only [chooseVersion, List.find?, cap]
  by_cases h1 : len ≤ 14
  · simp [h1]
  by_cases h2 : len ≤ 26
  · simp [h1, h2]
  by_cases h3 : len ≤ 42
  · simp [h1, h2, h3]
  by_cases h4 : len ≤ 62
  · simp [h1, h2, h3, h4]
  by_cases h5 : len ≤ 84 <;> simp [h1, h2, h3, h4, h5]

theorem chooseVersion_range (len : Nat) : 1 ≤ chooseVersion len ∧ chooseVersion len ≤ 5 := by
  rw [chooseVersion_eq]; repeat' split
  all_goals omega

theorem cap_of_version {v : Nat} (h1 : 1 ≤ v) (h5 : v ≤ 5) :
    (v = 1 ∧ cap v = 14) ∨ (v = 2 ∧ cap v = 26) ∨ (v = 3 ∧ cap v = 42) ∨ (v = 4 ∧ cap v = 62) ∨
      (v = 5 ∧ cap v = 84) := by
  rcases (by omega : v = 1 ∨ v = 2 ∨ v = 3 ∨ v = 4 ∨ v = 5) with rfl | rfl | rfl | rfl | rfl <;> simp [cap]

/-- "the smallest version whose capacity ≥ len; if none satisfies this it still returns version 5" (R160). -/
theorem chooseVersion_eq_iff {len v : Nat} : chooseVersion len = v ↔
    (1 ≤ v ∧ v ≤ 5) ∧ (len ≤ cap v ∨ v = 5) ∧ ∀ u, 1 ≤ u → u < v → cap u < len := by
  rw [chooseVersion_eq]
  constructor
  · rintro rfl
    refine ⟨by repeat' split
               all_goals omega, ?_, ?_⟩
    · repeat' split
      all_goals simp [cap]; try omega
    · intro u h1 h2
      have h5 : u ≤ 5 := by revert h2; repeat' split
                            all_goals omega
      rcases cap_of_version h1 h5 with h | h | h | h | h <;> rw [h.2] <;> revert h2 <;> repeat' split
      all_goals omega
  · rintro ⟨⟨h1, h5⟩, hv, hu⟩
    have hu1 := hu 1
    have hu2 := hu 2
    have hu3 := hu 3
    have hu4 := hu 4
    rcases (by omega : v = 1 ∨ v = 2 ∨ v = 3 ∨ v = 4 ∨ v = 5) with rfl | rfl | rfl | rfl | rfl <;>
      simp only [cap] at * <;> repeat' split
    all_goals omega

theorem cap_le (v : Nat) : cap v ≤ 84 := by unfold cap; split <;> omega

theorem le_cap_chooseVersion {len : Nat} (h : len ≤ 84) : len ≤ cap (chooseVersion len) := by
  obtain ⟨_, h2, _⟩ := chooseVersion_eq_iff.mp (rfl : chooseVersion len = _)
  rcases h2 with h2 | h2
  · exact h2
  · rw [h2]; exact h

theorem chooseVersion_of_gt {len : Nat} (h : 84 < len) : chooseVersion len = 5 := by
  rw [chooseVersion_eq_iff]
  refine ⟨by omega, .inr rfl, fun u h1 h2 => ?_⟩
  have := cap_le u; omega

theorem legalVersion_iff {v : Nat} : legalVersion v = true ↔ 1 ≤ v ∧ v ≤ 5 := by simp [legalVersion]

/-- EC(v) (R8). -/
theorem ecCount_values : ecCount 1 = 7 ∧ ecCount 2 = 8 ∧ ecCount 3 = 14 ∧ ecCount 4 = 20 ∧ ecCount 5 = 28 := by decide

theorem ecCount_range (v : Nat) : 7 ≤ ecCount v ∧ ecCount v ≤ 28 := by
  have := cap_le v
  unfold ecCount clamp
  omega

/-! ### Bytes and bits (R15, R174, R177) -/

@[simp] theorem length_bits8 (y : Byte) : (bits8 y).length = 8 := rfl

theorem getElem_bits8 (y : Byte) {k : Nat} (h : k < 8) : (bits8 y)[k]'(by simpa using h) = msbFirst y k := by
  rcases (by omega : k = 0 ∨ k = 1 ∨ k = 2 ∨ k = 3 ∨ k = 4 ∨ k = 5 ∨ k = 6 ∨ k = 7) with
    rfl | rfl | rfl | rfl | rfl | rfl | rfl | rfl <;> rfl

@[simp] theorem expand_nil : expand [] = [] := rfl

theorem expand_cons (y : Byte) (ys : List Byte) : expand (y :: ys) = bits8 y ++ expand ys := by simp [expand]

@[simp] theorem length_expand (ys : List Byte) : (expand ys).length = 8 * ys.length := by
  induction ys with
  | nil => rfl
  | cons y ys ih => rw [expand_cons, List.length_append, ih]; simp; omega

/-- Bit `8*i + k` of the expansion is bit k of byte i, most significant first (R177). -/
theorem getElem?_expand {ys : List Byte} {i k : Nat} (hk : k < 8) :
    (expand ys)[8 * i + k]? = ys[i]?.map (fun y => msbFirst y k) := by
  induction ys generalizing i with
  | nil => simp
  | cons y ys ih =>
    rw [expand_cons]
    cases i with
    | zero =>
      rw [List.getElem?_append_left (by simp; omega)]
      simp [List.getElem?_eq_getElem (show k < (bits8 y).length by simpa using hk), getElem_bits8 y hk]
    | succ i =>
      rw [List.getElem?_append_right (by simp; omega), length_bits8,
        show 8 * (i + 1) + k - 8 = 8 * i + k by omega, ih]
      simp

theorem getD_expand (ys : List Byte) (j : Nat) (h : j < 8 * ys.length) :
    (expand ys).getD j false = msbFirst (ys.getD (j / 8) 0) (j % 8) := by
  have := getElem?_expand (ys := ys) (i := j / 8) (k := j % 8) (by omega)
  rw [show 8 * (j / 8) + j % 8 = j by omega] at this
  rw [List.getD_eq_getElem?_getD, this, List.getD_eq_getElem?_getD,
    List.getElem?_eq_getElem (show j / 8 < ys.length by omega)]
  rfl

theorem byte8_take (bs : List Bool) : byte8 (bs.take 8) = byte8 bs := by simp [byte8, List.take_take]

/-- `byte8` and `bits8` are inverse (R15). -/
theorem bits8_byte8_eight (b0 b1 b2 b3 b4 b5 b6 b7 : Bool) :
    bits8 (byte8 [b0, b1, b2, b3, b4, b5, b6, b7]) = [b0, b1, b2, b3, b4, b5, b6, b7] := by
  revert b0 b1 b2 b3 b4 b5 b6 b7; decide +kernel

theorem bits8_byte8 (b0 b1 b2 b3 b4 b5 b6 b7 : Bool) (bs : List Bool) :
    bits8 (byte8 (b0 :: b1 :: b2 :: b3 :: b4 :: b5 :: b6 :: b7 :: bs)) = [b0, b1, b2, b3, b4, b5, b6, b7] := by
  rw [← byte8_take, ← bits8_byte8_eight]; rfl

theorem byte8_bits8 : ∀ y : Byte, byte8 (bits8 y) = y := by decide +kernel

theorem byte8_bits8_append (y : Byte) (bs : List Bool) : byte8 (bits8 y ++ bs) = y := by
  rw [← byte8_take, List.take_left' (by simp), byte8_bits8]

theorem eq_cons8_of_length {bs : List Bool} (h : 8 ≤ bs.length) :
    ∃ b0 b1 b2 b3 b4 b5 b6 b7 r, bs = b0 :: b1 :: b2 :: b3 :: b4 :: b5 :: b6 :: b7 :: r := by
  match bs, h with
  | b0 :: b1 :: b2 :: b3 :: b4 :: b5 :: b6 :: b7 :: r, _ => exact ⟨b0, b1, b2, b3, b4, b5, b6, b7, r, rfl⟩

theorem expand_byte8 {bs : List Bool} (h : 8 ≤ bs.length) : bits8 (byte8 bs) = bs.take 8 := by
  obtain ⟨b0, b1, b2, b3, b4, b5, b6, b7, r, rfl⟩ := eq_cons8_of_length h
  rw [bits8_byte8]; rfl

@[simp] theorem length_bitsToBytes (m : Nat) (bs : List Bool) : (bitsToBytes m bs).length = m := by
  induction m generalizing bs with
  | zero => rfl
  | succ m ih => simp [bitsToBytes, ih]

/-- "re-expanding those bytes to bits reproduces the original bit sequence" (R177). -/
theorem expand_bitsToBytes (m : Nat) {bs : List Bool} (h : bs.length = 8 * m) : expand (bitsToBytes m bs) = bs := by
  induction m generalizing bs with
  | zero => obtain rfl : bs = [] := List.length_eq_zero_iff.mp (by omega); rfl
  | succ m ih =>
    rw [bitsToBytes, expand_cons, expand_byte8 (by omega), ih (by simp; omega), List.take_append_drop]

/-- `bits_to_bytes(expand(y)) = y` (R177). -/
theorem bitsToBytes_expand (ys : List Byte) : bitsToBytes ys.length (expand ys) = ys := by
  induction ys with
  | nil => rfl
  | cons y ys ih =>
    rw [expand_cons, List.length_cons, bitsToBytes, byte8_bits8_append, List.drop_left' (by simp), ih]

/-- Bit k of byte i is bit `8*i + k` of the sequence (R174). -/
theorem getElem?_bitsToBytes (m : Nat) {bs : List Bool} (h : bs.length = 8 * m) {i k : Nat} (hk : k < 8) :
    (bitsToBytes m bs)[i]?.map (fun y => msbFirst y k) = bs[8 * i + k]? := by
  rw [← getElem?_expand hk, expand_bitsToBytes m h]

/-! ### The packed stream (R169, R172) -/

theorem length_packHead (cfg : Config) (pay : List Byte) : (packHead cfg pay).length = 12 + 8 * pay.length := by
  simp [packHead, modeBits]; omega

/-- Steps 4 and 5 together add exactly four zeros: "the terminator is therefore always 4 bits or absent ... and step 5 adds 0
or 4 bits" (R172). -/
theorem packAlign_packTerminator (c : Nat) {b : List Bool} (hb : b.length % 8 = 4) :
    packAlign (packTerminator (8 * c) b) = b ++ List.replicate 4 false := by
  rcases Nat.lt_or_ge b.length (8 * c) with h | h
  · have e : min 4 (8 * c - b.length) = 4 := by omega
    have l : (8 - (b ++ List.replicate 4 false).length % 8) % 8 = 0 := by simp; omega
    rw [packTerminator, e, packAlign, l]; simp
  · have e : min 4 (8 * c - b.length) = 0 := by omega
    have l : (8 - b.length % 8) % 8 = 4 := by omega
    rw [packTerminator, e, packAlign, List.replicate_zero, List.append_nil, l]

/-- The stream without the loops (R172). -/
theorem packBits_eq {cfg : Config} {pay : List Byte} {v : Nat} (h : pay.length ≤ cap v) :
    packBits cfg pay v = some (packHead cfg pay ++ List.replicate 4 false ++
      expand ((List.range (cap v - 2 - pay.length)).map (fillerByte cfg))) := by
  have hl := length_packHead cfg pay
  have e : (8 * cap v - (packHead cfg pay ++ List.replicate 4 false).length + 7) / 8 = cap v - 2 - pay.length := by
    simp [hl]; omega
  rw [packBits, if_neg (by omega), packAlign_packTerminator _ (by omega), packFill, e]

theorem packBits_isNone_iff {cfg : Config} {pay : List Byte} {v : Nat} :
    packBits cfg pay v = none ↔ cap v < pay.length := by
  unfold packBits; split
  · simp; omega
  · simp; omega

/-- Its length (R172). -/
theorem length_of_packBits {cfg : Config} {pay : List Byte} {v : Nat} {b : List Bool} (h : packBits cfg pay v = some b) :
    pay.length ≤ cap v ∧ b.length = max (8 * cap v) (8 * pay.length + 16) := by
  have hle : pay.length ≤ cap v := by
    by_contra hn
    rw [packBits_isNone_iff.mpr (by omega)] at h
    cases h
  refine ⟨hle, ?_⟩
  rw [packBits_eq hle] at h
  obtain rfl := Option.some.inj h
  simp [length_packHead]; omega

/-- Its bits (R172). -/
theorem getD_of_packBits {cfg : Config} {pay : List Byte} {v : Nat} {b : List Bool} (h : packBits cfg pay v = some b)
    {i : Nat} (hi : i < b.length) : b.getD i false = packedBit cfg pay i := by
  obtain ⟨hle, hlen⟩ := length_of_packBits h
  rw [packBits_eq hle] at h
  obtain rfl := Option.some.inj h
  have hh := length_packHead cfg pay
  have hm : (modeBits cfg.modeInd).length = 4 := rfl
  unfold packedBit
  rw [List.getD_eq_getElem?_getD]
  by_cases h1 : i < 12 + 8 * pay.length
  · rw [List.append_assoc, List.getElem?_append_left (by omega), packHead]
    by_cases h4 : i < 4
    · rw [if_pos h4, List.append_assoc, List.getElem?_append_left (by omega)]
      rcases (by omega : i = 0 ∨ i = 1 ∨ i = 2 ∨ i = 3) with rfl | rfl | rfl | rfl <;> rfl
    · rw [if_neg h4]
      by_cases h12 : i < 12
      · rw [if_pos h12, List.getElem?_append_left (by simp [hm]; omega),
          List.getElem?_append_right (by omega), hm,
          List.getElem?_eq_getElem (by simp; omega), getElem_bits8 _ (by omega)]
        rfl
      · rw [if_neg h12, if_pos h1, List.getElem?_append_right (by simp [hm]; omega), ← List.getD_eq_getElem?_getD]
        simp only [List.length_append, hm, length_bits8]
        rw [getD_expand _ _ (by omega)]
  · rw [if_neg (by omega), if_neg (by omega), if_neg h1]
    by_cases h16 : i < 16 + 8 * pay.length
    · rw [if_pos h16, List.getElem?_append_left (by simp; omega), List.getElem?_append_right (by omega), hh,
        List.getElem?_replicate]
      split <;> rfl
    · have hb : (packHead cfg pay ++ List.replicate 4 false).length = 16 + 8 * pay.length := by simp [hh]; omega
      rw [if_neg h16, List.getElem?_append_right (by omega), hb, ← List.getD_eq_getElem?_getD]
      simp only [List.length_append, hh, List.length_replicate, length_expand, List.length_map, List.length_range] at hi
      rw [getD_expand _ _ (by simp; omega)]
      have hk : (i - (16 + 8 * pay.length)) / 8 < cap v - 2 - pay.length := by omega
      rw [List.getD_eq_getElem?_getD, List.getElem?_map, List.getElem?_range hk]
      simp only [Option.map_some, Option.getD_some, fillerByte]
      rw [show i - 16 - 8 * pay.length = i - (16 + 8 * pay.length) by omega]

/-- Every packed stream fits the bit buffer (R172: "The largest result is for v = 5, L = 84: 688 bits"). -/
theorem length_of_packBits_le {cfg : Config} {pay : List Byte} {v : Nat} {b : List Bool} (h : packBits cfg pay v = some b) :
    b.length ≤ 688 ∧ b.length % 8 = 0 := by
  obtain ⟨h1, h2⟩ := length_of_packBits h
  have := cap_le v
  omega

end Sys2Proof.Machine
end

