-- ==== Sys2Proof/Laws/Exec.lean ====
section
/-! SUPPORT. What each command answers, by its domain; every command answers a next state. The later laws cite these and do
not unfold the meanings. -/

-- One theorem at a time: each thread of Lean's reserves address space, which check.sh limits.
set_option Elab.async false

namespace Sys2Proof.Machine

/-! ### What each command answers -/

theorem exec_rsgen_legal {d : Nat} (h : d ≤ 30) (s : State) :
    exec (.rsgen d) s = .next (storeGenerator d (ensureGf s)) := by simp [exec, execRsgen, rsgenLegal, h]

theorem exec_rsgen_illegal {d : Nat} (h : 30 < d) (s : State) :
    exec (.rsgen d) s = .next (raise .illegalOperand (encode (.rsgen d)) s) := by
  simp [exec, execRsgen, rsgenLegal, h]

theorem exec_rsenc_legal {ec : Nat} (h : 1 ≤ ec ∧ ec ≤ 30) (s : State) :
    exec (.rsenc ec) s = .next (rsencEffect ec s) := by simp [exec, execRsenc, rsencLegal, h]

theorem exec_rsenc_illegal {ec : Nat} (h : ¬(1 ≤ ec ∧ ec ≤ 30)) (s : State) :
    exec (.rsenc ec) s = .next (raise .illegalOperand (encode (.rsenc ec)) s) := by
  rw [exec, execRsenc, if_neg (by simpa [rsencLegal] using h)]

/-- The stream PACK or ENCODE stores when the payload fits. -/
theorem packBits_of_le {cfg : Config} {pay : List Byte} {v : Nat} (h : pay.length ≤ cap v) :
    ∃ b, packBits cfg pay v = some b := ⟨_, packBits_eq h⟩

@[simp] theorem State.length_payload (s : State) : s.payload.length = s.plen.toNat := State.length_bytesAt _ _ _

@[simp] theorem State.length_dataCodewords (s : State) : s.dataCodewords.length = s.dlen.toNat := State.length_bytesAt _ _ _

@[simp] theorem State.length_parityCodewords (s : State) : s.parityCodewords.length = s.eclen.toNat :=
  State.length_bytesAt _ _ _

@[simp] theorem State.length_bitSequence (s : State) : s.bitSequence.length = s.bitlen.toNat := State.length_bitsAt _ _

theorem exec_pack_version {s : State} (h : ¬(1 ≤ s.ver.toNat ∧ s.ver.toNat ≤ 5)) :
    exec .pack s = .next (raise .illegalOperand (encode .pack) s) := by
  rw [exec, execPack, if_neg (by simpa [legalVersion] using h)]

theorem exec_pack_long {s : State} (h : 1 ≤ s.ver.toNat ∧ s.ver.toNat ≤ 5) (hl : cap s.ver.toNat < s.plen.toNat) :
    exec .pack s = .next (raise .payloadTooLong (encode .pack) s) := by
  rw [exec, execPack, if_pos (legalVersion_iff.mpr h), packBits_isNone_iff.mpr (by simpa using hl)]

theorem exec_pack_legal {s : State} (h : 1 ≤ s.ver.toNat ∧ s.ver.toNat ≤ 5) {b : List Bool}
    (hb : packBits s.cfg s.payload s.ver.toNat = some b) : exec .pack s = .next (storeBitSequence b s) := by
  rw [exec, execPack, if_pos (legalVersion_iff.mpr h), hb]

theorem exec_b2b_legal {s : State} (h : s.bitlen.toNat ≤ 1024 ∧ s.bitlen.toNat % 8 = 0) :
    exec .b2b s = .next (b2bEffect s) := by rw [exec, execB2b, if_pos (by simpa [b2bLegal] using h)]

theorem exec_b2b_illegal {s : State} (h : ¬(s.bitlen.toNat ≤ 1024 ∧ s.bitlen.toNat % 8 = 0)) :
    exec .b2b s = .next (raise .illegalOperand (encode .b2b) s) := by
  rw [exec, execB2b, if_neg (by simpa [b2bLegal] using h)]

theorem exec_xbits_legal {s : State} (h : s.eclen.toNat ≤ 30 ∧ s.dlen.toNat + s.eclen.toNat ≤ 128) :
    exec .xbits s = .next (xbitsEffect s) := by rw [exec, execXbits, if_pos (by simpa [xbitsLegal] using h)]

theorem exec_xbits_illegal {s : State} (h : ¬(s.eclen.toNat ≤ 30 ∧ s.dlen.toNat + s.eclen.toNat ≤ 128)) :
    exec .xbits s = .next (raise .illegalOperand (encode .xbits) s) := by
  rw [exec, execXbits, if_neg (by simpa [xbitsLegal] using h)]

theorem exec_mnew_legal {n : Nat} (h : 1 ≤ n ∧ n ≤ 37) (s : State) : exec (.mnew n) s = .next (mnewEffect n s) := by
  rw [exec, execMnew, if_pos (by simpa [mnewLegal] using h)]

theorem exec_mnew_illegal {n : Nat} (h : ¬(1 ≤ n ∧ n ≤ 37)) (s : State) :
    exec (.mnew n) s = .next (raise .illegalOperand (encode (.mnew n)) s) := by
  rw [exec, execMnew, if_neg (by simpa [mnewLegal] using h)]

theorem sstampLegal_iff {s : State} :
    sstampLegal s = true ↔ (1 ≤ s.ver.toNat ∧ s.ver.toNat ≤ 5) ∧ s.n.toNat = side s.ver.toNat := by
  simp [sstampLegal, legalVersion]

theorem exec_sstamp_legal {s : State} (h : (1 ≤ s.ver.toNat ∧ s.ver.toNat ≤ 5) ∧ s.n.toNat = side s.ver.toNat) :
    exec .sstamp s = .next (sstampEffect s.ver.toNat s) := by
  rw [exec, execSstamp, if_pos (sstampLegal_iff.mpr h)]

theorem exec_sstamp_illegal {s : State} (h : ¬((1 ≤ s.ver.toNat ∧ s.ver.toNat ≤ 5) ∧ s.n.toNat = side s.ver.toNat)) :
    exec .sstamp s = .next (raise .illegalOperand (encode .sstamp) s) := by
  rw [exec, execSstamp, if_neg (fun e => h (sstampLegal_iff.mp e))]

theorem placeLegal_iff {s : State} :
    placeLegal s = true ↔ s.n.toNat ∈ [21, 25, 29, 33, 37] ∧ s.bitlen.toNat ≤ 1024 := by
  rw [placeLegal, Bool.and_eq_true, List.contains_iff_mem, decide_eq_true_eq]

theorem exec_place_legal {s : State} (h : s.n.toNat ∈ [21, 25, 29, 33, 37] ∧ s.bitlen.toNat ≤ 1024) :
    exec .place s = .next (placeEffect s) := by
  rw [exec, execPlace, if_pos (placeLegal_iff.mpr h)]

theorem exec_place_illegal {s : State} (h : ¬(s.n.toNat ∈ [21, 25, 29, 33, 37] ∧ s.bitlen.toNat ≤ 1024)) :
    exec .place s = .next (raise .illegalOperand (encode .place) s) := by
  rw [exec, execPlace, if_neg (fun e => h (placeLegal_iff.mp e))]

theorem exec_draw_legal {s : State} (h : s.n.toNat ≠ 0) (w k : Nat) : exec (.draw w k) s = .next (drawEffect w k s) := by
  rw [exec, execDraw, if_pos (by simpa [drawLegal] using h)]

theorem exec_draw_illegal {s : State} (h : s.n.toNat = 0) (w k : Nat) :
    exec (.draw w k) s = .next (raise .illegalOperand (encode (.draw w k)) s) := by
  rw [exec, execDraw, if_neg (by simpa [drawLegal] using h)]

/-- The stage of ENCODE that reads the payload finds it as it was: the stages before write no buffer. -/
theorem exec_encode_long {s : State} (h : 84 < s.plen.toNat) :
    exec .encode s = .next (raise .payloadTooLong (encode .encode) { encodeFront s with matrix := newMatrix }) := by
  have hv := chooseVersion_of_gt h
  have : packBits s.cfg s.payload (chooseVersion s.plen.toNat) = none := by
    rw [packBits_isNone_iff, hv, State.length_payload]; exact h
  simp only [exec, execEncode, this]

theorem exec_encode_legal {s : State} {b : List Bool}
    (hb : packBits s.cfg s.payload (chooseVersion s.plen.toNat) = some b) :
    exec .encode s = .next (encodeBack (chooseVersion s.plen.toNat) b (encodeFront s)) := by
  simp only [exec, execEncode, hb]

theorem packBits_encode {s : State} (h : s.plen.toNat ≤ 84) :
    ∃ b, packBits s.cfg s.payload (chooseVersion s.plen.toNat) = some b :=
  packBits_of_le (by rw [State.length_payload]; exact le_cap_chooseVersion h)

/-! ### Every command answers a next state -/

/-- PACK's second check (R170): the version is legal and the payload is above its capacity. -/
def PackTooLong (f : Fault) (i : Instr) (s : State) : Prop :=
  f = .payloadTooLong ∧ i = .pack ∧ (1 ≤ s.ver.toNat ∧ s.ver.toNat ≤ 5) ∧ cap s.ver.toNat < s.plen.toNat

/-- What a command can answer, all cases: the one list later case analyses start from. -/
theorem exec_cases (i : Instr) (s : State) :
    (∃ f, (f = .illegalOperand ∨ PackTooLong f i s) ∧ i ≠ .encode ∧ exec i s = .next (raise f (encode i) s)) ∨
    (i = .nop ∧ exec i s = .next s) ∨
    (i = .gfinit ∧ exec i s = .next (ensureGf s)) ∨
    (∃ a b, i = .gfmul a b ∧ exec i s = .next { ensureGf s with result := (ensureGf s).gfmul a b }) ∨
    (∃ d, i = .rsgen d ∧ d ≤ 30 ∧ exec i s = .next (storeGenerator d (ensureGf s))) ∨
    (∃ ec, i = .rsenc ec ∧ (1 ≤ ec ∧ ec ≤ 30) ∧ exec i s = .next (rsencEffect ec s)) ∨
    (i = .vsel ∧ exec i s = .next (vselEffect s)) ∨
    (i = .pack ∧ (1 ≤ s.ver.toNat ∧ s.ver.toNat ≤ 5) ∧ ∃ b, packBits s.cfg s.payload s.ver.toNat = some b ∧
      exec i s = .next (storeBitSequence b s)) ∨
    (i = .b2b ∧ (s.bitlen.toNat ≤ 1024 ∧ s.bitlen.toNat % 8 = 0) ∧ exec i s = .next (b2bEffect s)) ∨
    (i = .xbits ∧ (s.eclen.toNat ≤ 30 ∧ s.dlen.toNat + s.eclen.toNat ≤ 128) ∧ exec i s = .next (xbitsEffect s)) ∨
    (∃ n, i = .mnew n ∧ (1 ≤ n ∧ n ≤ 37) ∧ exec i s = .next (mnewEffect n s)) ∨
    (∃ row col, i = .fstamp row col ∧
      exec i s = .next { s with matrix := stampFinder s.n.toNat row col s.matrix }) ∨
    (i = .sstamp ∧ ((1 ≤ s.ver.toNat ∧ s.ver.toNat ≤ 5) ∧ s.n.toNat = side s.ver.toNat) ∧
      exec i s = .next (sstampEffect s.ver.toNat s)) ∨
    (i = .place ∧ (s.n.toNat ∈ [21, 25, 29, 33, 37] ∧ s.bitlen.toNat ≤ 1024) ∧ exec i s = .next (placeEffect s)) ∨
    (i = .mask ∧ exec i s = .next (maskEffect s)) ∨
    (i = .encode ∧ 84 < s.plen.toNat ∧
      exec i s = .next (raise .payloadTooLong (encode .encode) { encodeFront s with matrix := newMatrix })) ∨
    (i = .encode ∧ s.plen.toNat ≤ 84 ∧ ∃ b, packBits s.cfg s.payload (chooseVersion s.plen.toNat) = some b ∧
      exec i s = .next (encodeBack (chooseVersion s.plen.toNat) b (encodeFront s))) ∨
    (∃ w h, i = .draw w h ∧ s.n.toNat ≠ 0 ∧ exec i s = .next (drawEffect w h s)) ∨
    (i = .clrerr ∧ exec i s = .next (acknowledge s)) := by
  have illegal : ∀ i, i ≠ .encode → exec i s = .next (raise .illegalOperand (encode i) s) →
      ∃ f, (f = .illegalOperand ∨ PackTooLong f i s) ∧ i ≠ .encode ∧ exec i s = .next (raise f (encode i) s) :=
    fun i hi h => ⟨.illegalOperand, .inl rfl, hi, h⟩
  cases i with
  | nop => exact .inr (.inl ⟨rfl, rfl⟩)
  | gfinit => exact .inr (.inr (.inl ⟨rfl, rfl⟩))
  | gfmul a b => exact .inr (.inr (.inr (.inl ⟨a, b, rfl, rfl⟩)))
  | rsgen d =>
    by_cases h : d ≤ 30
    · exact .inr (.inr (.inr (.inr (.inl ⟨d, rfl, h, exec_rsgen_legal h s⟩))))
    · exact .inl (illegal _ (by simp) (exec_rsgen_illegal (by omega) s))
  | rsenc ec =>
    by_cases h : 1 ≤ ec ∧ ec ≤ 30
    · exact .inr (.inr (.inr (.inr (.inr (.inl ⟨ec, rfl, h, exec_rsenc_legal h s⟩)))))
    · exact .inl (illegal _ (by simp) (exec_rsenc_illegal h s))
  | vsel => exact .inr (.inr (.inr (.inr (.inr (.inr (.inl ⟨rfl, rfl⟩))))))
  | pack =>
    by_cases h : 1 ≤ s.ver.toNat ∧ s.ver.toNat ≤ 5
    · by_cases hl : s.plen.toNat ≤ cap s.ver.toNat
      · obtain ⟨b, hb⟩ := packBits_of_le (cfg := s.cfg) (pay := s.payload) (v := s.ver.toNat) (by simpa using hl)
        exact .inr (.inr (.inr (.inr (.inr (.inr (.inr (.inl ⟨rfl, h, b, hb, exec_pack_legal h hb⟩)))))))
      · exact .inl ⟨.payloadTooLong, .inr ⟨rfl, rfl, h, by omega⟩, by simp, exec_pack_long h (by omega)⟩
    · exact .inl (illegal _ (by simp) (exec_pack_version h))
  | b2b =>
    by_cases h : s.bitlen.toNat ≤ 1024 ∧ s.bitlen.toNat % 8 = 0
    · exact .inr (.inr (.inr (.inr (.inr (.inr (.inr (.inr (.inl ⟨rfl, h, exec_b2b_legal h⟩))))))))
    · exact .inl (illegal _ (by simp) (exec_b2b_illegal h))
  | xbits =>
    by_cases h : s.eclen.toNat ≤ 30 ∧ s.dlen.toNat + s.eclen.toNat ≤ 128
    · exact .inr (.inr (.inr (.inr (.inr (.inr (.inr (.inr (.inr (.inl ⟨rfl, h, exec_xbits_legal h⟩)))))))))
    · exact .inl (illegal _ (by simp) (exec_xbits_illegal h))
  | mnew n =>
    by_cases h : 1 ≤ n ∧ n ≤ 37
    · exact .inr (.inr (.inr (.inr (.inr (.inr (.inr (.inr (.inr (.inr (.inl ⟨n, rfl, h, exec_mnew_legal h s⟩))))))))))
    · exact .inl (illegal _ (by simp) (exec_mnew_illegal h s))
  | fstamp row col =>
    exact .inr (.inr (.inr (.inr (.inr (.inr (.inr (.inr (.inr (.inr (.inr (.inl ⟨row, col, rfl, rfl⟩)))))))))))
  | sstamp =>
    by_cases h : (1 ≤ s.ver.toNat ∧ s.ver.toNat ≤ 5) ∧ s.n.toNat = side s.ver.toNat
    · exact .inr (.inr (.inr (.inr (.inr (.inr (.inr (.inr (.inr (.inr (.inr (.inr (.inl
        ⟨rfl, h, exec_sstamp_legal h⟩))))))))))))
    · exact .inl (illegal _ (by simp) (exec_sstamp_illegal h))
  | place =>
    by_cases h : s.n.toNat ∈ [21, 25, 29, 33, 37] ∧ s.bitlen.toNat ≤ 1024
    · exact .inr (.inr (.inr (.inr (.inr (.inr (.inr (.inr (.inr (.inr (.inr (.inr (.inr (.inl
        ⟨rfl, h, exec_place_legal h⟩)))))))))))))
    · exact .inl (illegal _ (by simp) (exec_place_illegal h))
  | mask =>
    exact .inr (.inr (.inr (.inr (.inr (.inr (.inr (.inr (.inr (.inr (.inr (.inr (.inr (.inr (.inl ⟨rfl, rfl⟩))))))))))))))
  | encode =>
    by_cases h : s.plen.toNat ≤ 84
    · obtain ⟨b, hb⟩ := packBits_encode h
      exact .inr (.inr (.inr (.inr (.inr (.inr (.inr (.inr (.inr (.inr (.inr (.inr (.inr (.inr (.inr (.inr (.inl
        ⟨rfl, h, b, hb, exec_encode_legal hb⟩))))))))))))))))
    · exact .inr (.inr (.inr (.inr (.inr (.inr (.inr (.inr (.inr (.inr (.inr (.inr (.inr (.inr (.inr (.inl
        ⟨rfl, by omega, exec_encode_long (by omega)⟩)))))))))))))))
  | draw w k =>
    by_cases h : s.n.toNat = 0
    · exact .inl (illegal _ (by simp) (exec_draw_illegal h w k))
    · exact .inr (.inr (.inr (.inr (.inr (.inr (.inr (.inr (.inr (.inr (.inr (.inr (.inr (.inr (.inr (.inr (.inr (.inl
        ⟨w, k, rfl, h, exec_draw_legal h w k⟩)))))))))))))))))
  | clrerr =>
    exact .inr (.inr (.inr (.inr (.inr (.inr (.inr (.inr (.inr (.inr (.inr (.inr (.inr (.inr (.inr (.inr (.inr (.inr
      ⟨rfl, rfl⟩)))))))))))))))))

/-- A case analysis of a command's next state as an induction principle: what holds of every effect holds of the state the
command leaves. -/
theorem exec_next_induction {P : Instr → State → Prop} {i : Instr} {s t : State} (ht : exec i s = .next t)
    (fault : ∀ f, (f = .illegalOperand ∨ PackTooLong f i s) → i ≠ .encode → P i (raise f (encode i) s))
    (nop : P .nop s)
    (gfinit : P .gfinit (ensureGf s))
    (gfmul : ∀ a b, P (.gfmul a b) { ensureGf s with result := (ensureGf s).gfmul a b })
    (rsgen : ∀ d, d ≤ 30 → P (.rsgen d) (storeGenerator d (ensureGf s)))
    (rsenc : ∀ ec, 1 ≤ ec → ec ≤ 30 → P (.rsenc ec) (rsencEffect ec s))
    (vsel : P .vsel (vselEffect s))
    (pack : ∀ b, 1 ≤ s.ver.toNat → s.ver.toNat ≤ 5 → packBits s.cfg s.payload s.ver.toNat = some b →
      P .pack (storeBitSequence b s))
    (b2b : s.bitlen.toNat ≤ 1024 → s.bitlen.toNat % 8 = 0 → P .b2b (b2bEffect s))
    (xbits : s.eclen.toNat ≤ 30 → s.dlen.toNat + s.eclen.toNat ≤ 128 → P .xbits (xbitsEffect s))
    (mnew : ∀ n, 1 ≤ n → n ≤ 37 → P (.mnew n) (mnewEffect n s))
    (fstamp : ∀ row col, P (.fstamp row col) { s with matrix := stampFinder s.n.toNat row col s.matrix })
    (sstamp : 1 ≤ s.ver.toNat → s.ver.toNat ≤ 5 → s.n.toNat = side s.ver.toNat → P .sstamp (sstampEffect s.ver.toNat s))
    (place : s.n.toNat ∈ [21, 25, 29, 33, 37] → s.bitlen.toNat ≤ 1024 → P .place (placeEffect s))
    (mask : P .mask (maskEffect s))
    (encodeLong : 84 < s.plen.toNat →
      P .encode (raise .payloadTooLong (encode .encode) { encodeFront s with matrix := newMatrix }))
    (encodeFits : ∀ b, s.plen.toNat ≤ 84 → packBits s.cfg s.payload (chooseVersion s.plen.toNat) = some b →
      P .encode (encodeBack (chooseVersion s.plen.toNat) b (encodeFront s)))
    (draw : ∀ w h, s.n.toNat ≠ 0 → P (.draw w h) (drawEffect w h s))
    (clrerr : P .clrerr (acknowledge s)) : P i t := by
  have inj : ∀ {u : State}, exec i s = .next u → P i u → P i t := by
    intro u hu hp
    rw [hu] at ht
    have : u = t := by injection ht
    exact this ▸ hp
  rcases exec_cases i s with ⟨f, hf, hi, h⟩ | ⟨rfl, h⟩ | ⟨rfl, h⟩ | ⟨a, b, rfl, h⟩ | ⟨d, rfl, hd, h⟩ | ⟨ec, rfl, he, h⟩ |
    ⟨rfl, h⟩ | ⟨rfl, hv, b, hb, h⟩ | ⟨rfl, hl, h⟩ | ⟨rfl, hl, h⟩ | ⟨n, rfl, hn, h⟩ | ⟨row, col, rfl, h⟩ | ⟨rfl, hl, h⟩ |
    ⟨rfl, hl, h⟩ | ⟨rfl, h⟩ | ⟨rfl, hl, h⟩ | ⟨rfl, hl, b, hb, h⟩ | ⟨w, k, rfl, hn, h⟩ | ⟨rfl, h⟩
  · exact inj h (fault f hf hi)
  · exact inj h nop
  · exact inj h gfinit
  · exact inj h (gfmul a b)
  · exact inj h (rsgen d hd)
  · exact inj h (rsenc ec he.1 he.2)
  · exact inj h vsel
  · exact inj h (pack b hv.1 hv.2 hb)
  · exact inj h (b2b hl.1 hl.2)
  · exact inj h (xbits hl.1 hl.2)
  · exact inj h (mnew n hn.1 hn.2)
  · exact inj h (fstamp row col)
  · exact inj h (sstamp hl.1.1 hl.1.2 hl.2)
  · exact inj h (place hl.1 hl.2)
  · exact inj h mask
  · exact inj h (encodeLong hl)
  · exact inj h (encodeFits b hl hb)
  · exact inj h (draw w k hn)
  · exact inj h clrerr

/-- No command stops the machine. -/
theorem exec_answers (i : Instr) (s : State) : ∃ t, exec i s = .next t := by
  rcases exec_cases i s with ⟨f, _, _, h⟩ | ⟨_, h⟩ | ⟨_, h⟩ | ⟨a, b, _, h⟩ | ⟨d, _, _, h⟩ | ⟨ec, _, _, h⟩ | ⟨_, h⟩ |
    ⟨_, _, b, _, h⟩ | ⟨_, _, h⟩ | ⟨_, _, h⟩ | ⟨n, _, _, h⟩ | ⟨row, col, _, h⟩ | ⟨_, _, h⟩ | ⟨_, _, h⟩ | ⟨_, h⟩ |
    ⟨_, _, h⟩ | ⟨_, _, b, _, h⟩ | ⟨w, k, _, _, h⟩ | ⟨_, h⟩
  all_goals exact ⟨_, h⟩

/-- No command touches what is the host's and the configuration's. -/
theorem exec_keeps_host_fields {i : Instr} {s t : State} (ht : exec i s = .next t) :
    t.cfg = s.cfg ∧ t.plen = s.plen ∧ t.pending = s.pending ∧ t.rdata = s.rdata ∧ t.resetCount = s.resetCount := by
  refine exec_next_induction (P := fun _ t => t.cfg = s.cfg ∧ t.plen = s.plen ∧ t.pending = s.pending ∧
    t.rdata = s.rdata ∧ t.resetCount = s.resetCount) ht ?_ ?_ ?_ ?_ ?_ ?_ ?_ ?_ ?_ ?_ ?_ ?_ ?_ ?_ ?_ ?_ ?_ ?_ ?_
  all_goals intros; simp

end Sys2Proof.Machine
end

