-- ==== Sys2Proof/Laws/Gf.lean ====
section
/-! SUPPORT. The GF(256) engine: the powers of the generator element, what the table build writes, and the multiplier on
built tables. -/

-- One theorem at a time: each thread of Lean's reserves address space, which check.sh limits.
set_option Elab.async false

namespace Sys2Proof.Machine

/-! ### The powers of 2 in the field -/

/-- One doubling of the table build is one step of `gfPow`. -/
theorem gfDouble_setWidth : ∀ b : Byte,
    gfDouble (b.setWidth 9) = (gfTwice b).setWidth 9 := by
  decide +kernel

theorem gfDouble_gfPow (i : Nat) : gfDouble ((gfPow i).setWidth 9) = (gfPow (i + 1)).setWidth 9 :=
  gfDouble_setWidth (gfPow i)

/-- EXP[0..254] as R127 prints it. -/
def powerTable : List Nat :=
  [0x01, 0x02, 0x04, 0x08, 0x10, 0x20, 0x40, 0x80, 0x1D, 0x3A, 0x74, 0xE8, 0xCD, 0x87, 0x13, 0x26] ++
  [0x4C, 0x98, 0x2D, 0x5A, 0xB4, 0x75, 0xEA, 0xC9, 0x8F, 0x03, 0x06, 0x0C, 0x18, 0x30, 0x60, 0xC0] ++
  [0x9D, 0x27, 0x4E, 0x9C, 0x25, 0x4A, 0x94, 0x35, 0x6A, 0xD4, 0xB5, 0x77, 0xEE, 0xC1, 0x9F, 0x23] ++
  [0x46, 0x8C, 0x05, 0x0A, 0x14, 0x28, 0x50, 0xA0, 0x5D, 0xBA, 0x69, 0xD2, 0xB9, 0x6F, 0xDE, 0xA1] ++
  [0x5F, 0xBE, 0x61, 0xC2, 0x99, 0x2F, 0x5E, 0xBC, 0x65, 0xCA, 0x89, 0x0F, 0x1E, 0x3C, 0x78, 0xF0] ++
  [0xFD, 0xE7, 0xD3, 0xBB, 0x6B, 0xD6, 0xB1, 0x7F, 0xFE, 0xE1, 0xDF, 0xA3, 0x5B, 0xB6, 0x71, 0xE2] ++
  [0xD9, 0xAF, 0x43, 0x86, 0x11, 0x22, 0x44, 0x88, 0x0D, 0x1A, 0x34, 0x68, 0xD0, 0xBD, 0x67, 0xCE] ++
  [0x81, 0x1F, 0x3E, 0x7C, 0xF8, 0xED, 0xC7, 0x93, 0x3B, 0x76, 0xEC, 0xC5, 0x97, 0x33, 0x66, 0xCC] ++
  [0x85, 0x17, 0x2E, 0x5C, 0xB8, 0x6D, 0xDA, 0xA9, 0x4F, 0x9E, 0x21, 0x42, 0x84, 0x15, 0x2A, 0x54] ++
  [0xA8, 0x4D, 0x9A, 0x29, 0x52, 0xA4, 0x55, 0xAA, 0x49, 0x92, 0x39, 0x72, 0xE4, 0xD5, 0xB7, 0x73] ++
  [0xE6, 0xD1, 0xBF, 0x63, 0xC6, 0x91, 0x3F, 0x7E, 0xFC, 0xE5, 0xD7, 0xB3, 0x7B, 0xF6, 0xF1, 0xFF] ++
  [0xE3, 0xDB, 0xAB, 0x4B, 0x96, 0x31, 0x62, 0xC4, 0x95, 0x37, 0x6E, 0xDC, 0xA5, 0x57, 0xAE, 0x41] ++
  [0x82, 0x19, 0x32, 0x64, 0xC8, 0x8D, 0x07, 0x0E, 0x1C, 0x38, 0x70, 0xE0, 0xDD, 0xA7, 0x53, 0xA6] ++
  [0x51, 0xA2, 0x59, 0xB2, 0x79, 0xF2, 0xF9, 0xEF, 0xC3, 0x9B, 0x2B, 0x56, 0xAC, 0x45, 0x8A, 0x09] ++
  [0x12, 0x24, 0x48, 0x90, 0x3D, 0x7A, 0xF4, 0xF5, 0xF7, 0xF3, 0xFB, 0xEB, 0xCB, 0x8B, 0x0B, 0x16] ++
  [0x2C, 0x58, 0xB0, 0x7D, 0xFA, 0xE9, 0xCF, 0x83, 0x1B, 0x36, 0x6C, 0xD8, 0xAD, 0x47, 0x8E]

theorem toNat_setWidth_nine (b : Byte) : (b.setWidth 9).toNat = b.toNat := by
  have := b.isLt
  simp; omega

theorem one_eq_setWidth_gfPow_zero : (1 : BitVec 9) = (gfPow 0).setWidth 9 := by decide

theorem map_toNat_powersFrom_one : (powersFrom 255 1).map BitVec.toNat = powerTable := by decide +kernel

theorem getElem?_powersFrom (k i j : Nat) (h : j < k) :
    (powersFrom k ((gfPow i).setWidth 9))[j]? = some (gfPow (i + j)) := by
  induction k generalizing i j with
  | zero => omega
  | succ k ih =>
    cases j with
    | zero => simp [powersFrom]
    | succ j =>
      have := ih (i + 1) j (by omega)
      rw [show i + (j + 1) = i + 1 + j by omega]
      simpa [powersFrom, gfDouble_gfPow] using this

theorem length_powersFrom (k : Nat) (x : BitVec 9) : (powersFrom k x).length = k := by
  induction k generalizing x with
  | zero => rfl
  | succ k ih => simp [powersFrom, ih]

/-- The powers are those of the table R127 prints. -/
theorem getElem?_powerTable {i : Nat} (h : i < 255) : powerTable[i]? = some (gfPow i).toNat := by
  have := getElem?_powersFrom 255 0 i h
  rw [← one_eq_setWidth_gfPow_zero, Nat.zero_add] at this
  rw [← map_toNat_powersFrom_one, List.getElem?_map, this]
  rfl

theorem powerTable_facts : powerTable.length = 255 ∧ (∀ x ∈ powerTable, x ≠ 0) ∧ (∀ x ∈ powerTable.tail, x ≠ 1) := by
  decide +kernel

theorem gfPow_lt_ne_one {k : Nat} (h0 : k ≠ 0) (hk : k < 255) : gfPow k ≠ 1 := by
  have h := getElem?_powerTable hk
  obtain ⟨j, rfl⟩ := Nat.exists_eq_succ_of_ne_zero h0
  rw [← List.getElem?_tail] at h
  intro h1
  exact powerTable_facts.2.2 _ (List.mem_of_getElem? h) (by rw [h1]; rfl)

/-- Halving undoes a doubling, so doubling is injective. -/
theorem half_double : ∀ b : Byte,
    (fun y : Byte => (y >>> 1) ^^^ (if y.getLsbD 0 then 0x8E else 0)) (gfTwice b) = b := by decide +kernel

theorem gfPow_succ_injective {i j : Nat} (h : gfPow (i + 1) = gfPow (j + 1)) : gfPow i = gfPow j := by
  simp only [gfPow] at h
  have hi := half_double (gfPow i)
  rw [h, half_double] at hi
  exact hi.symm

/-- The 255 powers are distinct (R121). -/
theorem gfPow_injective {i j : Nat} (hi : i < 255) (hj : j < 255) (h : gfPow i = gfPow j) : i = j := by
  have down : ∀ i d, gfPow i = gfPow (i + d) → gfPow 0 = gfPow d := by
    intro i
    induction i with
    | zero => intro d h; simpa using h
    | succ i ih => intro d h; exact ih d (gfPow_succ_injective (by rwa [show i + 1 + d = i + d + 1 by omega] at h))
  by_contra hne
  rcases Nat.lt_or_gt_of_ne hne with hlt | hlt
  · exact gfPow_lt_ne_one (k := j - i) (by omega) (by omega)
      (down i (j - i) (by rw [h]; congr 1; omega)).symm
  · exact gfPow_lt_ne_one (k := i - j) (by omega) (by omega)
      (down j (i - j) (by rw [← h]; congr 1; omega)).symm

theorem gfPow_255 : gfPow (0 + 255) = gfPow 0 := by decide +kernel

/-- "values repeat with period 255" (R121). -/
theorem gfPow_add_period (i : Nat) : gfPow (i + 255) = gfPow i := by
  induction i with
  | zero => exact gfPow_255
  | succ i ih => rw [show i + 1 + 255 = (i + 255) + 1 by omega, gfPow, ih, ← gfPow]

theorem gfPow_mod (i : Nat) : gfPow (i % 255) = gfPow i := by
  have key : ∀ q r, gfPow (r + 255 * q) = gfPow r := by
    intro q r
    induction q with
    | zero => simp
    | succ q ih => rw [show r + 255 * (q + 1) = (r + 255 * q) + 255 by omega, gfPow_add_period, ih]
  conv_rhs => rw [← Nat.mod_add_div i 255, key]

theorem gfPow_ne_zero (i : Nat) : gfPow i ≠ 0 := by
  have h := getElem?_powerTable (i := i % 255) (Nat.mod_lt _ (by decide))
  rw [gfPow_mod] at h
  intro h0
  exact powerTable_facts.2.1 _ (List.mem_of_getElem? h) (by rw [h0]; rfl)

/-- The powers are all of 1..255: 255 distinct nonzero bytes are all of them (R121). -/
theorem gfPow_surjective (x : Byte) (hx : x ≠ 0) : ∃ i, i < 255 ∧ gfPow i = x := by
  let f : Fin 255 → Fin 256 := fun i => ⟨(gfPow i.val).toNat, (gfPow i.val).isLt⟩
  have hf : Function.Injective f := by
    intro i j h
    have : (gfPow i.val).toNat = (gfPow j.val).toNat := congrArg Fin.val h
    exact Fin.ext (gfPow_injective i.isLt j.isLt (BitVec.eq_of_toNat_eq this))
  have hsub : Finset.univ.image f ⊆ Finset.univ.erase 0 := by
    intro y hy
    obtain ⟨i, _, rfl⟩ := Finset.mem_image.mp hy
    refine Finset.mem_erase.mpr ⟨fun h => gfPow_ne_zero i.val (BitVec.eq_of_toNat_eq ?_), Finset.mem_univ _⟩
    simpa [f] using congrArg Fin.val h
  have heq := Finset.eq_of_subset_of_card_le hsub (by
    rw [Finset.card_image_of_injective _ hf, Finset.card_erase_of_mem (Finset.mem_univ _)]; simp)
  have hmem : (⟨x.toNat, x.isLt⟩ : Fin 256) ∈ Finset.univ.erase 0 := by
    refine Finset.mem_erase.mpr ⟨fun h => hx (BitVec.eq_of_toNat_eq ?_), Finset.mem_univ _⟩
    simpa using congrArg Fin.val h
  rw [← heq] at hmem
  obtain ⟨i, _, hi⟩ := Finset.mem_image.mp hmem
  exact ⟨i.val, i.isLt, BitVec.eq_of_toNat_eq (congrArg Fin.val hi)⟩

/-! ### The table build -/

section Build

theorem length_expTable : expTable.length = 512 := by
  simp only [expTable, List.length_append, List.length_take, length_powersFrom]
  rfl

/-- EXP[i] is `2^(i mod 255)` for every i in 0..511 (R121). -/
theorem getElem?_expTable {i : Nat} (h : i < 512) : expTable[i]? = some (gfPow (i % 255)) := by
  have first : ∀ j, j < 255 → (powersFrom 255 1)[j]? = some (gfPow j) := by
    intro j hj
    have := getElem?_powersFrom 255 0 j hj
    rwa [← one_eq_setWidth_gfPow_zero, Nat.zero_add] at this
  have len := length_powersFrom 255 1
  simp only [expTable]
  by_cases h1 : i < 255
  · rw [List.getElem?_append_left (by rw [List.length_append, len]; omega),
      List.getElem?_append_left (by rw [len]; omega), first i h1, Nat.mod_eq_of_lt h1]
  · by_cases h2 : i < 510
    · rw [List.getElem?_append_left (by rw [List.length_append, len]; omega),
        List.getElem?_append_right (by rw [len]; omega), len, first _ (by omega),
        show i % 255 = i - 255 by omega]
    · rw [List.getElem?_append_right (by rw [List.length_append, len]; omega), List.length_append, len,
        List.getElem?_take, if_pos (by omega), first _ (by omega), show i % 255 = i - (255 + 255) by omega]

/-- Writing the logarithms leaves every other address alone. -/
theorem memRead_writeLogs_other (k i : Nat) (m : Memory) (a : Nat)
    (hlog : ∀ j, i ≤ j → j < i + k → a ≠ logAddr (gfPow j).toNat) :
    memRead (writeLogs k i ((gfPow i).setWidth 9) m) a = memRead m a := by
  induction k generalizing i m with
  | zero => rfl
  | succ k ih =>
    simp only [writeLogs, gfDouble_gfPow]
    rw [ih _ _ (fun j h1 h2 => hlog j (by omega) (by omega)), memRead_memWrite_other]
    rw [toNat_setWidth_nine]
    exact fun h => hlog i (by omega) (by omega) h.symm

/-- `LOG[2^j] <- j`. -/
theorem memRead_writeLogs_at (k i : Nat) (m : Memory) (hk : i + k ≤ 255) (j : Nat) (hi : i ≤ j) (hj : j < i + k) :
    memRead (writeLogs k i ((gfPow i).setWidth 9) m) (logAddr (gfPow j).toNat) = some (BitVec.ofNat 8 j) := by
  induction k generalizing i m with
  | zero => omega
  | succ k ih =>
    simp only [writeLogs, gfDouble_gfPow]
    by_cases h : i = j
    · subst h
      rw [memRead_writeLogs_other, toNat_setWidth_nine, memRead_memWrite_same]
      intro j' h1 h2 h3
      have := gfPow_injective (i := i) (j := j') (by omega) (by omega)
        (BitVec.eq_of_toNat_eq (by simp only [logAddr] at h3; omega))
      omega
    · exact ih (i + 1) _ (by omega) (by omega) (by omega)

theorem toNat_gfPow_ne_zero (i : Nat) : (gfPow i).toNat ≠ 0 :=
  fun h => gfPow_ne_zero i (BitVec.eq_of_toNat_eq (by simpa using h))

/-- An address of LOG[1..255] is the only one a logarithm is written to. -/
theorem logAddr_gfPow_mem (i : Nat) : inLog (logAddr (gfPow i).toNat) = true ∧ logAddr (gfPow i).toNat ≠ logAddr 0 := by
  have hne := toNat_gfPow_ne_zero i
  have hlt := (gfPow i).isLt
  exact ⟨decide_eq_true (by simp only [logAddr]; omega), by simp only [logAddr]; omega⟩

/-- `build_tables()` leaves every address but EXP's and LOG[1..255]'s alone. -/
theorem memRead_buildTables_other (m : Memory) (a : Nat) (hexp : inExp a = false)
    (hlog : inLog a = false ∨ a = logAddr 0) : memRead (buildTables m) a = memRead m a := by
  unfold buildTables
  rw [memRead_memWriteList_outside, one_eq_setWidth_gfPow_zero, memRead_writeLogs_other]
  · intro j _ _ h
    have := logAddr_gfPow_mem j
    rcases hlog with hlog | hlog
    · rw [h, this.1] at hlog; exact Bool.noConfusion hlog
    · exact this.2 (h.symm.trans hlog)
  · rw [length_expTable]
    simp only [inExp, decide_eq_false_iff_not, expAddr] at *; omega

/-- `build_tables()` builds the tables of R121. -/
theorem tablesBuilt_buildTables (m : Memory) : TablesBuilt (buildTables m) := by
  constructor
  · intro i hi
    have hi' : i < expTable.length := by rw [length_expTable]; exact hi
    have h := memRead_memWriteList_at hi' (expAddr 0) (writeLogs 255 0 1 m)
    have e := getElem?_expTable hi
    rw [List.getElem?_eq_getElem hi'] at e
    rw [← e]
    exact h
  · intro i hi
    unfold buildTables
    rw [memRead_memWriteList_outside, one_eq_setWidth_gfPow_zero]
    · exact memRead_writeLogs_at 255 0 m (by omega) i (by omega) (by omega)
    · rw [length_expTable]; simp only [expAddr, logAddr]; omega

theorem Memory.wf_writeLogs (k i : Nat) (x : BitVec 9) {m : Memory} (h : m.wf = true) :
    (writeLogs k i x m).wf = true := by
  induction k generalizing i x m with
  | zero => exact h
  | succ k ih => exact ih _ _ (Memory.wf_memWrite _ _ h)

theorem Memory.wf_buildTables {m : Memory} (h : m.wf = true) : (buildTables m).wf = true :=
  Memory.wf_memWriteList _ _ (Memory.wf_writeLogs _ _ _ h)

/-- What the table build can list: an address of EXP or of LOG[1..255], or one listed before. -/
theorem lookupKey_buildTables {m : Memory} {a : Nat} {v : Byte} (h : lookupKey a (buildTables m) = some v) :
    inExp a = true ∨ (inLog a = true ∧ a ≠ logAddr 0) ∨ lookupKey a m = some v := by
  have logs : ∀ (k i : Nat) (m : Memory), lookupKey a (writeLogs k i ((gfPow i).setWidth 9) m) = some v →
      (inLog a = true ∧ a ≠ logAddr 0) ∨ lookupKey a m = some v := by
    intro k
    induction k with
    | zero => exact fun _ _ h => .inr h
    | succ k ih =>
      intro i m h
      simp only [writeLogs, gfDouble_gfPow] at h
      rcases ih _ _ h with h | h
      · exact .inl h
      · rcases lookupKey_memWrite h with ⟨rfl, _⟩ | h
        · rw [toNat_setWidth_nine]; exact .inl (logAddr_gfPow_mem i)
        · exact .inr h
  unfold buildTables at h
  rcases lookupKey_memWriteList h with ⟨h1, h2, _⟩ | h
  · rw [length_expTable] at h2
    exact .inl (decide_eq_true (by simp only [expAddr] at *; omega))
  · rw [one_eq_setWidth_gfPow_zero] at h
    exact .inr (logs 255 0 m h)

end Build

/-! ### The lazy build -/

theorem ensureGf_of_valid {s : State} (h : s.gfvalid = true) : ensureGf s = s := by simp [ensureGf, h]

theorem ensureGf_of_not_valid {s : State} (h : s.gfvalid = false) :
    ensureGf s = { s with mem := buildTables s.mem, gfvalid := true } := by simp [ensureGf, h]

/-- After `ensure_gf()` the tables are there. -/
theorem tablesBuilt_ensureGf {s : State} (h : s.gfvalid = true → TablesBuilt s.mem) : TablesBuilt (ensureGf s).mem := by
  cases hv : s.gfvalid with
  | true => rw [ensureGf_of_valid hv]; exact h hv
  | false => simpa only [ensureGf_of_not_valid hv] using tablesBuilt_buildTables s.mem

/-- `ensure_gf()` leaves every element but EXP's and LOG[1..255]'s alone. -/
theorem byteAt_ensureGf_other (s : State) {a : Nat} (hexp : inExp a = false) (hlog : inLog a = false ∨ a = logAddr 0) :
    (ensureGf s).byteAt a = s.byteAt a := by
  cases hv : s.gfvalid with
  | true => rw [ensureGf_of_valid hv]
  | false =>
    rw [ensureGf_of_not_valid hv]
    simp only [State.byteAt, memRead_buildTables_other s.mem a hexp hlog]

@[simp] theorem ensureGf_ensureGf (s : State) : ensureGf (ensureGf s) = ensureGf s :=
  ensureGf_of_valid (ensureGf_gfvalid s)

/-! ### The multiplier on built tables -/

theorem State.exp_eq {s : State} (h : TablesBuilt s.mem) {i : Nat} (hi : i < 512) : s.exp i = gfPow i := by
  simp [State.exp, State.byteAt, h.1 i hi, gfPow_mod]

theorem State.log_eq {s : State} (h : TablesBuilt s.mem) {i : Nat} (hi : i < 255) :
    s.log (gfPow i) = BitVec.ofNat 8 i := by
  simp [State.log, State.byteAt, h.2 i hi]

@[simp] theorem State.gfmul_zero_left (s : State) (b : Byte) : s.gfmul 0#8 b = 0#8 := by simp [State.gfmul]

@[simp] theorem State.gfmul_zero_right (s : State) (a : Byte) : s.gfmul a 0#8 = 0#8 := by simp [State.gfmul]

/-- Powers multiply by adding exponents (R124). -/
theorem State.gfmul_gfPow {s : State} (h : TablesBuilt s.mem) {i j : Nat} (hi : i < 255) (hj : j < 255) :
    s.gfmul (gfPow i) (gfPow j) = gfPow (i + j) := by
  have e : ∀ k, k < 255 → (BitVec.ofNat 8 k).toNat = k := fun k hk => by simp; omega
  simp only [State.gfmul, gfPow_ne_zero, or_self, if_false, State.log_eq h hi, State.log_eq h hj, e i hi, e j hj]
  exact State.exp_eq h (by omega)

end Sys2Proof.Machine
end

