-- ==== Sys2Proof/Laws/Field.lean ====
section
/-! SUPPORT. The field arithmetic of `gfTimes`, bit by bit: its laws, that the multiplier on built tables computes it, and the
polynomials over it. -/

-- One theorem at a time: each thread of Lean's reserves address space, which check.sh limits.
set_option Elab.async false

namespace Sys2Proof.Machine

/-! ### XOR -/

theorem byteXor_left_comm (a b c : Byte) : a ^^^ (b ^^^ c) = b ^^^ (a ^^^ c) := by
  rw [← BitVec.xor_assoc, BitVec.xor_comm a b, BitVec.xor_assoc]

/-! ### The product -/

theorem gfTwice_xor (x y : Byte) : gfTwice (x ^^^ y) = gfTwice x ^^^ gfTwice y := by
  unfold gfTwice
  rw [BitVec.msb_xor]
  have e : (x ^^^ y) <<< 1 = (x <<< 1) ^^^ (y <<< 1) := BitVec.shiftLeft_xor_distrib x y 1
  rw [e]
  cases x.msb <;> cases y.msb <;> simp [BitVec.xor_assoc, BitVec.xor_comm, byteXor_left_comm]

@[simp] theorem gfTwice_zero : gfTwice 0#8 = 0#8 := by decide

/-- The bits of the second factor, as a list of positions. -/
def gfFold (a b : Byte) (l : List Nat) (acc : Byte) : Byte :=
  l.foldl (fun acc k => gfTwice acc ^^^ (if b.getLsbD k then a else 0)) acc

theorem gfTimes_eq_fold (a b : Byte) : gfTimes a b = gfFold a b [7, 6, 5, 4, 3, 2, 1, 0] 0 := rfl

theorem gfFold_xor_left (a a' b : Byte) (l : List Nat) (x x' : Byte) :
    gfFold (a ^^^ a') b l (x ^^^ x') = gfFold a b l x ^^^ gfFold a' b l x' := by
  induction l generalizing x x' with
  | nil => rfl
  | cons k l ih =>
    simp only [gfFold, List.foldl_cons] at ih ⊢
    rw [← ih]
    congr 1
    rw [gfTwice_xor]
    cases b.getLsbD k <;> simp [BitVec.xor_assoc, BitVec.xor_comm, byteXor_left_comm]

theorem gfFold_xor_right (a b b' : Byte) (l : List Nat) (x x' : Byte) :
    gfFold a (b ^^^ b') l (x ^^^ x') = gfFold a b l x ^^^ gfFold a b' l x' := by
  induction l generalizing x x' with
  | nil => rfl
  | cons k l ih =>
    simp only [gfFold, List.foldl_cons] at ih ⊢
    rw [← ih]
    congr 1
    rw [gfTwice_xor, BitVec.getLsbD_xor]
    cases b.getLsbD k <;> cases b'.getLsbD k <;>
      simp [BitVec.xor_assoc, byteXor_left_comm, BitVec.xor_comm]

theorem gfFold_twice (a b : Byte) (l : List Nat) (x : Byte) :
    gfFold (gfTwice a) b l (gfTwice x) = gfTwice (gfFold a b l x) := by
  induction l generalizing x with
  | nil => rfl
  | cons k l ih =>
    simp only [gfFold, List.foldl_cons] at ih ⊢
    rw [← ih]
    congr 1
    rw [gfTwice_xor]
    cases b.getLsbD k <;> simp

theorem gfTimes_xor_left (a a' b : Byte) : gfTimes (a ^^^ a') b = gfTimes a b ^^^ gfTimes a' b := by
  simpa [gfTimes_eq_fold] using gfFold_xor_left a a' b [7, 6, 5, 4, 3, 2, 1, 0] 0 0

theorem gfTimes_xor_right (a b b' : Byte) : gfTimes a (b ^^^ b') = gfTimes a b ^^^ gfTimes a b' := by
  simpa [gfTimes_eq_fold] using gfFold_xor_right a b b' [7, 6, 5, 4, 3, 2, 1, 0] 0 0

theorem gfTimes_twice (a b : Byte) : gfTimes (gfTwice a) b = gfTwice (gfTimes a b) := by
  simpa [gfTimes_eq_fold] using gfFold_twice a b [7, 6, 5, 4, 3, 2, 1, 0] 0

@[simp] theorem gfTimes_one_left : ∀ b, gfTimes 1#8 b = b := by decide +kernel

@[simp] theorem gfTimes_zero_left (b : Byte) : gfTimes 0#8 b = 0#8 := by
  have h := gfTimes_xor_left 0 0 b
  simpa using h

@[simp] theorem gfTimes_zero_right (a : Byte) : gfTimes a 0#8 = 0#8 := by
  have h := gfTimes_xor_right a 0 0
  simpa using h

/-- Powers multiply by adding exponents. -/
theorem gfTimes_gfPow (i j : Nat) : gfTimes (gfPow i) (gfPow j) = gfPow (i + j) := by
  induction i with
  | zero => simp [gfPow]
  | succ i ih => rw [gfPow, gfTimes_twice, ih, show i + 1 + j = (i + j) + 1 by omega, gfPow]

theorem gfTimes_comm (a b : Byte) : gfTimes a b = gfTimes b a := by
  by_cases ha : a = 0
  · simp [ha]
  by_cases hb : b = 0
  · simp [hb]
  obtain ⟨i, _, rfl⟩ := gfPow_surjective a ha
  obtain ⟨j, _, rfl⟩ := gfPow_surjective b hb
  rw [gfTimes_gfPow, gfTimes_gfPow, Nat.add_comm]

@[simp] theorem gfTimes_one_right (a : Byte) : gfTimes a 1#8 = a := by rw [gfTimes_comm, gfTimes_one_left]

theorem gfTimes_assoc (a b c : Byte) : gfTimes (gfTimes a b) c = gfTimes a (gfTimes b c) := by
  by_cases ha : a = 0
  · simp [ha]
  by_cases hb : b = 0
  · simp [hb]
  by_cases hc : c = 0
  · simp [hc]
  obtain ⟨i, _, rfl⟩ := gfPow_surjective a ha
  obtain ⟨j, _, rfl⟩ := gfPow_surjective b hb
  obtain ⟨k, _, rfl⟩ := gfPow_surjective c hc
  simp only [gfTimes_gfPow, Nat.add_assoc]

/-- On built tables the multiplier is the product of the field. -/
theorem State.gfmul_eq_gfTimes {s : State} (h : TablesBuilt s.mem) (a b : Byte) : s.gfmul a b = gfTimes a b := by
  by_cases ha : a = 0
  · simp [ha]
  by_cases hb : b = 0
  · simp [hb]
  obtain ⟨i, hi, rfl⟩ := gfPow_surjective a ha
  obtain ⟨j, hj, rfl⟩ := gfPow_surjective b hb
  rw [State.gfmul_gfPow h hi hj, gfTimes_gfPow]

/-! ### Sequences of bytes added position by position -/

/-- Bytewise XOR of two sequences. -/
def xorList (p q : List Byte) : List Byte := List.zipWith (· ^^^ ·) p q

@[simp] theorem length_xorList (p q : List Byte) : (xorList p q).length = min p.length q.length := by simp [xorList]

@[simp] theorem xorList_cons (a b : Byte) (p q : List Byte) : xorList (a :: p) (b :: q) = (a ^^^ b) :: xorList p q := rfl

@[simp] theorem xorList_nil_left (q : List Byte) : xorList [] q = [] := rfl

@[simp] theorem xorList_nil_right (p : List Byte) : xorList p [] = [] := by cases p <;> rfl

theorem xorList_comm (p q : List Byte) : xorList p q = xorList q p := by
  induction p generalizing q with
  | nil => simp
  | cons a p ih => cases q with
    | nil => rfl
    | cons b q => simp [ih q, BitVec.xor_comm]

theorem xorList_assoc (p q r : List Byte) : xorList (xorList p q) r = xorList p (xorList q r) := by
  induction p generalizing q r with
  | nil => simp
  | cons a p ih => cases q with
    | nil => simp
    | cons b q => cases r with
      | nil => rfl
      | cons c r => simp [ih q r, BitVec.xor_assoc]

theorem xorList_zero (p : List Byte) {k : Nat} (h : k = p.length) : xorList p (List.replicate k 0) = p := by
  subst h
  induction p with
  | nil => rfl
  | cons a p ih => simpa [List.replicate_succ] using ih

theorem xorList_self (p : List Byte) : xorList p p = List.replicate p.length 0 := by
  induction p with
  | nil => rfl
  | cons a p ih => simp [ih, List.replicate_succ]

theorem xorList_append {p p' q q' : List Byte} (h : p.length = q.length) :
    xorList (p ++ p') (q ++ q') = xorList p q ++ xorList p' q' := by
  induction p generalizing q with
  | nil => cases q with
    | nil => rfl
    | cons b q => simp at h
  | cons a p ih => cases q with
    | nil => simp at h
    | cons b q => simp [ih (by simpa using h)]

/-! ### Polynomials -/

/-- The value of a polynomial from an accumulator, as `polyEval` computes it. -/
def polyFold (p : List Byte) (x acc : Byte) : Byte := p.foldl (fun acc c => gfTimes acc x ^^^ c) acc

theorem polyEval_eq_fold (p : List Byte) (x : Byte) : polyEval p x = polyFold p x 0 := rfl

theorem polyFold_append (p q : List Byte) (x acc : Byte) : polyFold (p ++ q) x acc = polyFold q x (polyFold p x acc) := by
  simp [polyFold, List.foldl_append]

/-- The value is linear in the coefficients. -/
theorem polyFold_xorList {p q : List Byte} (h : p.length = q.length) (x a b : Byte) :
    polyFold (xorList p q) x (a ^^^ b) = polyFold p x a ^^^ polyFold q x b := by
  induction p generalizing q a b with
  | nil => cases q with
    | nil => rfl
    | cons c q => simp at h
  | cons c p ih => cases q with
    | nil => simp at h
    | cons d q =>
      have := ih (q := q) (by simpa using h) (gfTimes a x ^^^ c) (gfTimes b x ^^^ d)
      simp only [polyFold, xorList_cons, List.foldl_cons] at this ⊢
      rw [← this]
      congr 1
      rw [gfTimes_xor_left]
      simp [BitVec.xor_assoc, BitVec.xor_comm, byteXor_left_comm]

theorem polyEval_xorList {p q : List Byte} (h : p.length = q.length) (x : Byte) :
    polyEval (xorList p q) x = polyEval p x ^^^ polyEval q x := by
  simpa [polyEval_eq_fold] using polyFold_xorList h x 0 0

/-- Scaling the coefficients scales the value. -/
theorem polyFold_map_gfTimes (a : Byte) (p : List Byte) (x acc : Byte) :
    polyFold (p.map (gfTimes a)) x (gfTimes a acc) = gfTimes a (polyFold p x acc) := by
  induction p generalizing acc with
  | nil => rfl
  | cons c p ih =>
    have := ih (gfTimes acc x ^^^ c)
    simp only [polyFold, List.map_cons, List.foldl_cons] at this ⊢
    rw [← this, gfTimes_xor_right, gfTimes_assoc]

theorem polyEval_map_gfTimes (a : Byte) (p : List Byte) (x : Byte) :
    polyEval (p.map (gfTimes a)) x = gfTimes a (polyEval p x) := by
  simpa [polyEval_eq_fold] using polyFold_map_gfTimes a p x 0

theorem polyFold_zero (k : Nat) (x : Byte) : polyFold (List.replicate k 0) x 0 = 0 := by
  induction k with
  | zero => rfl
  | succ k ih => simpa [polyFold, List.replicate_succ] using ih

/-- A leading zero changes nothing. -/
theorem polyEval_zero_cons (p : List Byte) (x : Byte) : polyEval (0 :: p) x = polyEval p x := by
  simp [polyEval]

/-- A trailing zero multiplies by x. -/
theorem polyEval_append_zero (p : List Byte) (x : Byte) : polyEval (p ++ [0]) x = gfTimes (polyEval p x) x := by
  simp [polyEval]

theorem length_polyTimes {g : List Byte} (hg : g ≠ []) (p : List Byte) :
    (polyTimes p g).length = p.length + g.length - 1 := by
  have : 0 < g.length := List.length_pos_of_ne_nil hg
  induction p with
  | nil => simp [polyTimes]
  | cons a p ih => simp [polyTimes, ih]; omega

/-- The value of a product of polynomials is the product of the values. -/
theorem polyEval_polyTimes {g : List Byte} (hg : g ≠ []) (p : List Byte) (x : Byte) :
    polyEval (polyTimes p g) x = gfTimes (polyEval p x) (polyEval g x) := by
  have hpos : 0 < g.length := List.length_pos_of_ne_nil hg
  have hacc : ∀ (p : List Byte) (c : Byte), polyFold p x c = polyFold (List.replicate p.length 0) x c ^^^ polyFold p x 0 := by
    intro p c
    have := polyFold_xorList (p := List.replicate p.length 0) (q := p) (by simp) x c 0
    rw [xorList_comm, xorList_zero p rfl] at this
    simpa using this
  have hscale : ∀ (k : Nat) (a b : Byte), polyFold (List.replicate k 0) x (gfTimes a b) =
      gfTimes (polyFold (List.replicate k 0) x a) b := by
    intro k
    induction k with
    | zero => exact fun _ _ => rfl
    | succ k ih =>
      intro a b
      have z : ∀ c : Byte, polyFold (List.replicate (k + 1) 0) x c = polyFold (List.replicate k 0) x (gfTimes c x) := by
        intro c; simp [polyFold, List.replicate_succ]
      rw [z, z, gfTimes_assoc, gfTimes_comm b x, ← gfTimes_assoc, ih]
  induction p with
  | nil =>
    rw [polyTimes, polyEval_eq_fold, polyFold_zero]
    exact (gfTimes_zero_left _).symm
  | cons a p ih =>
    have hlen : (g.map (gfTimes a) ++ List.replicate p.length 0).length = (0 :: polyTimes p g).length := by
      simp [length_polyTimes hg]; omega
    have e := polyEval_xorList hlen x
    simp only [xorList] at e
    rw [polyTimes, e, polyEval_zero_cons, ih]
    rw [polyEval_eq_fold (g.map (gfTimes a) ++ _), polyFold_append, ← polyEval_eq_fold, polyEval_map_gfTimes]
    have h1 : polyEval (a :: p) x = polyFold (List.replicate p.length 0) x a ^^^ polyEval p x := by
      rw [polyEval_eq_fold p, ← hacc]; simp [polyEval, polyFold]
    rw [h1, gfTimes_xor_left, hscale]

end Sys2Proof.Machine
end

