-- ==== Sys2Proof/Laws/Matrix.lean ====
section
/-! SUPPORT. What the matrix operations make of each cell, and that they keep the store's canonical form and its cells inside
the matrix. -/

-- One theorem at a time: each thread of Lean's reserves address space, which check.sh limits.
set_option Elab.async false

namespace Sys2Proof.Machine

/-! ### Cells inside the matrix -/

/-- Every listed cell is inside the n by n matrix (R36). -/
def CellsWithin (n : Nat) (m : Matrix) : Prop :=
  ∀ a t, lookupKey a m = some t → ∃ r c, a = cellAddr r c ∧ r < n ∧ c < n

theorem cellsWithin_newMatrix (n : Nat) : CellsWithin n newMatrix := by
  intro a t h; simp [newMatrix] at h

theorem cellsWithin_setCell {n r c : Nat} (hr : r < n) (hc : c < n) (t : CellState) {m : Matrix}
    (h : CellsWithin n m) : CellsWithin n (setCell r c t m) := by
  intro a u ha
  rcases lookupKey_setCell ha with rfl | ha
  · exact ⟨r, c, rfl, hr, hc⟩
  · exact h a u ha

/-- A property that every visited cell's write keeps is kept by the whole walk. -/
theorem foldl_keeps {α β : Type} (P : β → Prop) (f : β → α → β) (l : List α)
    (hf : ∀ b, ∀ a ∈ l, P b → P (f b a)) (b : β) (hb : P b) : P (l.foldl f b) := by
  induction l generalizing b with
  | nil => exact hb
  | cons a l ih =>
    exact ih (fun b a' ha' => hf b a' (List.mem_cons_of_mem _ ha')) _ (hf b a (by simp) hb)

/-! ### Finder (R192) -/

/-- Where the finder's motif lies: matrix cell (r, c) is one of the 49 positions from the anchor. -/
def InMotif (row col : Int) (r c : Nat) : Prop := row ≤ r ∧ (r : Int) < row + 7 ∧ col ≤ c ∧ (c : Int) < col + 7

theorem stampMotifCell_getCell {n : Nat} (hn : n ≤ 64) (row col : Int) (m : Matrix) (d : Nat × Nat) {r c : Nat}
    (hc : c < 64) :
    getCell (stampMotifCell n row col m d) r c =
      if row + d.1 = r ∧ col + d.2 = c ∧ r < n ∧ c < n then motifCell d.1 d.2 else getCell m r c := by
  simp only [stampMotifCell]
  split
  · rename_i h
    rw [getCell_setCell (by omega) hc]
    split
    · rw [if_pos (by omega)]
    · rw [if_neg (by omega)]
  · rw [if_neg (by omega)]

theorem stampFinder_foldl_getCell {n : Nat} (hn : n ≤ 64) (row col : Int) (l : List (Nat × Nat)) (m : Matrix)
    {r c : Nat} (hc : c < 64) :
    getCell (l.foldl (stampMotifCell n row col) m) r c =
      if (∃ d ∈ l, row + d.1 = r ∧ col + d.2 = c) ∧ r < n ∧ c < n then
        motifCell (r - row).toNat (c - col).toNat
      else getCell m r c := by
  induction l generalizing m with
  | nil => simp
  | cons d l ih =>
    rw [List.foldl_cons, ih, stampMotifCell_getCell hn row col m d hc]
    by_cases h1 : (∃ d ∈ l, row + d.1 = r ∧ col + d.2 = c) ∧ r < n ∧ c < n
    · rw [if_pos h1, if_pos]
      obtain ⟨⟨d', hd', h⟩, hn⟩ := h1
      exact ⟨⟨d', List.mem_cons_of_mem _ hd', h⟩, hn⟩
    · rw [if_neg h1]
      by_cases h2 : row + d.1 = r ∧ col + d.2 = c ∧ r < n ∧ c < n
      · rw [if_pos h2, if_pos ⟨⟨d, by simp, h2.1, h2.2.1⟩, h2.2.2⟩]
        congr 1 <;> omega
      · rw [if_neg h2, if_neg]
        rintro ⟨⟨d', hd', h3, h4⟩, h5⟩
        rcases List.mem_cons.mp hd' with rfl | hd'
        · exact h2 ⟨h3, h4, h5⟩
        · exact h1 ⟨⟨d', hd', h3, h4⟩, h5⟩

/-- `stamp_finder(row, col)`: the motif inside the grid, every other cell as before (R192). -/
theorem stampFinder_getCell {n : Nat} (hn : n ≤ 64) (row col : Int) (m : Matrix) {r c : Nat} (hc : c < 64) :
    getCell (stampFinder n row col m) r c =
      open Classical in
      if InMotif row col r c ∧ r < n ∧ c < n then motifCell (r - row).toNat (c - col).toNat else getCell m r c := by
  classical
  rw [stampFinder, stampFinder_foldl_getCell hn row col _ m hc]
  have : (∃ d ∈ gridCoords 7 7, row + (d.1 : Int) = r ∧ col + (d.2 : Int) = c) ↔ InMotif row col r c := by
    constructor
    · rintro ⟨d, hd, h1, h2⟩
      have := mem_gridCoords.mp hd
      unfold InMotif; omega
    · intro h
      unfold InMotif at h
      refine ⟨((r - row).toNat, (c - col).toNat), mem_gridCoords.mpr ⟨?_, ?_⟩, ?_, ?_⟩ <;> simp only <;> omega
  simp only [this]

theorem stampFinder_wf (n : Nat) (row col : Int) {m : Matrix} (h : m.wf = true) : (stampFinder n row col m).wf = true := by
  refine foldl_keeps (fun m : Matrix => m.wf = true) _ _ (fun m d _ h => ?_) m h
  simp only [stampMotifCell]; split
  · exact Matrix.wf_setCell _ _ _ h
  · exact h

theorem stampFinder_within (n : Nat) (row col : Int) {m : Matrix} (h : CellsWithin n m) :
    CellsWithin n (stampFinder n row col m) := by
  refine foldl_keeps (CellsWithin n) _ _ (fun m d _ h => ?_) m h
  simp only [stampMotifCell]; split
  · exact cellsWithin_setCell (by omega) (by omega) _ h
  · exact h

/-! ### Unresolved cells only (R195) -/

theorem setIfUnresolved_getCell {c c' : Nat} (hc : c < 64) (hc' : c' < 64) (r r' : Nat) (t : CellState) (m : Matrix) :
    getCell (setIfUnresolved r c t m) r' c' =
      if r = r' ∧ c = c' ∧ getCell m r' c' = .unresolved then t else getCell m r' c' := by
  unfold setIfUnresolved
  split
  · rename_i h
    rw [getCell_setCell hc hc']
    by_cases hrc : r = r' ∧ c = c'
    · obtain ⟨rfl, rfl⟩ := hrc; simp [h]
    · rw [if_neg hrc, if_neg (fun h => hrc ⟨h.1, h.2.1⟩)]
  · rename_i h
    rw [if_neg]
    rintro ⟨rfl, rfl, h'⟩
    exact h h'

theorem setIfUnresolved_wf (r c : Nat) (t : CellState) {m : Matrix} (h : m.wf = true) :
    (setIfUnresolved r c t m).wf = true := by
  unfold setIfUnresolved; split
  · exact Matrix.wf_setCell _ _ _ h
  · exact h

theorem setIfUnresolved_within {n r c : Nat} (hr : r < n) (hc : c < n) (t : CellState) {m : Matrix}
    (h : CellsWithin n m) : CellsWithin n (setIfUnresolved r c t m) := by
  unfold setIfUnresolved; split
  · exact cellsWithin_setCell hr hc t h
  · exact h

/-- A walk that fills unresolved cells, each cell with a colour that is its own: the cells it lists that were unresolved are
filled, every other cell is as before. -/
theorem foldl_setIfUnresolved_getCell {α : Type} (pos : α → Nat × Nat) (colour : Nat → Nat → CellState)
    (hcol : ∀ r c, colour r c ≠ .unresolved) (l : List α) (hl : ∀ a ∈ l, (pos a).2 < 64) (m : Matrix) {r c : Nat}
    (hc : c < 64) :
    getCell (l.foldl (fun m a => setIfUnresolved (pos a).1 (pos a).2 (colour (pos a).1 (pos a).2) m) m) r c =
      open Classical in
      if (∃ a ∈ l, pos a = (r, c)) ∧ getCell m r c = .unresolved then colour r c else getCell m r c := by
  classical
  induction l generalizing m with
  | nil => simp
  | cons a l ih =>
    rw [List.foldl_cons, ih (fun a ha => hl a (List.mem_cons_of_mem _ ha)),
      setIfUnresolved_getCell (hl a (by simp)) hc]
    by_cases hu : getCell m r c = .unresolved
    · by_cases ha : pos a = (r, c)
      · simp [ha, hu, hcol]
      · have : ¬((pos a).1 = r ∧ (pos a).2 = c) := fun h => ha (Prod.ext h.1 h.2)
        simp only [hu, and_true, this, if_false, List.mem_cons, exists_eq_or_imp, ha, false_or]
    · simp [hu]

/-! ### Structural stamp (R195, R197) -/

/-- The two ways to write the motif agree (R193). -/
theorem motifCell_eq_motifAt (dr dc : Nat) : motifCell dr dc = motifAt dr dc := by
  have h : ∀ d : Nat, fromCentre d = ((d : Int) - 3).natAbs := by intro d; unfold fromCentre; split <;> omega
  simp only [motifCell, motifAt, h]

theorem motifAt_ne_unresolved (dr dc : Int) : motifAt dr dc ≠ .unresolved := by
  unfold motifAt; split <;> simp

theorem timingCell_ne_unresolved (e : Bool) (i : Nat) : timingCell e i ≠ .unresolved := by
  unfold timingCell; split <;> simp

/-- Part (1) of R195, cell by cell. -/
theorem stampFinders_getCell {n : Nat} (h21 : 21 ≤ n) (hn : n ≤ 64) (m : Matrix) {r c : Nat} (hr : r < n) (hc : c < n) :
    getCell (stampFinders n m) r c = (finderAt n r c).getD (getCell m r c) := by
  have key : ∀ (row col : Int) (m : Matrix), 0 ≤ row → 0 ≤ col →
      getCell (stampFinder n row col m) r c =
        if row ≤ r ∧ (r : Int) < row + 7 ∧ col ≤ c ∧ (c : Int) < col + 7 then motifAt (r - row) (c - col)
        else getCell m r c := by
    intro row col m _ _
    rw [stampFinder_getCell hn row col m (by omega)]
    by_cases h : InMotif row col r c
    · rw [if_pos ⟨h, hr, hc⟩, motifCell_eq_motifAt]
      unfold InMotif at h
      rw [if_pos h]
      congr 1 <;> omega
    · rw [if_neg (fun h' => h h'.1)]
      exact (if_neg h).symm
  rw [stampFinders, key _ _ _ (by omega) (by omega), key _ _ _ (by omega) (by omega), key _ _ _ (by omega) (by omega)]
  unfold finderAt
  by_cases h1 : r ≤ 6 ∧ c ≤ 6
  · rw [if_neg (by omega), if_neg (by omega), if_pos (by omega), if_pos h1]; simp
  by_cases h2 : r ≤ 6 ∧ n - 7 ≤ c
  · rw [if_neg (by omega), if_pos (by omega), if_neg h1, if_pos h2]; simp
  by_cases h3 : n - 7 ≤ r ∧ c ≤ 6
  · rw [if_pos (by omega), if_neg h1, if_neg h2, if_pos h3]; simp
  · rw [if_neg (by omega), if_neg (by omega), if_neg (by omega), if_neg h1, if_neg h2, if_neg h3]; rfl

/-- Parts (2) and (3) as one walk each over a list of cells. -/
theorem stampTiming_eq (e : Bool) (n : Nat) (m : Matrix) :
    stampTiming e n m = ((List.range' 7 (n - 14)).flatMap fun i => [(6, i), (i, 6)]).foldl
      (fun m (p : Nat × Nat) => setIfUnresolved p.1 p.2 (if p.1 = 6 then timingCell e p.2 else timingCell e p.1) m) m := by
  rw [List.foldl_flatMap, stampTiming]
  congr 1
  funext m i
  simp only [List.foldl_cons, List.foldl_nil, if_true]
  by_cases h : i = 6
  · subst h; simp
  · simp [h]

/-- Part (2) of R195, cell by cell. -/
theorem stampTiming_getCell {n : Nat} (h21 : 21 ≤ n) (hn : n ≤ 64) (e : Bool) (m : Matrix) {r c : Nat} (hc : c < 64) :
    getCell (stampTiming e n m) r c =
      match timingAt n r c with
      | some i => if getCell m r c = .unresolved then timingCell e i else getCell m r c
      | none => getCell m r c := by
  rw [stampTiming_eq, foldl_setIfUnresolved_getCell (pos := fun p => p)
    (colour := fun r c => if r = 6 then timingCell e c else timingCell e r)]
  · have hmem : (∃ a ∈ (List.range' 7 (n - 14)).flatMap fun i => [((6 : Nat), i), (i, 6)], a = (r, c)) ↔
        (r = 6 ∧ 7 ≤ c ∧ c ≤ n - 8) ∨ (c = 6 ∧ 7 ≤ r ∧ r ≤ n - 8) := by
      simp only [List.mem_flatMap, List.mem_range'_1, List.mem_cons, List.not_mem_nil, or_false, exists_eq_right,
        Prod.mk.injEq]
      constructor
      · rintro ⟨i, hi, ⟨rfl, rfl⟩ | ⟨rfl, rfl⟩⟩
        · exact .inl (by omega)
        · exact .inr (by omega)
      · rintro (⟨rfl, h⟩ | ⟨rfl, h⟩)
        · exact ⟨c, by omega, .inl ⟨rfl, rfl⟩⟩
        · exact ⟨r, by omega, .inr ⟨rfl, rfl⟩⟩
    simp only [hmem]
    unfold timingAt
    by_cases h1 : r = 6 ∧ 7 ≤ c ∧ c ≤ n - 8
    · rw [if_pos h1]; obtain ⟨rfl, _⟩ := h1; simp [*]
    · by_cases h2 : c = 6 ∧ 7 ≤ r ∧ r ≤ n - 8
      · rw [if_neg h1, if_pos h2]
        have : r ≠ 6 := by omega
        simp [h2, this]
      · rw [if_neg h1, if_neg h2]; simp [h1, h2]
  · intro r c; split <;> exact timingCell_ne_unresolved _ _
  · simp only [List.mem_flatMap, List.mem_range'_1, List.mem_cons, List.not_mem_nil, or_false]
    rintro p ⟨i, hi, rfl | rfl⟩ <;> simp only <;> omega
  · exact hc

theorem stampReservation_eq (n : Nat) (m : Matrix) :
    stampReservation n m = (((List.range 9).filter (· ≠ 6)).map (fun c => (8, c)) ++
      ((List.range 9).filter (· ≠ 6)).map (fun r => (r, 8)) ++
      (List.range' (n - 8) 8).flatMap fun i => [(8, i), (i, 8)]).foldl
        (fun m (p : Nat × Nat) => setIfUnresolved p.1 p.2 .light m) m := by
  simp only [stampReservation, List.foldl_append, List.foldl_flatMap, List.foldl_map, List.foldl_filter,
    List.foldl_cons, List.foldl_nil, decide_eq_true_eq]

/-- Part (3) of R195, cell by cell. -/
theorem stampReservation_getCell {n : Nat} (h21 : 21 ≤ n) (hn : n ≤ 64) (m : Matrix) {r c : Nat} (hr : r < n)
    (hc : c < n) :
    getCell (stampReservation n m) r c =
      if reservedAt n r c = true ∧ getCell m r c = .unresolved then .light else getCell m r c := by
  rw [stampReservation_eq, foldl_setIfUnresolved_getCell (pos := fun p => p) (colour := fun _ _ => .light)]
  · congr 1
    rw [eq_iff_iff]
    refine and_congr_left fun _ => ?_
    simp only [List.mem_append, List.mem_map, List.mem_filter, List.mem_range, List.mem_flatMap, List.mem_range'_1,
      List.mem_cons, List.not_mem_nil, or_false, exists_eq_right, Prod.mk.injEq, decide_eq_true_eq, reservedAt]
    constructor
    · rintro ((⟨x, hx, rfl, rfl⟩ | ⟨x, hx, rfl, rfl⟩) | ⟨i, hi, ⟨rfl, rfl⟩ | ⟨rfl, rfl⟩⟩)
      · exact .inl (by omega)
      · exact .inr (by omega)
      · exact .inl (by omega)
      · exact .inr (by omega)
    · rintro (⟨rfl, h | h, h6⟩ | ⟨rfl, h | h, h6⟩)
      · exact .inl (.inl ⟨c, ⟨by omega, h6⟩, rfl, rfl⟩)
      · exact .inr ⟨c, by omega, .inl ⟨rfl, rfl⟩⟩
      · exact .inl (.inr ⟨r, ⟨by omega, h6⟩, rfl, rfl⟩)
      · exact .inr ⟨r, by omega, .inr ⟨rfl, rfl⟩⟩
  · simp
  · simp only [List.mem_append, List.mem_map, List.mem_filter, List.mem_range, List.mem_flatMap, List.mem_range'_1,
      List.mem_cons, List.not_mem_nil, or_false]
    rintro p ((⟨x, hx, rfl⟩ | ⟨x, hx, rfl⟩) | ⟨i, hi, rfl | rfl⟩) <;> simp only <;> omega
  · omega

theorem side_range {v : Nat} (h : 1 ≤ v ∧ v ≤ 5) : 21 ≤ side v ∧ side v ≤ 37 := by unfold side; omega

/-- `stamp_structural(v)`, cell by cell: finders overwrite, timing and reservation fill only unresolved cells (R195, R197). -/
theorem stampStructural_getCell {v : Nat} (hv : 1 ≤ v ∧ v ≤ 5) (e : Bool) (m : Matrix) {r c : Nat} (hr : r < side v)
    (hc : c < side v) :
    getCell (stampStructural e v m) r c =
      match finderAt (side v) r c with
      | some t => t
      | none =>
        if getCell m r c = .unresolved then
          match timingAt (side v) r c with
          | some i => timingCell e i
          | none => if reservedAt (side v) r c then .light else .unresolved
        else getCell m r c := by
  obtain ⟨h21, h37⟩ := side_range hv
  rw [stampStructural, stampReservation_getCell h21 (by omega) _ hr hc, stampTiming_getCell h21 (by omega) _ _ (by omega),
    stampFinders_getCell h21 (by omega) _ hr hc]
  have hf : ∀ t, finderAt (side v) r c = some t → t ≠ .unresolved := by
    intro t ht
    unfold finderAt at ht
    repeat' split at ht
    all_goals first
      | (obtain rfl := Option.some.inj ht; exact motifAt_ne_unresolved _ _)
      | cases ht
  cases hfin : finderAt (side v) r c with
  | some t => cases timingAt (side v) r c <;> simp [hf t hfin]
  | none =>
    cases timingAt (side v) r c with
    | none => by_cases hu : getCell m r c = .unresolved <;> simp [hu]
    | some i => by_cases hu : getCell m r c = .unresolved <;> simp [hu, timingCell_ne_unresolved]

theorem foldl_setIfUnresolved_wf {α : Type} (r c : α → Nat) (t : α → CellState) (l : List α) {m : Matrix}
    (h : m.wf = true) : (l.foldl (fun m a => setIfUnresolved (r a) (c a) (t a) m) m).wf = true :=
  foldl_keeps (fun m : Matrix => m.wf = true) _ _ (fun _ _ _ h => setIfUnresolved_wf _ _ _ h) m h

theorem stampStructural_wf (e : Bool) (v : Nat) {m : Matrix} (h : m.wf = true) : (stampStructural e v m).wf = true := by
  rw [stampStructural, stampReservation_eq, stampTiming_eq]
  exact foldl_setIfUnresolved_wf _ _ _ _ (foldl_setIfUnresolved_wf _ _ _ _
    (stampFinder_wf _ _ _ (stampFinder_wf _ _ _ (stampFinder_wf _ _ _ h))))

theorem stampStructural_within (e : Bool) {v : Nat} (hv : 1 ≤ v ∧ v ≤ 5) {m : Matrix} (h : CellsWithin (side v) m) :
    CellsWithin (side v) (stampStructural e v m) := by
  obtain ⟨h21, h37⟩ := side_range hv
  rw [stampStructural, stampReservation_eq, stampTiming_eq]
  refine foldl_keeps (CellsWithin (side v)) _ _ (fun m p hp h => setIfUnresolved_within ?_ ?_ _ h) _
    (foldl_keeps (CellsWithin (side v)) _ _ (fun m p hp h => setIfUnresolved_within ?_ ?_ _ h) _
      (stampFinder_within _ _ _ (stampFinder_within _ _ _ (stampFinder_within _ _ _ h))))
  all_goals
    simp only [List.mem_append, List.mem_map, List.mem_filter, List.mem_range, List.mem_flatMap, List.mem_range'_1,
      List.mem_cons, List.not_mem_nil, or_false] at hp
  · rcases hp with (⟨x, hx, rfl⟩ | ⟨x, hx, rfl⟩) | ⟨i, hi, rfl | rfl⟩ <;> simp only <;> omega
  · rcases hp with (⟨x, hx, rfl⟩ | ⟨x, hx, rfl⟩) | ⟨i, hi, rfl | rfl⟩ <;> simp only <;> omega
  · rcases hp with ⟨i, hi, rfl | rfl⟩ <;> simp only <;> omega
  · rcases hp with ⟨i, hi, rfl | rfl⟩ <;> simp only <;> omega

/-- Cells outside the matrix are not written. -/
theorem setIfUnresolved_getCell_outside {n r c r' c' : Nat} (hr : r < n) (hc : c < n) (hn : n ≤ 64) (t : CellState)
    (m : Matrix) (hc' : c' < 64) (h : ¬(r' < n ∧ c' < n)) :
    getCell (setIfUnresolved r c t m) r' c' = getCell m r' c' := by
  unfold setIfUnresolved; split
  · rw [getCell_setCell (by omega) hc', if_neg (by omega)]
  · rfl

theorem stampStructural_getCell_outside (e : Bool) {v : Nat} (hv : 1 ≤ v ∧ v ≤ 5) (m : Matrix) {r c : Nat} (hc : c < 64)
    (h : ¬(r < side v ∧ c < side v)) : getCell (stampStructural e v m) r c = getCell m r c := by
  obtain ⟨h21, h37⟩ := side_range hv
  have finder : ∀ (row col : Int) (m : Matrix), getCell (stampFinder (side v) row col m) r c = getCell m r c :=
    fun row col m => by rw [stampFinder_getCell (by omega) row col m hc, if_neg (fun h' => h h'.2)]
  rw [stampStructural, stampReservation_eq, stampTiming_eq]
  refine foldl_keeps (fun m' => getCell m' r c = getCell m r c) _ _
    (fun m' p hp ih => (setIfUnresolved_getCell_outside ?_ ?_ (by omega) _ m' hc h).trans ih) _
    (foldl_keeps (fun m' => getCell m' r c = getCell m r c) _ _
      (fun m' p hp ih => (setIfUnresolved_getCell_outside ?_ ?_ (by omega) _ m' hc h).trans ih) _
      (by rw [stampFinders, finder, finder, finder]))
  all_goals
    simp only [List.mem_append, List.mem_map, List.mem_filter, List.mem_range, List.mem_flatMap, List.mem_range'_1,
      List.mem_cons, List.not_mem_nil, or_false] at hp
  · rcases hp with (⟨x, hx, rfl⟩ | ⟨x, hx, rfl⟩) | ⟨i, hi, rfl | rfl⟩ <;> simp only <;> omega
  · rcases hp with (⟨x, hx, rfl⟩ | ⟨x, hx, rfl⟩) | ⟨i, hi, rfl | rfl⟩ <;> simp only <;> omega
  · rcases hp with ⟨i, hi, rfl | rfl⟩ <;> simp only <;> omega
  · rcases hp with ⟨i, hi, rfl | rfl⟩ <;> simp only <;> omega

/-! ### Mask (R231) -/

theorem maskCell_getCell (m : Matrix) {p : Nat × Nat} (hp : p.2 < 64) {r c : Nat} (hc : c < 64) :
    getCell (maskCell m p) r c =
      if p = (r, c) ∧ (r + c) % 2 = 0 then (getCell m r c).invert else getCell m r c := by
  obtain ⟨pr, pc⟩ := p
  simp only [maskCell, Prod.mk.injEq]
  split
  · rename_i h
    rw [getCell_setCell hp hc]
    by_cases hrc : pr = r ∧ pc = c
    · obtain ⟨rfl, rfl⟩ := hrc; simp [h]
    · rw [if_neg hrc, if_neg (fun h => hrc h.1)]
  · rename_i h
    rw [if_neg]
    rintro ⟨⟨rfl, rfl⟩, h'⟩
    exact h h'

theorem foldl_maskCell_getCell (l : List (Nat × Nat)) (hl : ∀ p ∈ l, p.2 < 64) (hnd : l.Nodup) (m : Matrix)
    {r c : Nat} (hc : c < 64) :
    getCell (l.foldl maskCell m) r c =
      if (r, c) ∈ l ∧ (r + c) % 2 = 0 then (getCell m r c).invert else getCell m r c := by
  induction l generalizing m with
  | nil => simp
  | cons p l ih =>
    obtain ⟨hp, hnd⟩ := List.nodup_cons.mp hnd
    rw [List.foldl_cons, ih (fun p h => hl p (List.mem_cons_of_mem _ h)) hnd,
      maskCell_getCell m (hl p (by simp)) hc]
    by_cases h : p = (r, c)
    · subst h; simp [hp]
    · have h' : (r, c) ≠ p := fun e => h e.symm
      simp [h, h']

/-- `apply_mask()`: inside the grid the even cells are inverted, every other cell is as before (R231). -/
theorem applyMask_getCell {n : Nat} (hn : n ≤ 64) (m : Matrix) {r c : Nat} (hc : c < 64) :
    getCell (applyMask n m) r c =
      if r < n ∧ c < n ∧ (r + c) % 2 = 0 then (getCell m r c).invert else getCell m r c := by
  rw [applyMask, foldl_maskCell_getCell _ (fun p hp => by have := (mem_gridCoords.mp hp).2; omega)
    (nodup_gridCoords n n) m hc]
  simp only [mem_gridCoords, and_assoc]

theorem applyMask_wf (n : Nat) {m : Matrix} (h : m.wf = true) : (applyMask n m).wf = true := by
  refine foldl_keeps (fun m : Matrix => m.wf = true) _ _ (fun m d _ h => ?_) m h
  simp only [maskCell]; split
  · exact Matrix.wf_setCell _ _ _ h
  · exact h

theorem applyMask_within (n : Nat) {m : Matrix} (h : CellsWithin n m) : CellsWithin n (applyMask n m) := by
  refine foldl_keeps (CellsWithin n) _ _ (fun m d hd h => ?_) m h
  have := mem_gridCoords.mp hd
  simp only [maskCell]; split
  · exact cellsWithin_setCell this.1 this.2 _ h
  · exact h

/-- UNRES (R232). -/
theorem anyUnresolved_iff (n : Nat) (m : Matrix) :
    anyUnresolved n m = true ↔ ∃ r c, r < n ∧ c < n ∧ getCell m r c = .unresolved := by
  simp only [anyUnresolved, List.any_eq_true, decide_eq_true_eq]
  constructor
  · rintro ⟨p, hp, h⟩; exact ⟨p.1, p.2, (mem_gridCoords.mp hp).1, (mem_gridCoords.mp hp).2, h⟩
  · rintro ⟨r, c, hr, hc, h⟩; exact ⟨(r, c), mem_gridCoords.mpr ⟨hr, hc⟩, h⟩

/-! ### Placer (R220) -/

/-- How many cells of a list are unresolved. -/
def countUnresolved (m : Matrix) (l : List (Nat × Nat)) : Nat :=
  (l.filter (fun p => decide (getCell m p.1 p.2 = .unresolved))).length

theorem bitCell_ne_unresolved (b : Bool) : bitCell b ≠ .unresolved := by cases b <;> simp [bitCell]

theorem placeVisit_getCell_other (bits : List Bool) (km : Nat × Matrix) {p : Nat × Nat} (hp : p.2 < 64) {r c : Nat}
    (hc : c < 64) (h : p ≠ (r, c)) : getCell (placeVisit bits km p).2 r c = getCell km.2 r c := by
  unfold placeVisit
  split
  · rw [getCell_setCell hp hc, if_neg (fun e => h (Prod.ext e.1 e.2))]
  · rfl

/-- Cells outside the visited list are as before. -/
theorem foldl_placeVisit_other (bits : List Bool) (l : List (Nat × Nat)) (hl : ∀ p ∈ l, p.2 < 64) (km : Nat × Matrix)
    {r c : Nat} (hc : c < 64) (h : (r, c) ∉ l) : getCell (l.foldl (placeVisit bits) km).2 r c = getCell km.2 r c := by
  induction l generalizing km with
  | nil => rfl
  | cons p l ih =>
    rw [List.foldl_cons, ih (fun p h => hl p (List.mem_cons_of_mem _ h)) _ (fun h' => h (List.mem_cons_of_mem _ h')),
      placeVisit_getCell_other bits km (hl p (by simp)) hc (fun e => h (by simp [e]))]

/-- The cursor counts the unresolved cells visited. -/
theorem foldl_placeVisit_cursor (bits : List Bool) (l : List (Nat × Nat)) (hl : ∀ p ∈ l, p.2 < 64) (hnd : l.Nodup)
    (km : Nat × Matrix) : (l.foldl (placeVisit bits) km).1 = km.1 + countUnresolved km.2 l := by
  induction l generalizing km with
  | nil => rfl
  | cons p l ih =>
    obtain ⟨hp, hnd⟩ := List.nodup_cons.mp hnd
    rw [List.foldl_cons, ih (fun p h => hl p (List.mem_cons_of_mem _ h)) hnd]
    have same : countUnresolved (placeVisit bits km p).2 l = countUnresolved km.2 l := by
      unfold countUnresolved
      congr 1
      refine List.filter_congr fun q hq => ?_
      rw [placeVisit_getCell_other bits km (hl p (by simp)) (hl q (List.mem_cons_of_mem _ hq))
        (fun e => hp (by rw [e]; exact hq))]
    rw [same]
    unfold placeVisit countUnresolved
    by_cases h : getCell km.2 p.1 p.2 = .unresolved
    · simp [h]; omega
    · simp [h]

/-- `place_data` over a list of distinct cells: a visited cell that was unresolved takes the bit whose number is the count of
unresolved cells visited before it, every other cell is as before (R220). -/
theorem foldl_placeVisit_getCell (bits : List Bool) (l₁ l₂ : List (Nat × Nat)) {r c : Nat}
    (hl : ∀ p ∈ l₁ ++ (r, c) :: l₂, p.2 < 64) (hnd : (l₁ ++ (r, c) :: l₂).Nodup) (k : Nat) (m : Matrix) :
    getCell ((l₁ ++ (r, c) :: l₂).foldl (placeVisit bits) (k, m)).2 r c =
      if getCell m r c = .unresolved then bitCell (bits.getD (k + countUnresolved m l₁) false) else getCell m r c := by
  have hc : c < 64 := hl (r, c) (by simp)
  have hl₁ : ∀ p ∈ l₁, p.2 < 64 := fun p hp => hl p (by simp [hp])
  have hnd' := List.nodup_append.mp hnd
  have hnot₁ : (r, c) ∉ l₁ := fun h => (hnd'.2.2 _ h (r, c) (by simp)) rfl
  have hnot₂ : (r, c) ∉ l₂ := (List.nodup_cons.mp hnd'.2.1).1
  rw [List.foldl_append, List.foldl_cons,
    foldl_placeVisit_other bits l₂ (fun p hp => hl p (by simp [hp])) _ hc hnot₂]
  have h₁ := foldl_placeVisit_other bits l₁ hl₁ (k, m) hc hnot₁
  have hk := foldl_placeVisit_cursor bits l₁ hl₁ hnd'.1 (k, m)
  simp only at h₁ hk
  generalize l₁.foldl (placeVisit bits) (k, m) = km at h₁ hk
  unfold placeVisit
  simp only [h₁, hk]
  split
  · simp
  · exact h₁

theorem placeVisit_wf (bits : List Bool) (km : Nat × Matrix) (p : Nat × Nat) (h : km.2.wf = true) :
    (placeVisit bits km p).2.wf = true := by
  unfold placeVisit; split
  · exact Matrix.wf_setCell _ _ _ h
  · exact h

theorem placeData_wf (n : Nat) (bits : List Bool) {m : Matrix} (h : m.wf = true) : (placeData n bits m).2.wf = true :=
  foldl_keeps (fun km : Nat × Matrix => km.2.wf = true) _ _ (fun km p _ h => placeVisit_wf bits km p h) (0, m) h

theorem placeData_within {n : Nat} (bits : List Bool) {m : Matrix} (hord : ∀ p ∈ placeOrder n, p.1 < n ∧ p.2 < n)
    (h : CellsWithin n m) : CellsWithin n (placeData n bits m).2 := by
  refine foldl_keeps (fun km : Nat × Matrix => CellsWithin n km.2) _ _ (fun km p hp h => ?_) (0, m) h
  unfold placeVisit; split
  · exact cellsWithin_setCell (hord p hp).1 (hord p hp).2 _ h
  · exact h

/-! ### The visit order (R220) -/

theorem mem_scanPair {n : Nat} {up : Bool} {col : Nat} {p : Nat × Nat} :
    p ∈ scanPair n up col ↔ p.1 < n ∧ (p.2 = col ∨ p.2 = col - 1) := by
  obtain ⟨r, c⟩ := p
  have hrow : ∀ r, r ∈ scanRows n up ↔ r < n := by intro r; cases up <;> simp [scanRows]
  simp only [scanPair, List.mem_flatMap, hrow, List.mem_cons, Prod.mk.injEq, List.not_mem_nil, or_false]
  constructor
  · rintro ⟨r', hr, ⟨rfl, rfl⟩ | ⟨rfl, rfl⟩⟩ <;> simp [hr]
  · rintro ⟨hr, rfl | rfl⟩
    · exact ⟨r, hr, .inl ⟨rfl, rfl⟩⟩
    · exact ⟨r, hr, .inr ⟨rfl, rfl⟩⟩

theorem mem_scanPairs {n : Nat} {up : Bool} {cols : List Nat} {p : Nat × Nat} :
    p ∈ scanPairs n up cols ↔ p.1 < n ∧ ∃ col ∈ cols, p.2 = col ∨ p.2 = col - 1 := by
  induction cols generalizing up with
  | nil => simp [scanPairs]
  | cons col cols ih =>
    simp only [scanPairs, List.mem_append, mem_scanPair, ih, List.mem_cons, exists_eq_or_imp]
    exact and_or_left.symm

/-- The sides PLACE accepts (R221). -/
def versionSides : List Nat := [21, 25, 29, 33, 37]

/-- The columns of the pairs on a version's side: every column but 6. -/
theorem rightColumns_cover : ∀ n ∈ versionSides,
    (∀ c, c < n → (c ≠ 6 ↔ ∃ col ∈ rightColumns n (n - 1), c = col ∨ c = col - 1)) ∧
    (∀ col ∈ rightColumns n (n - 1), col < n) := by
  decide +kernel

/-- On a version's side the scan visits the cells outside column 6 and no others. -/
theorem mem_placeOrder {n : Nat} (hn : n ∈ versionSides) {p : Nat × Nat} :
    p ∈ placeOrder n ↔ p.1 < n ∧ p.2 < n ∧ p.2 ≠ 6 := by
  obtain ⟨hcol, hlt⟩ := rightColumns_cover n hn
  rw [placeOrder, mem_scanPairs]
  constructor
  · rintro ⟨hr, col, hc, h⟩
    have := hlt col hc
    have hp : p.2 < n := by omega
    exact ⟨hr, hp, (hcol p.2 hp).mpr ⟨col, hc, h⟩⟩
  · rintro ⟨hr, hc, h6⟩
    exact ⟨hr, (hcol p.2 hc).mp h6⟩

/-- On a version's side the scan goes through the ranks 0, 1, 2, ... in order. -/
theorem map_scanRank_placeOrder : ∀ n ∈ versionSides,
    (placeOrder n).map (scanRank n) = List.range (n * (n - 1)) := by
  decide +kernel

theorem nodup_placeOrder {n : Nat} (hn : n ∈ versionSides) : (placeOrder n).Nodup := by
  have h : ((placeOrder n).map (scanRank n)).Nodup := by
    rw [map_scanRank_placeOrder n hn]; exact List.nodup_range
  exact h.of_map

/-- The scan up to a cell is the cells of lower rank, in order. -/
theorem placeOrder_split {n : Nat} (hn : n ∈ versionSides) {p : Nat × Nat} (hp : p ∈ placeOrder n) :
    ∃ l₁ l₂, placeOrder n = l₁ ++ p :: l₂ ∧ (∀ q ∈ l₁, scanRank n q < scanRank n p) ∧
      (∀ q ∈ l₂, scanRank n p < scanRank n q) := by
  obtain ⟨l₁, l₂, h⟩ := List.append_of_mem hp
  refine ⟨l₁, l₂, h, ?_, ?_⟩
  all_goals
    have hsorted : ((placeOrder n).map (scanRank n)).Pairwise (· < ·) := by
      rw [map_scanRank_placeOrder n hn]; exact List.pairwise_lt_range
    rw [h, List.map_append, List.map_cons, List.pairwise_append] at hsorted
    obtain ⟨_, h2, h3⟩ := hsorted
    intro q hq
  · exact h3 _ (List.mem_map_of_mem hq) _ (by simp)
  · exact (List.pairwise_cons.mp h2).1 _ (List.mem_map_of_mem hq)

end Sys2Proof.Machine
end

