-- ==== Sys2Proof/Laws/Raster.lean ====
section
/-! SUPPORT. The rasterizer: what the clearing and the painting writes make of each pixel, and that they keep the surface's
list in rising order. -/

-- One theorem at a time: each thread of Lean's reserves address space, which check.sh limits.
set_option Elab.async false

namespace Sys2Proof.Machine

/-! ### Clearing (R261) -/

theorem foldr_surfWrite_pixel (p : Bool) (l : List (Nat × Nat)) (hl : ∀ q ∈ l, q.2 < 4096) (f : Surface) {x y : Nat}
    (hx : x < 4096) :
    surfPixel (l.foldr (fun q f => surfWrite q.2 q.1 p f) f) x y = if (y, x) ∈ l then some p else surfPixel f x y := by
  induction l with
  | nil => simp
  | cons q l ih =>
    obtain ⟨qy, qx⟩ := q
    have hq : qx < 4096 := hl (qy, qx) (by simp)
    rw [List.foldr_cons, surfPixel_surfWrite hq hx, ih fun q h => hl q (List.mem_cons_of_mem _ h)]
    by_cases h : qx = x ∧ qy = y
    · obtain ⟨rfl, rfl⟩ := h; simp
    · have : (y, x) ≠ (qy, qx) := by simp only [ne_eq, Prod.mk.injEq, not_and]; omega
      simp [h, this]

/-- The clearing writes make every pixel of the surface light and touch no other. -/
theorem clearSurface_pixel {w : Nat} (hw : w ≤ 4096) (h : Nat) (f : Surface) {x y : Nat} (hx : x < 4096) :
    surfPixel (clearSurface w h f) x y = if x < w ∧ y < h then some false else surfPixel f x y := by
  rw [clearSurface, foldr_surfWrite_pixel false _ (fun q hq => by have := (mem_gridCoords.mp hq).2; omega) f hx]
  simp only [mem_gridCoords, and_comm]

/-! ### Painting (R261, R263) -/

theorem paintPixel_pixel {w : Nat} (hw : w ≤ 4096) (h : Nat) (px py : Int) (f : Surface) {x y : Nat} (hx : x < 4096) :
    surfPixel (paintPixel w h px py f) x y =
      if (x < w ∧ y < h) ∧ px = x ∧ py = y then some true else surfPixel f x y := by
  unfold paintPixel
  split
  · rw [surfPixel_surfWrite (by omega) hx]
    by_cases hp : px.toNat = x ∧ py.toNat = y
    · rw [if_pos hp, if_pos (by omega)]
    · rw [if_neg hp, if_neg (by omega)]
  · rw [if_neg (by omega)]

/-- A walk whose every visit makes a pixel dark under its own condition, or leaves it alone. -/
theorem foldl_dark_pixel {α : Type} (visit : Surface → α → Surface) (Q : α → Prop) (x y : Nat)
    (hv : ∀ f a, surfPixel (visit f a) x y = open Classical in if Q a then some true else surfPixel f x y)
    (l : List α) (f : Surface) :
    surfPixel (l.foldl visit f) x y = open Classical in if ∃ a ∈ l, Q a then some true else surfPixel f x y := by
  classical
  induction l generalizing f with
  | nil => simp
  | cons a l ih =>
    rw [List.foldl_cons, ih, hv]
    by_cases ha : Q a <;> by_cases he : ∃ b ∈ l, Q b <;> simp [ha, he]

/-- Painting at a list of positions. -/
theorem foldl_paintPixel_pixel {α : Type} {w : Nat} (hw : w ≤ 4096) (h : Nat) (px py : α → Int) (l : List α) (f : Surface)
    {x y : Nat} (hx : x < 4096) :
    surfPixel (l.foldl (fun f a => paintPixel w h (px a) (py a) f) f) x y =
      open Classical in
      if (x < w ∧ y < h) ∧ ∃ a ∈ l, px a = x ∧ py a = y then some true else surfPixel f x y := by
  classical
  rw [foldl_dark_pixel _ (fun a => (x < w ∧ y < h) ∧ px a = x ∧ py a = y) x y]
  · congr 1
    rw [eq_iff_iff]
    constructor
    · rintro ⟨a, ha, hin, hp⟩; exact ⟨hin, a, ha, hp⟩
    · rintro ⟨hin, a, ha, hp⟩; exact ⟨a, ha, hin, hp⟩
  · intro f a; rw [paintPixel_pixel hw h _ _ f hx]; congr

/-- A position of cell (r, c)'s square: `ox + c·cs <= x < ox + (c+1)·cs`, `oy + r·cs <= y < oy + (r+1)·cs` (R263). -/
theorem mem_square_iff {cs : Nat} (hcs : 0 < cs) (ox oy : Int) (r c x y : Nat) :
    (∃ d ∈ gridCoords cs cs, ox + c * cs + ((d.2 : Nat) : Int) = x ∧ oy + r * cs + ((d.1 : Nat) : Int) = y) ↔
      ((x : Int) - ox) / cs = c ∧ ((y : Int) - oy) / cs = r := by
  have hpos : (0 : Int) < cs := by omega
  have hdiv : ∀ (z o : Int) (k : Nat), (z - o) / cs = k ↔ o + k * cs ≤ z ∧ z < o + k * cs + cs := by
    intro z o k
    rw [Int.ediv_eq_iff_of_pos hpos]
    constructor
    · rintro ⟨h1, h2⟩; constructor <;> nlinarith
    · rintro ⟨h1, h2⟩; constructor <;> nlinarith
  rw [hdiv, hdiv]
  constructor
  · rintro ⟨d, hd, h1, h2⟩
    have := mem_gridCoords.mp hd
    omega
  · rintro ⟨⟨h1, h2⟩, h3, h4⟩
    refine ⟨(((y : Int) - oy - r * cs).toNat, ((x : Int) - ox - c * cs).toNat), mem_gridCoords.mpr ⟨?_, ?_⟩, ?_, ?_⟩ <;>
      simp only <;> omega

theorem paintCell_pixel {w : Nat} (hw : w ≤ 4096) (h : Nat) {cs : Nat} (hcs : 0 < cs) (m : Matrix) (ox oy : Int)
    (f : Surface) (p : Nat × Nat) {x y : Nat} (hx : x < 4096) :
    surfPixel (paintCell m w h cs ox oy f p) x y =
      if (x < w ∧ y < h) ∧ getCell m p.1 p.2 = .dark ∧ ((x : Int) - ox) / cs = p.2 ∧ ((y : Int) - oy) / cs = p.1 then
        some true
      else surfPixel f x y := by
  unfold paintCell
  split
  · rename_i hd
    rw [foldl_paintPixel_pixel hw h (fun d : Nat × Nat => ox + p.2 * cs + (d.2 : Int))
      (fun d : Nat × Nat => oy + p.1 * cs + (d.1 : Int)) _ f hx]
    simp only [mem_square_iff hcs ox oy p.1 p.2 x y, hd, true_and]
  · rename_i hd
    rw [if_neg (by simp [hd])]

/-- The painting writes make a pixel of the surface dark where it shows a dark cell, and touch no other. -/
theorem paintCells_pixel {w : Nat} (hw : w ≤ 4096) (h : Nat) {cs : Nat} (hcs : 0 < cs) (m : Matrix) (n : Nat)
    (ox oy : Int) (f : Surface) {x y : Nat} (hx : x < 4096) :
    surfPixel (paintCells m n w h cs ox oy f) x y =
      open Classical in
      if (x < w ∧ y < h) ∧ ShowsDark m n cs ox oy x y then some true else surfPixel f x y := by
  classical
  rw [paintCells, foldl_dark_pixel _ (fun p : Nat × Nat => (x < w ∧ y < h) ∧ getCell m p.1 p.2 = .dark ∧
    ((x : Int) - ox) / cs = p.2 ∧ ((y : Int) - oy) / cs = p.1) x y]
  · congr 1
    rw [eq_iff_iff]
    simp only [ShowsDark]
    constructor
    · rintro ⟨p, hp, hin, hd, hc, hr⟩
      have := mem_gridCoords.mp hp
      rw [hc, hr]
      exact ⟨hin, by omega, by omega, by omega, by omega, hd⟩
    · rintro ⟨hin, h1, h2, h3, h4, h5⟩
      refine ⟨((((y : Int) - oy) / cs).toNat, (((x : Int) - ox) / cs).toNat), mem_gridCoords.mpr ⟨?_, ?_⟩, hin, h5, ?_, ?_⟩ <;>
        simp only <;> omega
  · intro f p
    rw [paintCell_pixel hw h hcs m ox oy f p hx]; congr

/-- The pixels after DRAW's writes (R261, "Result, stated without the loops"). -/
theorem draw_pixel {w : Nat} (hw : w ≤ 4096) (h : Nat) {cs : Nat} (hcs : 0 < cs) (m : Matrix) (n : Nat) (ox oy : Int)
    (f : Surface) {x y : Nat} (hx : x < 4096) :
    surfPixel (paintCells m n w h cs ox oy (clearSurface w h f)) x y =
      open Classical in
      if x < w ∧ y < h then some (decide (ShowsDark m n cs ox oy x y)) else surfPixel f x y := by
  classical
  rw [paintCells_pixel hw h hcs m n ox oy _ hx, clearSurface_pixel hw h f hx]
  by_cases hin : x < w ∧ y < h
  · by_cases hd : ShowsDark m n cs ox oy x y <;> simp [hin, hd]
  · simp [hin]

theorem cellSize_pos (rpad n w h : Nat) : 0 < cellSize rpad n w h := by unfold cellSize; omega

/-! ### The surface's list stays in order -/

theorem risingKeys_clearSurface (w h : Nat) {f : Surface} (hf : risingKeys f = true) :
    risingKeys (clearSurface w h f) = true := by
  unfold clearSurface
  generalize gridCoords h w = l
  induction l with
  | nil => exact hf
  | cons q l ih => exact risingKeys_surfWrite _ _ _ ih

theorem risingKeys_paintCells (m : Matrix) (n w h cs : Nat) (ox oy : Int) {f : Surface} (hf : risingKeys f = true) :
    risingKeys (paintCells m n w h cs ox oy f) = true := by
  refine foldl_keeps (fun f : Surface => risingKeys f = true) _ _ (fun f p _ hf => ?_) f hf
  unfold paintCell; split
  · refine foldl_keeps (fun f : Surface => risingKeys f = true) _ _ (fun f d _ hf => ?_) f hf
    unfold paintPixel; split
    · exact risingKeys_surfWrite _ _ _ hf
    · exact hf
  · exact hf

/-- Keys a surface lists that are no pixel of a 4096 by 4096 window do not exist, so two rising surfaces that agree on every
pixel are equal. -/
theorem surface_ext {f g : Surface} (hf : risingKeys f = true) (hg : risingKeys g = true)
    (h : ∀ x y, x < 4096 → surfPixel f x y = surfPixel g x y) : f = g := by
  refine risingKeys_ext hf hg fun k => ?_
  have := h (k % 4096) (k / 4096) (Nat.mod_lt _ (by decide))
  simpa only [surfPixel, pixelKey, Nat.div_add_mod] using this

end Sys2Proof.Machine
end

