-- ==== Sys2Proof/Laws/ReedSolomon.lean ====
section
/-! SUPPORT. The Reed-Solomon encoder: the generator is the product of its linear factors, the parity is the remainder of a
polynomial division, and what the two commands store. -/

-- One theorem at a time: each thread of Lean's reserves address space, which check.sh limits.
set_option Elab.async false

namespace Sys2Proof.Machine

/-! ### The generator polynomial (R140) -/

theorem length_generator (mul : Byte → Byte → Byte) (exp : Nat → Byte) (d : Nat) :
    (generator mul exp d).length = d + 1 := by
  induction d with
  | zero => rfl
  | succ d ih => simp [generator, ih]

theorem generator_congr {mul mul' : Byte → Byte → Byte} {exp exp' : Nat → Byte} {d : Nat}
    (hm : ∀ a b, mul a b = mul' a b) (he : ∀ i, i < d → exp i = exp' i) :
    generator mul exp d = generator mul' exp' d := by
  induction d with
  | zero => rfl
  | succ d ih => simp only [generator, ih fun i hi => he i (by omega), he d (by omega), hm]

/-- Multiplying by `x + a` is the shift, the scaled copy and the XOR of R140's loop body. -/
theorem polyTimes_linear (p : List Byte) (a : Byte) :
    polyTimes p [1, a] = xorList (p ++ [0]) (0 :: p.map (fun c => gfTimes c a)) := by
  induction p with
  | nil => rfl
  | cons c p ih =>
    rw [polyTimes, ih]
    have h : xorList (gfTimes c a :: List.replicate p.length 0) (0 :: p.map (fun c => gfTimes c a)) =
        gfTimes c a :: p.map (fun c => gfTimes c a) := by
      simp only [xorList_cons, BitVec.ofNat_eq_ofNat, BitVec.xor_zero]
      rw [xorList_comm, ← BitVec.ofNat_eq_ofNat, xorList_zero _ (by simp)]
    show xorList (gfTimes c 1 :: gfTimes c a :: List.replicate p.length 0)
      (0 :: xorList (p ++ [0]) (0 :: p.map (fun c => gfTimes c a))) = _
    rw [xorList_cons, ← xorList_assoc, xorList_comm _ (p ++ [0]), xorList_assoc, h]
    simp

/-- `generator(d)` is the product of its linear factors (R140). -/
theorem generator_eq_rootPoly (d : Nat) : generator gfTimes gfPow d = rootPoly d := by
  induction d with
  | zero => rfl
  | succ d ih => rw [rootPoly, polyTimes_linear, ← ih]; rfl

@[simp] theorem length_rootPoly (d : Nat) : (rootPoly d).length = d + 1 := by
  rw [← generator_eq_rootPoly, length_generator]

theorem rootPoly_ne_nil (d : Nat) : rootPoly d ≠ [] := by
  intro h; simpa using congrArg List.length h

/-- "leading coefficient always 1" (R32, R140). -/
theorem rootPoly_eq_cons (d : Nat) : ∃ g, rootPoly d = 1 :: g ∧ g.length = d := by
  induction d with
  | zero => exact ⟨[], rfl, rfl⟩
  | succ d ih =>
    obtain ⟨g, hg, hl⟩ := ih
    rw [rootPoly, polyTimes_linear, hg]
    refine ⟨xorList (g ++ [0]) ((1 :: g).map (fun c => gfTimes c (gfPow d))), ?_, ?_⟩
    · simp
    · simp [hl]

/-- The generator's value is the product of its factors' values. -/
theorem polyEval_rootPoly_succ (d : Nat) (x : Byte) :
    polyEval (rootPoly (d + 1)) x = gfTimes (polyEval (rootPoly d) x) (x ^^^ gfPow d) := by
  rw [rootPoly, polyEval_polyTimes (by simp)]
  simp [polyEval]

/-- The generator of degree d vanishes at `2^0, ..., 2^(d-1)`. -/
theorem polyEval_rootPoly_root {d i : Nat} (h : i < d) : polyEval (rootPoly d) (gfPow i) = 0 := by
  induction d with
  | zero => omega
  | succ d ih =>
    rw [polyEval_rootPoly_succ]
    rcases Nat.lt_succ_iff_lt_or_eq.mp h with h | rfl
    · rw [ih h]; exact gfTimes_zero_left _
    · rw [BitVec.xor_self]; exact gfTimes_zero_right _

/-- On built tables the machine's generator is the product of the linear factors. -/
theorem State.generator_eq_rootPoly {s : State} (h : TablesBuilt s.mem) {d : Nat} (hd : d ≤ 512) :
    s.generator d = rootPoly d := by
  rw [← Machine.generator_eq_rootPoly]
  exact generator_congr (State.gfmul_eq_gfTimes h) fun i hi => State.exp_eq h (by omega)

@[simp] theorem State.length_generator (s : State) (d : Nat) : (s.generator d).length = d + 1 :=
  Machine.length_generator _ _ d

/-! ### The parity (R142, R144) -/

theorem length_parityStep {mul : Byte → Byte → Byte} {g r : List Byte} {ec : Nat} (hg : g.length = ec + 1)
    (hr : r.length = ec) (hec : 0 < ec) (d : Byte) : (parityStep mul g r d).length = ec := by
  simp only [parityStep]
  split <;> simp [hg, hr] <;> omega

theorem length_foldl_parityStep {mul : Byte → Byte → Byte} {g : List Byte} {ec : Nat} (hg : g.length = ec + 1)
    (hec : 0 < ec) (data : List Byte) {r : List Byte} (hr : r.length = ec) :
    (data.foldl (parityStep mul g) r).length = ec := by
  induction data generalizing r with
  | nil => exact hr
  | cons d data ih => exact ih (length_parityStep hg hr hec d)

/-- "Output length is always exactly `ecCount`" (R144). -/
theorem length_rsParity {mul : Byte → Byte → Byte} {g : List Byte} {ec : Nat} (hg : g.length = ec + 1) (hec : 0 < ec)
    (data : List Byte) : (rsParity mul g data ec).length = ec :=
  length_foldl_parityStep hg hec data (by simp)

theorem rsParity_congr {mul mul' : Byte → Byte → Byte} (hm : ∀ a b, mul a b = mul' a b) (g data : List Byte) (ec : Nat) :
    rsParity mul g data ec = rsParity mul' g data ec := by
  have : parityStep mul g = parityStep mul' g := by
    funext r d; unfold parityStep; simp only [hm]
  simp only [rsParity, this]

/-- The update of R142 does not need its test: "`gfmul(g, 0) = 0`". -/
theorem parityStep_eq {g r : List Byte} {ec : Nat} (hg : g.length = ec) (hr : r.length = ec) (d : Byte) :
    parityStep gfTimes (1 :: g) r d =
      xorList (r.tail ++ [0]) (g.map (gfTimes (d ^^^ r.headD 0))) ∨ ec = 0 := by
  rcases Nat.eq_zero_or_pos ec with h0 | hpos
  · exact .inr h0
  refine .inl ?_
  simp only [parityStep, List.tail_cons]
  split
  · rw [xorList, show (fun c => gfTimes c (d ^^^ r.headD 0)) = gfTimes (d ^^^ r.headD 0) from
      funext fun c => gfTimes_comm c _]
  · rename_i hf
    have hf : d ^^^ r.headD 0 = 0 := by simpa using hf
    rw [hf]
    have : g.map (gfTimes 0) = List.replicate g.length 0 := by
      rw [List.eq_replicate_iff]
      refine ⟨by simp, fun b hb => ?_⟩
      obtain ⟨c, _, rfl⟩ := List.mem_map.mp hb
      exact gfTimes_zero_left c
    rw [this, xorList_zero _ (by simp [hg, hr]; omega)]

/-- The shift register divides: from register r, the data and the final register are a multiple of the generator, up to r. -/
theorem foldl_parityStep_divides {g : List Byte} {ec : Nat} (hg : g.length = ec) (hec : 0 < ec) (data : List Byte)
    (r : List Byte) (hr : r.length = ec) :
    ∃ q : List Byte, q.length = data.length ∧
      polyTimes q (1 :: g) =
        xorList (data ++ data.foldl (parityStep gfTimes (1 :: g)) r) (r ++ List.replicate data.length 0) := by
  induction data generalizing r with
  | nil =>
    refine ⟨[], rfl, ?_⟩
    simp only [polyTimes, List.nil_append, List.foldl_nil, List.length_nil, List.replicate_zero, List.append_nil]
    rw [xorList_self, hr]; simp [hg]
  | cons d ds ih =>
    have hstep := (parityStep_eq hg hr d).resolve_right (by omega)
    have hlen : (parityStep gfTimes (1 :: g) r d).length = ec :=
      length_parityStep (by simp [hg]) hr hec d
    obtain ⟨q, hq, e⟩ := ih (parityStep gfTimes (1 :: g) r d) hlen
    generalize hF : ds.foldl (parityStep gfTimes (1 :: g)) (parityStep gfTimes (1 :: g) r d) = F at e
    have hFlen : F.length = ec := by
      rw [← hF]; exact length_foldl_parityStep (by simp [hg]) hec ds hlen
    cases r with
    | nil => simp at hr; omega
    | cons r0 rs =>
      refine ⟨(d ^^^ r0) :: q, by simp [hq], ?_⟩
      simp only [List.headD_cons, List.tail_cons] at hstep
      rw [polyTimes, e, List.foldl_cons, hF, hstep]
      have hrs : rs.length + 1 = ec := by simpa using hr
      have h1 : xorList (xorList (rs ++ [0]) (g.map (gfTimes (d ^^^ r0))) ++ List.replicate ds.length 0)
          (g.map (gfTimes (d ^^^ r0)) ++ List.replicate ds.length 0) = rs ++ List.replicate (ds.length + 1) 0 := by
        rw [xorList_append (by simp [hg]; omega), xorList_assoc, xorList_self, xorList_self,
          xorList_zero _ (by simp [hg]; omega)]
        simp [List.replicate_succ]
      show xorList (gfTimes (d ^^^ r0) 1 :: (g.map (gfTimes (d ^^^ r0)) ++ List.replicate q.length 0))
        (0 :: xorList (ds ++ F)
          (xorList (rs ++ [0]) (g.map (gfTimes (d ^^^ r0))) ++ List.replicate ds.length 0)) =
        xorList (d :: (ds ++ F)) (r0 :: (rs ++ List.replicate (ds.length + 1) 0))
      rw [xorList_cons, xorList_cons, hq, xorList_comm (_ ++ _) (xorList (ds ++ F) _), xorList_assoc, h1]
      simp

/-- `rs_parity` is the remainder of `D(x)·x^ec` by the generator: the codeword `data ++ r` is a multiple of it (R144). -/
theorem rsParity_divides {ec : Nat} (hec : 0 < ec) (data : List Byte) :
    ∃ q : List Byte, q.length = data.length ∧
      polyTimes q (rootPoly ec) = data ++ rsParity gfTimes (rootPoly ec) data ec := by
  obtain ⟨g, hg, hl⟩ := rootPoly_eq_cons ec
  obtain ⟨q, hq, e⟩ := foldl_parityStep_divides hl hec data (List.replicate ec 0) (by simp)
  refine ⟨q, hq, ?_⟩
  rw [hg, e]
  have hlen := length_rsParity (mul := gfTimes) (g := 1 :: g) (by simp [hl]) hec data
  rw [← List.replicate_add, xorList_zero]
  · rfl
  · rw [List.length_append]; simp only [rsParity] at hlen; omega

/-! ### What the commands store -/

theorem State.dataCodewords_congr {s t : State} (hd : t.dlen = s.dlen)
    (h : ∀ i, i < s.dlen.toNat → t.byteAt (cwAddr i) = s.byteAt (cwAddr i)) : t.dataCodewords = s.dataCodewords := by
  rw [State.dataCodewords, State.dataCodewords, hd]
  exact State.bytesAt_congr fun i hi => by simpa [cwAddr] using h i hi

/-- An element that RSGEN of degree d does not store. -/
theorem storeGenerator_byteAt_outside {d a : Nat} (h : a < genAddr 0 ∨ genAddr d < a) (s : State) :
    (storeGenerator d s).byteAt a = s.byteAt a :=
  State.byteAt_of_writes_outside (storeGenerator_mem s d) rfl
    (by simp only [State.length_generator, genAddr] at *; omega)

/-- GEN[0..d] after RSGEN of degree d on built tables. -/
theorem storeGenerator_byteAt_gen {s : State} (h : TablesBuilt s.mem) {d i : Nat} (hd : d ≤ 30) (hi : i ≤ d) :
    (storeGenerator d s).byteAt (genAddr i) = (rootPoly d).getD i 0 := by
  have hi' : i < (s.generator d).length := by simp; omega
  have := State.byteAt_of_writes_at (storeGenerator_mem s d) hi'
  rw [show genAddr 0 + i = genAddr i by simp [genAddr]] at this
  rw [this, List.getD_eq_getElem?_getD, ← State.generator_eq_rootPoly h (by omega), List.getElem?_eq_getElem hi']
  rfl

/-- The parity RSENC stores, on built tables. -/
theorem State.rsParity_eq {s : State} (h : TablesBuilt s.mem) {ec : Nat} (hec : ec ≤ 512) (data : List Byte) :
    rsParity s.gfmul (s.generator ec) data ec = rsParity gfTimes (rootPoly ec) data ec := by
  rw [State.generator_eq_rootPoly h hec]
  exact rsParity_congr (State.gfmul_eq_gfTimes h) _ _ _

theorem length_storeParity (ec : Nat) (hec : 0 < ec) (s : State) :
    (rsParity s.gfmul (s.generator ec) s.dataCodewords ec).length = ec :=
  length_rsParity (by simp) hec _

/-- An element that the parity store does not write. -/
theorem storeParity_byteAt_outside {ec a : Nat} (hec : 0 < ec) (h : a < parAddr 0 ∨ parAddr ec ≤ a) (s : State) :
    (storeParity ec s).byteAt a = s.byteAt a :=
  State.byteAt_of_writes_outside (storeParity_mem s ec) rfl
    (by rw [length_storeParity ec hec]; simp only [parAddr] at *; omega)

/-- PAR[0..ec-1]. -/
theorem storeParity_byteAt_par {ec i : Nat} (hi : i < ec) (s : State) :
    (storeParity ec s).byteAt (parAddr i) = (rsParity s.gfmul (s.generator ec) s.dataCodewords ec).getD i 0 := by
  have hi' : i < (rsParity s.gfmul (s.generator ec) s.dataCodewords ec).length := by
    rw [length_storeParity ec (by omega)]; exact hi
  have := State.byteAt_of_writes_at (storeParity_mem s ec) hi'
  rw [show parAddr 0 + i = parAddr i by simp [parAddr]] at this
  rw [this, List.getD_eq_getElem?_getD, List.getElem?_eq_getElem hi']
  rfl

end Sys2Proof.Machine
end

