-- ==== Sys2Proof/Laws/Step.lean ====
section
/-! SUPPORT. One step, the port's reads and writes by address, and what a step can be. -/

-- One theorem at a time: each thread of Lean's reserves address space, which check.sh limits.
set_option Elab.async false

namespace Sys2Proof.Machine

/-! ### One step -/

theorem step_offering (e : PortEvent) (s : State) : step (s.offering e) = portEvent e s := rfl

theorem step_of_pending_nil {s : State} (h : s.pending = []) : step s = .next s := by
  rw [step, performNext, h]

theorem step_of_pending_cons {s : State} {e : PortEvent} {rest : List PortEvent} (h : s.pending = e :: rest) :
    step s = portEvent e { s with pending := rest } := by
  rw [step, performNext, h]

theorem withFetchWord_eq_offering (s : State) (nbits w : Nat) :
    s.withFetchWord nbits w = s.offering (.write cmdAddr (BitVec.ofNat 32 (w % 2 ^ nbits))) := rfl

@[simp] theorem portEvent_read (a : Addr) (s : State) : portEvent (.read a) s = .next (hostRead a s) := rfl
@[simp] theorem portEvent_write (a : Addr) (v : Word) (s : State) : portEvent (.write a v) s = hostWrite a v s := rfl
@[simp] theorem portEvent_reset (s : State) : portEvent .reset s = .next (resetBlock s) := rfl

/-! ### Writes -/

theorem hostWrite_cmd (v : Word) (s : State) : hostWrite 0x0000 v s = cmdWrite v s := rfl

theorem hostWrite_other {a : Addr} (ha : a ≠ 0x0000) {s : State} (h : s.err = none) (v : Word) :
    hostWrite a v s = .next (hostStore a v s) := by
  rw [hostWrite, if_neg (show ¬a = cmdAddr from ha), h]; rfl

theorem hostWrite_blocked {a : Addr} (ha : a ≠ 0x0000) {s : State} (h : s.err ≠ none) (v : Word) :
    hostWrite a v s = .next s := by
  rw [hostWrite, if_neg (show ¬a = cmdAddr from ha), if_pos (Option.isSome_iff_ne_none.mpr h)]

theorem cmdWrite_command {s : State} (h : s.err = none) {w : Word} {i : Instr} (hd : decode w = .command i) :
    cmdWrite w s = exec i s := by
  rw [cmdWrite, h, hd]; rfl

theorem cmdWrite_illegal {s : State} (h : s.err = none) {w : Word} {d : DecodeReject} (hd : decode w = .illegal d) :
    cmdWrite w s = .next (raise .illegalCmd w s) := by
  rw [cmdWrite, h, hd]; rfl

theorem cmdWrite_blocked {s : State} (h : s.err ≠ none) {w : Word} (hw : w ≠ 0x10000000) : cmdWrite w s = .next s := by
  rw [cmdWrite, if_pos (Option.isSome_iff_ne_none.mpr h), if_neg (show ¬w = clrerrWord from hw)]

theorem cmdWrite_clrerr {s : State} (h : s.err ≠ none) : cmdWrite 0x10000000 s = .next (acknowledge s) := by
  rw [cmdWrite, if_pos (Option.isSome_iff_ne_none.mpr h)]; rfl

/-- What a write to CMD can be. -/
theorem cmdWrite_cases (w : Word) (s : State) :
    (s.err ≠ none ∧ w = 0x10000000 ∧ cmdWrite w s = .next (acknowledge s)) ∨
    (s.err ≠ none ∧ w ≠ 0x10000000 ∧ cmdWrite w s = .next s) ∨
    (s.err = none ∧ ∃ i, decode w = .command i ∧ cmdWrite w s = exec i s) ∨
    (s.err = none ∧ (∃ d, decode w = .illegal d) ∧ cmdWrite w s = .next (raise .illegalCmd w s)) := by
  by_cases h : s.err = none
  · cases hd : decode w with
    | command i => exact .inr (.inr (.inl ⟨h, i, rfl, cmdWrite_command h hd⟩))
    | illegal d => exact .inr (.inr (.inr ⟨h, ⟨d, rfl⟩, cmdWrite_illegal h hd⟩))
  · by_cases hw : w = 0x10000000
    · subst hw; exact .inl ⟨h, rfl, cmdWrite_clrerr h⟩
    · exact .inr (.inl ⟨h, hw, cmdWrite_blocked h hw⟩)

/-- What a store at an address other than CMD's can be, by address. -/
theorem hostStore_cases (a : Addr) (v : Word) (s : State) :
    (a.toNat = 0x2 ∧ hostStore a v s = { s with plen := v.setWidth 8 }) ∨
    (a.toNat = 0x3 ∧ hostStore a v s = { s with ver := v.setWidth 3 }) ∨
    (a.toNat = 0x5 ∧ hostStore a v s = { s with bitlen := v.setWidth 11 }) ∨
    (a.toNat = 0x6 ∧ hostStore a v s = { s with dlen := v.setWidth 8 }) ∨
    (a.toNat = 0x7 ∧ hostStore a v s = { s with eclen := v.setWidth 5 }) ∨
    ((inPayload a.toNat = true ∨ inCw a.toNat = true) ∧ hostStore a v s = s.setByte a.toNat (v.setWidth 8)) ∨
    (inBits a.toNat = true ∧ hostStore a v s = s.setByte a.toNat (bitByte (v.getLsbD 0))) ∨
    (¬(a.toNat ∈ [0x2, 0x3, 0x5, 0x6, 0x7]) ∧ inPayload a.toNat = false ∧ inCw a.toNat = false ∧ inBits a.toNat = false ∧
      hostStore a v s = raise .badAccess (a.setWidth 32) s) := by
  have eq : ∀ k : Nat, k < 8192 → (a = BitVec.ofNat 13 k ↔ a.toNat = k) := by
    intro k hk
    rw [← BitVec.toNat_inj, BitVec.toNat_ofNat, Nat.mod_eq_of_lt (by omega)]
  have e2 := eq 0x2 (by omega); have e3 := eq 0x3 (by omega); have e5 := eq 0x5 (by omega)
  have e6 := eq 0x6 (by omega); have e7 := eq 0x7 (by omega)
  unfold hostStore
  by_cases h2 : a = 0x2
  · exact .inl ⟨e2.mp h2, by rw [if_pos h2]⟩
  by_cases h3 : a = 0x3
  · exact .inr (.inl ⟨e3.mp h3, by rw [if_neg h2, if_pos h3]⟩)
  by_cases h5 : a = 0x5
  · exact .inr (.inr (.inl ⟨e5.mp h5, by rw [if_neg h2, if_neg h3, if_pos h5]⟩))
  by_cases h6 : a = 0x6
  · exact .inr (.inr (.inr (.inl ⟨e6.mp h6, by rw [if_neg h2, if_neg h3, if_neg h5, if_pos h6]⟩)))
  by_cases h7 : a = 0x7
  · exact .inr (.inr (.inr (.inr (.inl ⟨e7.mp h7, by rw [if_neg h2, if_neg h3, if_neg h5, if_neg h6, if_pos h7]⟩))))
  simp only [h2, h3, h5, h6, h7, if_false]
  by_cases hp : (inPayload a.toNat || inCw a.toNat) = true
  · exact .inr (.inr (.inr (.inr (.inr (.inl ⟨by simpa using hp, by rw [if_pos hp]⟩)))))
  by_cases hb : inBits a.toNat = true
  · exact .inr (.inr (.inr (.inr (.inr (.inr (.inl ⟨hb, by rw [if_neg hp, if_pos hb]⟩))))))
  · refine .inr (.inr (.inr (.inr (.inr (.inr (.inr ⟨?_, ?_, ?_, ?_, by rw [if_neg hp, if_neg hb]⟩))))))
    · simp only [List.mem_cons, List.not_mem_nil, or_false]
      rintro (h | h | h | h | h)
      · exact h2 (e2.mpr h)
      · exact h3 (e3.mpr h)
      · exact h5 (e5.mpr h)
      · exact h6 (e6.mpr h)
      · exact h7 (e7.mpr h)
    · simp only [Bool.or_eq_true, not_or, Bool.not_eq_true] at hp; exact hp.1
    · simp only [Bool.or_eq_true, not_or, Bool.not_eq_true] at hp; exact hp.2
    · simpa using hb

/-! ### Reads -/

/-- A word the port has at an address, and none where the address is unmapped. -/
theorem readWord_isSome_iff (s : State) (a : Nat) :
    (∃ w, s.readWord a = some w) ↔ a < 0x10 ∨ inCells a = true ∨ inBuffers a = true := by
  have h0 : inBuffers (logAddr 0) = true := by decide
  have hb : ∀ a, inBits a = true → inBuffers a = true := fun a h => by simp [inBuffers, h]
  unfold State.readWord
  by_cases h1 : a < 0x10
  · simp [h1]
  by_cases h2 : inCells a = true
  · simp [h1, h2]
  by_cases h3 : a = logAddr 0
  · subst h3; simp [h1, h2, h0]
  by_cases h4 : inBits a = true
  · simp [h1, h2, h3, h4, hb a h4]
  by_cases h5 : inBuffers a = true
  · simp [h1, h2, h3, h4, h5]
  · simp [h1, h2, h3, h4, h5]

theorem readWord_register {s : State} {a : Nat} (h : a < 0x10) : s.readWord a = some (s.regWord a) := by
  rw [State.readWord, if_pos h]

theorem readWord_cell {s : State} {a : Nat} (h : inCells a = true) : s.readWord a = some (s.cellWord a) := by
  have h0 : ¬a < 0x10 := by simp only [inCells, decide_eq_true_eq] at h; omega
  rw [State.readWord, if_neg h0, if_pos h]

theorem readWord_log_zero (s : State) : s.readWord (logAddr 0) = some 0 := rfl

theorem readWord_bit {s : State} {i : Nat} (h : i < 1024) :
    s.readWord (bitsAddr i) = some ((bitByte (s.bitAt i)).setWidth 32) := by
  have h1 : inCells (bitsAddr i) = false := decide_eq_false (by simp only [bitsAddr]; omega)
  have h2 : inBits (bitsAddr i) = true := decide_eq_true (by simp only [bitsAddr]; omega)
  have h3 : bitsAddr i - bitsAddr 0 = i := by simp [bitsAddr]
  have h4 : bitsAddr i ≠ logAddr 0 := by simp only [bitsAddr, logAddr]; omega
  rw [State.readWord, if_neg (by simp only [bitsAddr]; omega), h1, if_neg Bool.false_ne_true, if_neg h4, if_pos h2, h3]

theorem readWord_element {s : State} {a : Nat} (h : inBuffers a = true) (hl : a ≠ logAddr 0) (hb : inBits a = false) :
    s.readWord a = some ((s.byteAt a).setWidth 32) := by
  have h0 : ¬a < 0x10 ∧ inCells a = false := by
    simp only [inBuffers, inPayload, inExp, inLog, inGen, inPar, inCw, inBits, inCells, Bool.or_eq_true, decide_eq_true_eq,
      decide_eq_false_iff_not] at *
    omega
  rw [State.readWord, if_neg h0.1, h0.2, if_neg Bool.false_ne_true, if_neg hl, hb, if_neg Bool.false_ne_true, if_pos h]

/-- The address ranges as numbers. -/
theorem inTables_iff {a : Nat} : inExp a = true ∨ inLog a = true ↔ 0x200 ≤ a ∧ a ≤ 0x4FF := by
  simp only [inExp, inLog, decide_eq_true_eq]; omega

theorem toNat_ofNat_addr {k : Nat} (h : k < 8192) : (BitVec.ofNat 13 k).toNat = k := by
  rw [BitVec.toNat_ofNat, Nat.mod_eq_of_lt (by omega)]

theorem hostRead_of_word {a : Addr} {s : State} {w : Word} (h : (readEffect a.toNat s).readWord a.toNat = some w) :
    hostRead a s = { readEffect a.toNat s with rdata := w } := by rw [hostRead]; simp only [h]

theorem hostRead_unmapped {a : Addr} {s : State} (h : (readEffect a.toNat s).readWord a.toNat = none) :
    hostRead a s = if (readEffect a.toNat s).err = none then
        raise .badAccess (a.setWidth 32) { readEffect a.toNat s with rdata := 0 }
      else { readEffect a.toNat s with rdata := 0 } := by rw [hostRead]; simp only [h]

/-- Only reads of EXP and LOG have an effect on the state (R65). -/
theorem readEffect_of_not_table {a : Nat} (h1 : inExp a = false) (h2 : inLog a = false) (s : State) : readEffect a s = s := by
  simp [readEffect, h1, h2]

theorem readEffect_of_table {a : Nat} (h : inExp a = true ∨ inLog a = true) (s : State) : readEffect a s = ensureGf s := by
  rw [readEffect, if_pos (by simpa using h)]

theorem readEffect_readEffect (a : Nat) (s : State) : readEffect a (readEffect a s) = readEffect a s := by
  unfold readEffect; split <;> simp

/-- A mapped address outside the tables: the read returns the word there and changes nothing. -/
theorem hostRead_plain {a : Addr} {s : State} {w : Word} (h : s.readWord a.toNat = some w)
    (ht : ¬(0x200 ≤ a.toNat ∧ a.toNat ≤ 0x4FF)) : hostRead a s = { s with rdata := w } := by
  rw [← inTables_iff, not_or, Bool.not_eq_true, Bool.not_eq_true] at ht
  have e := readEffect_of_not_table ht.1 ht.2 s
  rw [hostRead_of_word (w := w) (by rw [e]; exact h), e]

/-- What a host read can be. -/
theorem hostRead_cases (a : Addr) (s : State) :
    (∃ w, hostRead a s = { readEffect a.toNat s with rdata := w }) ∨
    (s.err = none ∧ inExp a.toNat = false ∧ inLog a.toNat = false ∧
      hostRead a s = raise .badAccess (a.setWidth 32) { s with rdata := 0 }) := by
  cases h : (readEffect a.toNat s).readWord a.toNat with
  | some w => exact .inl ⟨w, hostRead_of_word h⟩
  | none =>
    rw [hostRead_unmapped h]
    split
    · rename_i he
      have hnone : ¬∃ w, (readEffect a.toNat s).readWord a.toNat = some w := by rw [h]; simp
      rw [readWord_isSome_iff] at hnone
      have h1 : inExp a.toNat = false := by
        cases hx : inExp a.toNat with
        | false => rfl
        | true => exact absurd (.inr (.inr (by simp [inBuffers, hx]))) hnone
      have h2 : inLog a.toNat = false := by
        cases hx : inLog a.toNat with
        | false => rfl
        | true => exact absurd (.inr (.inr (by simp [inBuffers, hx]))) hnone
      rw [readEffect_of_not_table h1 h2] at he ⊢
      exact .inr ⟨he, h1, h2, rfl⟩
    · exact .inl ⟨0, rfl⟩

/-- What one event can make of a state: the list later invariants go through. -/
theorem portEvent_induction {P : State → Prop} {e : PortEvent} {s t : State} (ht : portEvent e s = .next t)
    (same : P s)
    (table : ∀ w, P { ensureGf s with rdata := w })
    (data : ∀ w, P { s with rdata := w })
    (badRead : ∀ a : Addr, s.err = none → P (raise .badAccess (a.setWidth 32) { s with rdata := 0 }))
    (badWrite : ∀ a : Addr, s.err = none → P (raise .badAccess (a.setWidth 32) s))
    (plen : ∀ v, P { s with plen := v }) (ver : ∀ v, P { s with ver := v }) (bitlen : ∀ v, P { s with bitlen := v })
    (dlen : ∀ v, P { s with dlen := v }) (eclen : ∀ v, P { s with eclen := v })
    (element : ∀ a v, inPayload a = true ∨ inCw a = true → P (s.setByte a v))
    (bit : ∀ a b, inBits a = true → P (s.setByte a (bitByte b)))
    (illegal : ∀ w, s.err = none → P (raise .illegalCmd w s))
    (clrerr : s.err ≠ none → P (acknowledge s))
    (command : ∀ i u, s.err = none → exec i s = .next u → P u)
    (reset : P (resetBlock s)) : P t := by
  have inj : ∀ {u : State}, portEvent e s = .next u → P u → P t := by
    intro u hu hp
    rw [hu] at ht
    have : u = t := by injection ht
    exact this ▸ hp
  cases e with
  | read a =>
    rcases hostRead_cases a s with ⟨w, h⟩ | ⟨he, _, _, h⟩
    · refine inj (portEvent_read a s) ?_
      rw [h]
      unfold readEffect
      split
      · exact table w
      · exact data w
    · exact inj (portEvent_read a s) (h ▸ badRead a he)
  | write a v =>
    by_cases ha : a = 0x0000
    · subst ha
      rcases cmdWrite_cases v s with ⟨he, _, h⟩ | ⟨_, _, h⟩ | ⟨he, i, _, h⟩ | ⟨he, _, h⟩
      · exact inj (u := acknowledge s) h (clrerr he)
      · exact inj (u := s) h same
      · have h' : portEvent (.write 0x0000 v) s = exec i s := h
        exact command i t he (h' ▸ ht)
      · exact inj (u := raise .illegalCmd v s) h (illegal v he)
    · by_cases he : s.err = none
      · refine inj (hostWrite_other ha he v) ?_
        rcases hostStore_cases a v s with ⟨_, h⟩ | ⟨_, h⟩ | ⟨_, h⟩ | ⟨_, h⟩ | ⟨_, h⟩ | ⟨hr, h⟩ | ⟨hr, h⟩ | ⟨_, _, _, _, h⟩ <;>
          rw [h]
        · exact plen _
        · exact ver _
        · exact bitlen _
        · exact dlen _
        · exact eclen _
        · exact element _ _ hr
        · exact bit _ _ hr
        · exact badWrite a he
      · exact inj (hostWrite_blocked ha he v) same
  | reset => exact inj (portEvent_reset s) reset

/-- A step is idle or performs the oldest pending event. -/
theorem step_induction {P : State → Prop} {s t : State} (ht : step s = .next t) (idle : s.pending = [] → P s)
    (event : ∀ e rest, s.pending = e :: rest → portEvent e { s with pending := rest } = .next t → P t) : P t := by
  cases hp : s.pending with
  | nil => rw [step_of_pending_nil hp] at ht; injection ht with e; exact e ▸ idle hp
  | cons e rest => rw [step_of_pending_cons hp] at ht; exact event e rest hp ht

end Sys2Proof.Machine
end

