-- ==== Sys2Proof/Laws/Invariant.lean ====
section
/-! SUPPORT. What each effect makes of the buffers outside the elements it stores, and what it keeps of the parts of the
invariant. -/

-- One theorem at a time: each thread of Lean's reserves address space, which check.sh limits.
set_option Elab.async false

namespace Sys2Proof.Machine

/-! ### Elements an effect does not store -/

theorem byteAt_storeBitSequence_outside {b : List Bool} {a : Nat} (h : a < bitsAddr 0 ∨ bitsAddr b.length ≤ a) (s : State) :
    (storeBitSequence b s).byteAt a = s.byteAt a :=
  State.byteAt_of_writes_outside (storeBitSequence_mem s b) rfl
    (by simp only [List.length_map, bitsAddr] at *; omega)

theorem bitAt_storeBitSequence {b : List Bool} {i : Nat} (h : i < b.length) (s : State) :
    (storeBitSequence b s).bitAt i = b[i] := State.bitAt_setBits_at h s

theorem byteAt_b2bEffect_outside {s : State} {a : Nat} (h : a < cwAddr 0 ∨ cwAddr (s.bitlen.toNat / 8) ≤ a) :
    (b2bEffect s).byteAt a = s.byteAt a :=
  State.byteAt_of_writes_outside (b2bEffect_mem s) rfl (by simp only [length_bitsToBytes, cwAddr] at *; omega)

theorem byteAt_b2bEffect_cw {s : State} {i : Nat} (h : i < s.bitlen.toNat / 8) :
    (b2bEffect s).byteAt (cwAddr i) = (bitsToBytes (s.bitlen.toNat / 8) s.bitSequence).getD i 0 := by
  have h' : i < (bitsToBytes (s.bitlen.toNat / 8) s.bitSequence).length := by simpa using h
  have := State.byteAt_of_writes_at (b2bEffect_mem s) h'
  rw [show cwAddr 0 + i = cwAddr i by simp [cwAddr]] at this
  rw [this, List.getD_eq_getElem?_getD, List.getElem?_eq_getElem h']; rfl

theorem length_codewordBits (s : State) :
    (expand (s.dataCodewords ++ s.parityCodewords)).length = 8 * (s.dlen.toNat + s.eclen.toNat) := by simp

theorem byteAt_xbitsEffect_outside {s : State} {a : Nat}
    (h : a < bitsAddr 0 ∨ bitsAddr (8 * (s.dlen.toNat + s.eclen.toNat)) ≤ a) : (xbitsEffect s).byteAt a = s.byteAt a :=
  byteAt_storeBitSequence_outside (by rw [length_codewordBits]; exact h) s

theorem byteAt_rsencEffect_outside {ec a : Nat} (hec : 0 < ec) (s : State) (hg : a < genAddr 0 ∨ genAddr ec < a)
    (hp : a < parAddr 0 ∨ parAddr ec ≤ a) : (rsencEffect ec s).byteAt a = (ensureGf s).byteAt a := by
  rw [rsencEffect, storeParity_byteAt_outside hec hp, storeGenerator_byteAt_outside hg]

/-! ### Tables stay built -/

/-- Stores outside EXP and LOG keep the tables. -/
theorem tablesBuilt_writes {a : Nat} {vs : List Byte} {m : Memory} (h : TablesBuilt m)
    (hr : a + vs.length ≤ 0x200 ∨ 0x500 ≤ a) : TablesBuilt (memWriteList a vs m) := by
  constructor
  · intro i hi
    rw [memRead_memWriteList_outside (by simp only [expAddr]; omega)]; exact h.1 i hi
  · intro i hi
    have := (gfPow i).isLt
    rw [memRead_memWriteList_outside (by simp only [logAddr]; omega)]; exact h.2 i hi

/-! ### The memory's parts of the invariant -/

/-- The parts `memWf`, `memMapped` and `bitRange` of the invariant. -/
structure MemoryOk (m : Memory) : Prop where
  wf : m.wf = true
  mapped : ∀ a v, lookupKey a m = some v → inBuffers a = true ∧ a ≠ logAddr 0
  bits : ∀ i v, i < 1024 → lookupKey (bitsAddr i) m = some v → v = 0 ∨ v = 1

theorem memoryOk_writes {a : Nat} {vs : List Byte} {m : Memory} (h : MemoryOk m)
    (hr : ∀ b, a ≤ b → b < a + vs.length → inBuffers b = true ∧ b ≠ logAddr 0)
    (hv : (a + vs.length ≤ bitsAddr 0 ∨ bitsAddr 1024 ≤ a) ∨ ∀ v ∈ vs, v = 0 ∨ v = 1) : MemoryOk (memWriteList a vs m) where
  wf := Memory.wf_memWriteList vs a h.wf
  mapped := by
    intro b v hb
    rcases lookupKey_memWriteList hb with ⟨h1, h2, _⟩ | hb
    · exact hr b h1 h2
    · exact h.mapped b v hb
  bits := by
    intro i v hi hb
    rcases lookupKey_memWriteList hb with ⟨h1, h2, h3⟩ | hb
    · rcases hv with hv | hv
      · simp only [bitsAddr] at *; omega
      · exact hv v h3
    · exact h.bits i v hi hb

theorem memoryOk_memWrite {a : Nat} {v : Byte} {m : Memory} (h : MemoryOk m) (hr : inBuffers a = true ∧ a ≠ logAddr 0)
    (hv : inBits a = false ∨ v = 0 ∨ v = 1) : MemoryOk (memWrite a v m) := by
  have := memoryOk_writes (a := a) (vs := [v]) h (fun b h1 h2 => by
    obtain rfl : b = a := by simp at h2; omega
    exact hr) (by
    rcases hv with hv | hv
    · left; simp only [inBits, decide_eq_false_iff_not, bitsAddr, List.length_singleton] at *; omega
    · right; simpa using hv)
  exact this

theorem memoryOk_buildTables {m : Memory} (h : MemoryOk m) : MemoryOk (buildTables m) where
  wf := Memory.wf_buildTables h.wf
  mapped := by
    intro a v ha
    rcases lookupKey_buildTables ha with h1 | ⟨h1, h2⟩ | ha
    · refine ⟨by simp [inBuffers, h1], ?_⟩
      rintro rfl; simp [inExp, logAddr] at h1
    · exact ⟨by simp [inBuffers, h1], h2⟩
    · exact h.mapped a v ha
  bits := by
    intro i v hi ha
    rcases lookupKey_buildTables ha with h1 | ⟨h1, _⟩ | ha
    · have h1 := of_decide_eq_true h1; simp only [bitsAddr] at h1; omega
    · have h1 := of_decide_eq_true h1; simp only [bitsAddr] at h1; omega
    · exact h.bits i v hi ha

theorem memoryOk_ensureGf {s : State} (h : MemoryOk s.mem) : MemoryOk (ensureGf s).mem := by
  cases hv : s.gfvalid with
  | true => rwa [ensureGf_of_valid hv]
  | false =>
    have e : (ensureGf s).mem = buildTables s.mem := by rw [ensureGf_of_not_valid hv]
    rw [e]; exact memoryOk_buildTables h

theorem inBuffers_gen {b : Nat} (h1 : 0x500 ≤ b) (h2 : b < 0x540) : inBuffers b = true ∧ b ≠ logAddr 0 := by
  refine ⟨?_, by simp only [logAddr]; omega⟩
  simp only [inBuffers, inGen, inPar, Bool.or_eq_true, decide_eq_true_eq]; omega

theorem inBuffers_cw {b : Nat} (h1 : 0x600 ≤ b) (h2 : b < 0x700) : inBuffers b = true ∧ b ≠ logAddr 0 := by
  refine ⟨?_, by simp only [logAddr]; omega⟩
  simp only [inBuffers, inCw, Bool.or_eq_true, decide_eq_true_eq]; omega

theorem inBuffers_bits {b : Nat} (h1 : 0x800 ≤ b) (h2 : b < 0xC00) : inBuffers b = true ∧ b ≠ logAddr 0 := by
  refine ⟨?_, by simp only [logAddr]; omega⟩
  simp only [inBuffers, inBits, Bool.or_eq_true, decide_eq_true_eq]; omega

theorem memoryOk_storeGenerator {d : Nat} (hd : d ≤ 30) {s : State} (h : MemoryOk s.mem) :
    MemoryOk (storeGenerator d s).mem := by
  rw [storeGenerator_mem]
  refine memoryOk_writes h (fun b h1 h2 => inBuffers_gen h1 ?_) (.inl (.inl ?_)) <;>
    simp only [State.length_generator, genAddr, bitsAddr] at * <;> omega

theorem memoryOk_storeParity {ec : Nat} (hec : 1 ≤ ec ∧ ec ≤ 30) {s : State} (h : MemoryOk s.mem) :
    MemoryOk (storeParity ec s).mem := by
  rw [storeParity_mem]
  refine memoryOk_writes h (fun b h1 h2 => inBuffers_gen ?_ ?_) (.inl (.inl ?_)) <;>
    rw [length_storeParity ec (by omega)] at * <;> simp only [parAddr, bitsAddr] at * <;> omega

theorem memoryOk_rsencEffect {ec : Nat} (hec : 1 ≤ ec ∧ ec ≤ 30) {s : State} (h : MemoryOk s.mem) :
    MemoryOk (rsencEffect ec s).mem :=
  memoryOk_storeParity hec (memoryOk_storeGenerator hec.2 (memoryOk_ensureGf h))

theorem memoryOk_storeBitSequence {b : List Bool} (hb : b.length ≤ 1024) {s : State} (h : MemoryOk s.mem) :
    MemoryOk (storeBitSequence b s).mem := by
  rw [storeBitSequence_mem]
  refine memoryOk_writes h (fun a h1 h2 => inBuffers_bits h1 ?_) (.inr fun v hv => ?_)
  · simp only [List.length_map, bitsAddr] at *; omega
  · obtain ⟨x, _, rfl⟩ := List.mem_map.mp hv; exact bitByte_range x

theorem memoryOk_b2bEffect {s : State} (hb : s.bitlen.toNat ≤ 1024) (h : MemoryOk s.mem) : MemoryOk (b2bEffect s).mem := by
  rw [b2bEffect_mem]
  refine memoryOk_writes h (fun a h1 h2 => inBuffers_cw h1 ?_) (.inl (.inl ?_)) <;>
    simp only [length_bitsToBytes, cwAddr, bitsAddr] at * <;> omega

theorem memoryOk_xbitsEffect {s : State} (hb : s.dlen.toNat + s.eclen.toNat ≤ 128) (h : MemoryOk s.mem) :
    MemoryOk (xbitsEffect s).mem :=
  memoryOk_storeBitSequence (by rw [length_codewordBits]; omega) h

/-! ### Tables stay sound -/

theorem tablesBuilt_storeGenerator {d : Nat} {s : State} (h : TablesBuilt s.mem) : TablesBuilt (storeGenerator d s).mem := by
  rw [storeGenerator_mem]; exact tablesBuilt_writes h (.inr (by simp [genAddr]))

theorem tablesBuilt_storeParity {ec : Nat} {s : State} (h : TablesBuilt s.mem) : TablesBuilt (storeParity ec s).mem := by
  rw [storeParity_mem]; exact tablesBuilt_writes h (.inr (by simp [parAddr]))

theorem tablesBuilt_rsencEffect {ec : Nat} {s : State} (h : s.gfvalid = true → TablesBuilt s.mem) :
    TablesBuilt (rsencEffect ec s).mem :=
  tablesBuilt_storeParity (tablesBuilt_storeGenerator (tablesBuilt_ensureGf h))

theorem tablesBuilt_storeBitSequence {b : List Bool} {s : State} (h : TablesBuilt s.mem) :
    TablesBuilt (storeBitSequence b s).mem := by
  rw [storeBitSequence_mem]; exact tablesBuilt_writes h (.inr (by simp [bitsAddr]))

theorem tablesBuilt_b2bEffect {s : State} (h : TablesBuilt s.mem) : TablesBuilt (b2bEffect s).mem := by
  rw [b2bEffect_mem]; exact tablesBuilt_writes h (.inr (by simp [cwAddr]))

theorem tablesBuilt_xbitsEffect {s : State} (h : TablesBuilt s.mem) : TablesBuilt (xbitsEffect s).mem :=
  tablesBuilt_storeBitSequence h

/-! ### ENCODE's stages -/

/-- Between the packed bits and XBITS the counts are those the domain checks want: "every operand check of the component
commands holds by construction" (R241). -/
theorem encodeBack_counts {v : Nat} {b : List Bool} (hb : b.length ≤ 688) (s : State) :
    (rsencEffect (ecCount v) (b2bEffect (storeBitSequence b s))).dlen.toNat = b.length / 8 ∧
    (rsencEffect (ecCount v) (b2bEffect (storeBitSequence b s))).eclen.toNat = ecCount v := by
  have he := ecCount_range v
  have hl : (storeBitSequence b s).bitlen.toNat = b.length := by simp; omega
  constructor
  · rw [rsencEffect_dlen, b2bEffect_dlen, hl]; simp; omega
  · rw [rsencEffect_eclen]; simp; omega

theorem memoryOk_encodeBack {v : Nat} {b : List Bool} (hb : b.length ≤ 688) {s : State} (h : MemoryOk s.mem) :
    MemoryOk (encodeBack v b s).mem := by
  have he := ecCount_range v
  obtain ⟨c1, c2⟩ := encodeBack_counts (v := v) hb s
  have hl : (storeBitSequence b s).bitlen.toNat = b.length := by simp; omega
  simp only [encodeBack, maskEffect_mem, placeEffect_mem]
  exact memoryOk_xbitsEffect (by omega) (memoryOk_rsencEffect (by omega)
    (memoryOk_b2bEffect (by omega) (memoryOk_storeBitSequence (by omega) h)))

theorem tablesBuilt_encodeBack {v : Nat} {b : List Bool} {s : State} (h : s.gfvalid = true → TablesBuilt s.mem) :
    TablesBuilt (encodeBack v b s).mem := by
  simp only [encodeBack, maskEffect_mem, placeEffect_mem]
  refine tablesBuilt_xbitsEffect (tablesBuilt_rsencEffect fun hv => ?_)
  exact tablesBuilt_b2bEffect (tablesBuilt_storeBitSequence (h hv))

/-- The elements ENCODE does not store. -/
theorem byteAt_encodeBack_outside {v : Nat} {b : List Bool} (hb : b.length ≤ 688) (hb8 : b.length % 8 = 0) (s : State)
    {a : Nat} (hbits : a < bitsAddr 0 ∨ bitsAddr (b.length + 8 * ecCount v) ≤ a)
    (hcw : a < cwAddr 0 ∨ cwAddr (b.length / 8) ≤ a) (hg : a < genAddr 0 ∨ genAddr (ecCount v) < a)
    (hp : a < parAddr 0 ∨ parAddr (ecCount v) ≤ a) :
    (encodeBack v b s).byteAt a = (ensureGf (b2bEffect (storeBitSequence b s))).byteAt a := by
  have he := ecCount_range v
  obtain ⟨c1, c2⟩ := encodeBack_counts (v := v) hb s
  have e : (encodeBack v b s).byteAt a =
      (xbitsEffect (rsencEffect (ecCount v) (b2bEffect (storeBitSequence b s)))).byteAt a :=
    State.byteAt_congr (by simp [encodeBack]) (by simp [encodeBack]) a
  rw [e, byteAt_xbitsEffect_outside (by rw [c1, c2]; simp only [bitsAddr] at *; omega),
    byteAt_rsencEffect_outside (by omega) _ hg hp]

/-- The elements the packed bits and their bytes do not cover. -/
theorem byteAt_packed_outside {b : List Bool} (hb : b.length ≤ 688) (s : State) {a : Nat}
    (hbits : a < bitsAddr 0 ∨ bitsAddr b.length ≤ a) (hcw : a < cwAddr 0 ∨ cwAddr (b.length / 8) ≤ a) :
    (b2bEffect (storeBitSequence b s)).byteAt a = s.byteAt a := by
  have hl : (storeBitSequence b s).bitlen.toNat = b.length := by simp; omega
  rw [byteAt_b2bEffect_outside (by rw [hl]; exact hcw), byteAt_storeBitSequence_outside hbits]

end Sys2Proof.Machine
end

