-- ==== Sys2Proof/Laws/PerInstr.lean ====
section
/-! SUPPORT. What is said of every command as syntax, one lemma per constructor. -/

namespace Sys2Proof.Laws.EncodeOpcode

/-- The opcode a command's row of R93 names, which its encoding carries in bits [31:24] (R90). -/
def Statement (i : Instr) : Prop :=
  opField (encode i) =
    match i with
    | .nop => 0x00
    | .gfinit => 0x01
    | .gfmul _ _ => 0x02
    | .rsgen _ => 0x03
    | .rsenc _ => 0x04
    | .vsel => 0x05
    | .pack => 0x06
    | .b2b => 0x07
    | .xbits => 0x08
    | .mnew _ => 0x09
    | .fstamp _ _ => 0x0A
    | .sstamp => 0x0B
    | .place => 0x0C
    | .mask => 0x0D
    | .encode => 0x0E
    | .draw _ _ => 0x0F
    | .clrerr => 0x10

/-- The opcode of each format's words. -/
theorem opField_formatB (op a : Byte) : opField (formatB op a) = op := by
  apply BitVec.eq_of_toNat_eq
  have := a.isLt
  rw [toNat_opField, toNat_formatB]; omega

theorem opField_formatP (op a b : Byte) : opField (formatP op a b) = op := by
  apply BitVec.eq_of_toNat_eq
  have := a.isLt
  have := b.isLt
  rw [toNat_opField, toNat_formatP]; omega

theorem opField_formatS (op : Byte) (w h : BitVec 12) : opField (formatS op w h) = op := by
  apply BitVec.eq_of_toNat_eq
  have := w.isLt
  have := h.isLt
  rw [toNat_opField, toNat_formatS]; omega

theorem nop : Statement .nop := rfl
theorem gfinit : Statement .gfinit := rfl
theorem gfmul (a b : Byte) : Statement (.gfmul a b) := opField_formatP _ a b
theorem rsgen (degree : Nat) : Statement (.rsgen degree) := opField_formatB _ _
theorem rsenc (eccount : Nat) : Statement (.rsenc eccount) := opField_formatB _ _
theorem vsel : Statement .vsel := rfl
theorem pack : Statement .pack := rfl
theorem b2b : Statement .b2b := rfl
theorem xbits : Statement .xbits := rfl
theorem mnew (n : Nat) : Statement (.mnew n) := opField_formatB _ _
theorem fstamp (row col : Int) : Statement (.fstamp row col) := opField_formatP _ _ _
theorem sstamp : Statement .sstamp := rfl
theorem place : Statement .place := rfl
theorem mask : Statement .mask := rfl
theorem encode : Statement .encode := rfl
theorem draw (w h : Nat) : Statement (.draw w h) := opField_formatS _ _ _
theorem clrerr : Statement .clrerr := rfl

end Sys2Proof.Laws.EncodeOpcode
end

