-- ==== Sys2Proof/Laws/Results.lean ====
section
/-! SUPPORT. What each effect leaves, said once, in the words the statements use: the tables,
    the generator and the parity,
the bytes of packed bits, the bits of codewords, the stamped and the filled cells, the geometry of a drawing. -/

-- One theorem at a time: each thread of Lean's reserves address space, which check.sh limits.
set_option Elab.async false

namespace Sys2Proof.Machine

/-! ### States field by field -/

/-- States are equal when their fields are: to be used with the lemmas of Laws/State.lean,
    which never unfold an effect. -/
theorem State.ext_fields {s t : State}
    (cfg : s.cfg = t.cfg) (gfvalid : s.gfvalid = t.gfvalid) (unres : s.unres = t.unres) (err : s.err = t.err)
    (errinfo : s.errinfo = t.errinfo) (plen : s.plen = t.plen) (ver : s.ver = t.ver) (n : s.n = t.n)
    (bitlen : s.bitlen = t.bitlen) (dlen : s.dlen = t.dlen) (eclen : s.eclen = t.eclen) (gdeg : s.gdeg = t.gdeg)
    (result : s.result = t.result) (surfw : s.surfw = t.surfw) (surfh : s.surfh = t.surfh)
    (cellsz : s.cellsz = t.cellsz) (offx : s.offx = t.offx) (offy : s.offy = t.offy) (mem : s.mem = t.mem)
    (matrix : s.matrix = t.matrix) (surf : s.surf = t.surf) (pending : s.pending = t.pending)
    (rdata : s.rdata = t.rdata) (resetCount : s.resetCount = t.resetCount) : s = t := by
  cases s; cases t; simp_all

/-! ### The tables (R121, R123) -/

theorem ensureGf_eq (s : State) : ensureGf s = { s with mem := (ensureGf s).mem, gfvalid := true } := by
  cases hv : s.gfvalid with
  | true => rw [ensureGf_of_valid hv, ← hv]
  | false => rw [ensureGf_of_not_valid hv]

theorem byteAt_ensureGf_outside {s : State} {a : Nat} (h1 : inExp a = false) (h2 : inLog a = false) :
    (ensureGf s).byteAt a = s.byteAt a := byteAt_ensureGf_other s h1 (.inl h2)

theorem State.byteAt_of_memRead {s : State} {a : Nat} {v : Byte} (h : memRead s.mem a = some v) : s.byteAt a = v := by
  rw [State.byteAt, h]

/-! ### Generator and parity (R140 to R144) -/

theorem bytesAt_storeGenerator {s : State} (h : TablesBuilt s.mem) {d : Nat} (hd : d ≤ 30) :
    (storeGenerator d s).bytesAt (genAddr 0) (d + 1) = rootPoly d := by
  refine List.ext_getElem (by simp) fun i h1 h2 => ?_
  have := storeGenerator_byteAt_gen h hd (i := i) (by simp at h1; omega)
  rw [State.getElem_bytesAt, show genAddr 0 + i = genAddr i by simp [genAddr], this, List.getD_eq_getElem?_getD,
    List.getElem?_eq_getElem h2]
  rfl

/-- The product of the factors `x - 2^i` is the value of the generator (R140). -/
theorem foldl_factors_eq_polyEval (d : Nat) (x : Byte) :
    (List.range d).foldl (fun acc i => gfTimes acc (x ^^^ gfPow i)) 1 = polyEval (rootPoly d) x := by
  induction d with
  | zero => simp [rootPoly, polyEval]
  | succ d ih => rw [List.range_succ, List.foldl_append, ih, polyEval_rootPoly_succ]; rfl

theorem bytesAt_storeParity {s : State} {ec : Nat} (hec : 0 < ec) :
    (storeParity ec s).bytesAt (parAddr 0) ec = rsParity s.gfmul (s.generator ec) s.dataCodewords ec := by
  refine List.ext_getElem (by simp [length_storeParity ec hec]) fun i h1 h2 => ?_
  have := storeParity_byteAt_par (i := i) (ec := ec) (by simpa using h1) s
  rw [State.getElem_bytesAt, show parAddr 0 + i = parAddr i by simp [parAddr], this, List.getD_eq_getElem?_getD,
    List.getElem?_eq_getElem h2]
  rfl

theorem dataCodewords_ensureGf (s : State) : (ensureGf s).dataCodewords = s.dataCodewords :=
  State.dataCodewords_congr (by simp) fun i hi => byteAt_ensureGf_outside
    (decide_eq_false (by have := s.dlen.isLt; simp only [cwAddr]; omega))
    (decide_eq_false (by have := s.dlen.isLt; simp only [cwAddr]; omega))

theorem dataCodewords_storeGenerator {d : Nat} (hd : d ≤ 30) (s : State) :
    (storeGenerator d s).dataCodewords = s.dataCodewords :=
  State.dataCodewords_congr (by simp) fun i hi =>
    storeGenerator_byteAt_outside (by simp only [genAddr, cwAddr]; omega) s

/-- The parity RSENC stores, by the field's own arithmetic (R143). -/
theorem bytesAt_rsencEffect {s : State} (h : s.gfvalid = true → TablesBuilt s.mem) {ec : Nat} (h1 : 1 ≤ ec) (h2 :
    ec ≤ 30) :
    (rsencEffect ec s).bytesAt (parAddr 0) ec = rsParity gfTimes (rootPoly ec) s.dataCodewords ec := by
  have hb := tablesBuilt_storeGenerator (d := ec) (tablesBuilt_ensureGf h)
  rw [rsencEffect, bytesAt_storeParity (by omega), State.rsParity_eq hb (by omega), dataCodewords_storeGenerator h2,
    dataCodewords_ensureGf]

theorem dataCodewords_rsencEffect {s : State} {ec : Nat} (h1 : 1 ≤ ec) (h2 : ec ≤ 30) :
    (rsencEffect ec s).dataCodewords = s.dataCodewords :=
  State.dataCodewords_congr (by simp) fun i hi => by
    have := s.dlen.isLt
    rw [byteAt_rsencEffect_outside (by omega) _ (by simp only [genAddr, cwAddr]; omega)
      (by simp only [parAddr, cwAddr]; omega)]
    exact byteAt_ensureGf_outside (decide_eq_false (by simp only [cwAddr]; omega))
      (decide_eq_false (by simp only [cwAddr]; omega))

theorem bytesAt_gen_rsencEffect {s : State} (h : s.gfvalid = true → TablesBuilt s.mem) {ec : Nat} (h1 : 1 ≤ ec)
    (h2 : ec ≤ 30) : (rsencEffect ec s).bytesAt (genAddr 0) (ec + 1) = rootPoly ec := by
  rw [← bytesAt_storeGenerator (tablesBuilt_ensureGf h) h2, rsencEffect]
  exact State.bytesAt_congr fun i hi =>
    storeParity_byteAt_outside (by omega) (by simp only [genAddr, parAddr]; omega) _

/-! ### Bits and bytes (R174, R175, R178) -/

theorem bitSequence_storeBitSequence {b : List Bool} (hb : b.length < 2048) (s : State) :
    (storeBitSequence b s).bitSequence = b := by
  have hl : (storeBitSequence b s).bitlen.toNat = b.length := by simp; omega
  refine List.ext_getElem (by rw [State.length_bitSequence, hl]) fun i h1 h2 => ?_
  simp only [State.bitSequence, State.getElem_bitsAt]
  exact bitAt_storeBitSequence h2 s

theorem dataCodewords_b2bEffect {s : State} (h : s.bitlen.toNat ≤ 1024) :
    (b2bEffect s).dataCodewords = bitsToBytes (s.bitlen.toNat / 8) s.bitSequence := by
  have hd : (b2bEffect s).dlen.toNat = s.bitlen.toNat / 8 := by simp; omega
  refine List.ext_getElem (by rw [State.length_dataCodewords, hd, length_bitsToBytes]) fun i h1 h2 => ?_
  have hi : i < s.bitlen.toNat / 8 := by simpa using h2
  simp only [State.dataCodewords, State.getElem_bytesAt]
  rw [show cwAddr 0 + i = cwAddr i by simp [cwAddr], byteAt_b2bEffect_cw hi, List.getD_eq_getElem?_getD,
    List.getElem?_eq_getElem h2]
  rfl

/-- Bit k of byte i of CW is bit `8*i + k` of the sequence (R174). -/
theorem getLsbD_b2bEffect {s : State} (h8 : s.bitlen.toNat % 8 = 0) {i k : Nat} (hi : i < s.bitlen.toNat / 8) (hk :
    k < 8) :
    ((b2bEffect s).byteAt (cwAddr i)).getLsbD (7 - k) = s.bitAt (8 * i + k) := by
  have hl : s.bitSequence.length = 8 * (s.bitlen.toNat / 8) := by simp; omega
  have := getElem?_bitsToBytes (s.bitlen.toNat / 8) hl (i := i) hk
  rw [List.getElem?_eq_getElem (by simpa using hi), List.getElem?_eq_getElem (by rw [hl]; omega)] at this
  rw [byteAt_b2bEffect_cw hi, List.getD_eq_getElem?_getD, List.getElem?_eq_getElem (by simpa using hi)]
  simp only [Option.map_some, Option.some.injEq, State.bitSequence, State.getElem_bitsAt] at this
  exact this

theorem bitlen_xbitsEffect {s : State} (h : s.dlen.toNat + s.eclen.toNat ≤ 128) :
    (xbitsEffect s).bitlen.toNat = 8 * (s.dlen.toNat + s.eclen.toNat) := by
  rw [xbitsEffect, storeBitSequence_bitlen, length_codewordBits]; simp; omega

/-- Bit `8*i + k` of BITS is bit k of codeword i, data first (R178). -/
theorem bitAt_xbitsEffect {s : State} {i k : Nat} (hk : k < 8) (hi : i < s.dlen.toNat + s.eclen.toNat) :
    (xbitsEffect s).bitAt (8 * i + k) =
      (s.byteAt (if i < s.dlen.toNat then cwAddr i else parAddr (i - s.dlen.toNat))).getLsbD (7 - k) := by
  have hlt : 8 * i + k < (expand (s.dataCodewords ++ s.parityCodewords)).length := by rw [length_codewordBits]; omega
  have := getElem?_expand (ys := s.dataCodewords ++ s.parityCodewords) (i := i) hk
  rw [List.getElem?_eq_getElem hlt, List.getElem?_eq_getElem (by simpa using hi)] at this
  simp only [Option.map_some, Option.some.injEq] at this
  rw [xbitsEffect, bitAt_storeBitSequence hlt, this, List.getElem_append]
  split
  · rename_i h
    have h : i < s.dlen.toNat := by simpa using h
    rw [if_pos h]; simp only [State.dataCodewords, State.getElem_bytesAt, cwAddr, msbFirst, Nat.add_zero]
  · rename_i h
    have h : ¬ i < s.dlen.toNat := by simpa using h
    rw [if_neg h]
    simp only [State.parityCodewords, State.getElem_bytesAt, parAddr, msbFirst, Nat.add_zero,
        State.length_dataCodewords]

theorem bitSequence_xbitsEffect {s : State} (h : s.dlen.toNat + s.eclen.toNat ≤ 128) :
    (xbitsEffect s).bitSequence = expand (s.dataCodewords ++ s.parityCodewords) := by
  rw [xbitsEffect]; exact bitSequence_storeBitSequence (by rw [length_codewordBits]; omega) s

/-! ### Cells -/

theorem State.cell_eq (s : State) (r c : Nat) : s.cell r c = getCell s.matrix r c := rfl

theorem cell_sstampEffect (v : Nat) (s : State) (r c : Nat) :
    (sstampEffect v s).cell r c = getCell (stampStructural s.cfg.timingEvenDark v s.matrix) r c := by
  rw [State.cell, sstampEffect_matrix]

theorem getD_bitSequence (s : State) (k : Nat) :
    s.bitSequence.getD k false = decide (k < s.bitlen.toNat ∧ s.bitAt k = true) := by
  rw [List.getD_eq_getElem?_getD]
  by_cases hk : k < s.bitlen.toNat
  · rw [List.getElem?_eq_getElem (by simpa using hk)]
    simp [State.bitSequence, hk]
  · rw [List.getElem?_eq_none (by simp; omega)]; simp [hk]

/-- How many unresolved cells outside column 6 the zigzag scan visits before a cell (R220). -/
def unresolvedBefore (n : Nat) (m : Matrix) (p : Nat × Nat) : Nat :=
  ((gridCoords n n).filter
    (fun q => decide (q.2 ≠ 6 ∧ getCell m q.1 q.2 = .unresolved ∧ scanRank n q < scanRank n p))).length

theorem snd_lt_of_mem_placeOrder {n : Nat} (hn : n ∈ versionSides) (h64 : n < 64) : ∀ p ∈ placeOrder n, p.2 < 64 :=
  fun p hp => by have := (mem_placeOrder hn).mp hp; omega

/-- The cells `place_data` fills (R220). -/
theorem placeData_getCell {n : Nat} (hn : n ∈ versionSides) (h64 : n < 64) (bits : List Bool) (m : Matrix) {r c : Nat}
    (hr : r < n) (hc : c < n) (h6 : c ≠ 6) (hu : getCell m r c = .unresolved) :
    getCell (placeData n bits m).2 r c = bitCell (bits.getD (unresolvedBefore n m (r, c)) false) := by
  have hlt := snd_lt_of_mem_placeOrder hn h64
  obtain ⟨l₁, l₂, e, hl1, hl2⟩ := placeOrder_split hn ((mem_placeOrder hn).mpr ⟨hr, hc, h6⟩ : (r, c) ∈ placeOrder n)
  have hnd := nodup_placeOrder hn
  rw [e] at hnd hlt
  have key := foldl_placeVisit_getCell bits l₁ l₂ hlt hnd 0 m
  rw [← e, if_pos hu, Nat.zero_add] at key
  rw [placeData, key]
  congr 2
  rw [countUnresolved, unresolvedBefore]
  refine List.Perm.length_eq ((List.perm_ext_iff_of_nodup ?_ ?_).mpr ?_)
  · exact ((List.nodup_append.mp hnd).1).filter _
  · exact (nodup_gridCoords _ _).filter _
  · intro q
    simp only [List.mem_filter, decide_eq_true_eq, mem_gridCoords]
    constructor
    · rintro ⟨hq, hqu⟩
      have hq' := (mem_placeOrder hn).mp (e ▸ List.mem_append_left _ hq)
      exact ⟨⟨hq'.1, hq'.2.1⟩, hq'.2.2, hqu, hl1 q hq⟩
    · rintro ⟨⟨a1, a2⟩, a3, a4, a5⟩
      refine ⟨?_, a4⟩
      have hq := (mem_placeOrder hn).mpr ⟨a1, a2, a3⟩
      rw [e, List.mem_append, List.mem_cons] at hq
      rcases hq with hq | rfl | hq
      · exact hq
      · omega
      · have := hl2 q hq; omega

/-- The cells `place_data` leaves (R220). -/
theorem placeData_getCell_other {n : Nat} (hn : n ∈ versionSides) (h64 : n < 64) (bits : List Bool) (m :
    Matrix) {r c : Nat}
    (hc : c < 64) (h : ¬(r < n ∧ c < n ∧ c ≠ 6 ∧ getCell m r c = .unresolved)) :
    getCell (placeData n bits m).2 r c = getCell m r c := by
  have hlt := snd_lt_of_mem_placeOrder hn h64
  rw [placeData]
  by_cases hp : (r, c) ∈ placeOrder n
  · obtain ⟨l₁, l₂, e, hl1, hl2⟩ := placeOrder_split hn hp
    have hnd := nodup_placeOrder hn
    rw [e] at hnd hlt
    have key := foldl_placeVisit_getCell bits l₁ l₂ hlt hnd 0 m
    rw [e, key, if_neg (fun hu => h ?_)]
    have := (mem_placeOrder hn).mp hp
    exact ⟨this.1, this.2.1, this.2.2, hu⟩
  · rw [foldl_placeVisit_other _ _ hlt _ hc hp]

/-! ### Drawing (R260, R262) -/

theorem cellSize_range {rpad n w h : Nat} (hn : 0 < n) (hw : w < 4096) :
    1 ≤ cellSize rpad n w h ∧ cellSize rpad n w h < 4096 ∧
    ((cellSize rpad n w h : Nat) : Int) = max 1 (((min w h : Nat) - 2 * (rpad : Int)) / (n : Int)) := by
  unfold cellSize
  have : (((min w h : Nat) : Int) - 2 * (rpad : Int)) / (n : Int) ≤ 4095 := by
    refine Int.le_trans (Int.ediv_le_ediv (by omega) (show _ ≤ ((min w h : Nat) : Int) by omega)) ?_
    exact Int.le_trans (Int.ediv_le_self _ (by omega)) (by omega)
  generalize (((min w h : Nat) : Int) - 2 * (rpad : Int)) / (n : Int) = q at *
  omega

theorem toInt_centreOffset {e n cs : Nat} (he : e < 4096) (hn : n < 64) (hcs : cs < 4096) :
    (BitVec.ofInt 32 (centreOffset e n cs)).toInt = centreOffset e n cs := by
  have : n * cs ≤ 63 * 4095 := Nat.mul_le_mul (by omega) (by omega)
  have e' : ((n : Int) * cs) = ((n * cs : Nat) : Int) := by push_cast; ring
  unfold centreOffset
  rw [e', BitVec.toInt_ofInt]; simp only [Int.bmod]; omega

/-! ### ENCODE (R241, R243) -/

theorem runCommands_cons {i : Instr} {is : List Instr} {s t : State} (h : exec i s = .next t) :
    runCommands (i :: is) s = runCommands is t := by
  rw [runCommands, h]

/-- ENCODE's version and matrix side pass the component commands' checks (R241). -/
theorem encodeFront_legal (s : State) : (1 ≤ (encodeFront s).ver.toNat ∧ (encodeFront s).ver.toNat ≤ 5) ∧
    (encodeFront s).ver.toNat = chooseVersion s.plen.toNat ∧
        (encodeFront s).n.toNat = side (chooseVersion s.plen.toNat) := by
  have := chooseVersion_range s.plen.toNat
  rw [encodeFront_ver, encodeFront_n]
  simp only [BitVec.toNat_ofNat, side]; omega

theorem payload_encodeFront (s : State) : (encodeFront s).payload = s.payload := by
  simp only [State.payload, encodeFront_plen]
  exact State.bytesAt_congr fun i _ => State.byteAt_congr (by simp) (by simp) _

/-- Every cell of column 6 is a finder or a timing cell (R197), so PLACE never meets it unresolved. -/
theorem columnSix_stamped {n r : Nat} (h : n = 21 ∨ n = 25 ∨ n = 29 ∨ n = 33 ∨ n = 37) (hr : r < n) :
    finderAt n r 6 ≠ none ∨ timingAt n r 6 ≠ none := by
  unfold finderAt timingAt
  by_cases h1 : r ≤ 6
  · left; simp [h1]
  · by_cases h2 : n - 7 ≤ r
    · left; simp [h1, h2]
    · right; rw [if_neg (by omega), if_pos (by omega)]; simp

/-- ENCODE's matrix: the codewords' bits placed and masked (R241). -/
theorem matrix_encodeBack {v : Nat} {b : List Bool} (hb : b.length ≤ 688) (s : State) :
    (encodeBack v b s).matrix = applyMask s.n.toNat (placeData s.n.toNat
      (expand ((rsencEffect (ecCount v) (b2bEffect (storeBitSequence b s))).dataCodewords ++
          (rsencEffect (ecCount v) (b2bEffect (storeBitSequence b s))).parityCodewords)) s.matrix).2 := by
  obtain ⟨c1, c2⟩ := encodeBack_counts (v := v) hb s
  have he := ecCount_range v
  rw [← bitSequence_xbitsEffect (by omega)]
  simp only [encodeBack, maskEffect_matrix, placeEffect_matrix, placeEffect_n, xbitsEffect_n, rsencEffect_n,
      b2bEffect_n, storeBitSequence_n, xbitsEffect_matrix, rsencEffect_matrix, b2bEffect_matrix,
          storeBitSequence_matrix]

/-- After PLACE no cell of ENCODE's matrix is unresolved (R243). -/
theorem placeData_encodeFront_resolved {s : State} (bits : List Bool) {r c : Nat} (hr :
    r < (encodeFront s).n.toNat) (hc : c < (encodeFront s).n.toNat) :
    getCell (placeData (encodeFront s).n.toNat bits (encodeFront s).matrix).2 r c ≠ .unresolved := by
  obtain ⟨fl1, fl2, fl3⟩ := encodeFront_legal s
  have hv := chooseVersion_range s.plen.toNat
  rw [fl3] at hr hc ⊢
  generalize hvv : chooseVersion s.plen.toNat = v at *
  have hsides : side v = 21 ∨ side v = 25 ∨ side v = 29 ∨ side v = 33 ∨ side v = 37 := by unfold side; omega
  have hn : side v ∈ versionSides := by rcases hsides with h | h | h | h | h <;> rw [h] <;> decide
  by_cases hu : getCell (encodeFront s).matrix r c = .unresolved
  · have h6 : c ≠ 6 := by
      rintro rfl
      rw [encodeFront_matrix, hvv, stampStructural_getCell hv _ _ hr hc] at hu
      rcases columnSix_stamped hsides hr with h | h
      · cases hf : finderAt (side v) r 6 with
        | none => exact h hf
        | some t =>
          rw [hf] at hu
          simp only [] at hu
          unfold finderAt at hf
          split at hf <;> [skip; split at hf <;> [skip; split at hf]] <;> simp only [Option.some.injEq,
              reduceCtorEq] at hf
          all_goals exact motifAt_ne_unresolved _ _ (hf.trans hu)
      · cases hf : finderAt (side v) r 6 with
        | some t =>
          rw [hf] at hu
          simp only [] at hu
          unfold finderAt at hf
          split at hf <;> [skip; split at hf <;> [skip; split at hf]] <;> simp only [Option.some.injEq,
              reduceCtorEq] at hf
          all_goals exact motifAt_ne_unresolved _ _ (hf.trans hu)
        | none =>
          rw [hf] at hu
          have e : getCell newMatrix r 6 = .unresolved := rfl
          simp only [] at hu
          rw [if_pos e] at hu
          cases ht : timingAt (side v) r 6 with
          | none => exact h ht
          | some i => rw [ht] at hu; exact timingCell_ne_unresolved _ _ hu
    rw [placeData_getCell hn (by omega) _ _ hr hc h6 hu]; exact bitCell_ne_unresolved _
  · rw [placeData_getCell_other hn (by omega) _ _ (by omega) (fun h => hu h.2.2.2)]; exact hu

theorem CellState.invert_ne_unresolved {t : CellState} (h : t ≠ .unresolved) : t.invert ≠ .unresolved :=
    by cases t <;> simp_all [CellState.invert]

/-- The data codewords ENCODE leaves, and those its RSENC and XBITS read. -/
theorem dataCodewords_encodeBack {v : Nat} {b : List Bool} (hb : b.length ≤ 688) (s : State) :
    (encodeBack v b s).dataCodewords = bitsToBytes (b.length / 8) b ∧
    (rsencEffect (ecCount v) (b2bEffect (storeBitSequence b s))).dataCodewords = bitsToBytes (b.length / 8) b := by
  have hec := ecCount_range v
  have hl : (storeBitSequence b s).bitlen.toNat = b.length := by simp; omega
  have h2 : (rsencEffect (ecCount v) (b2bEffect (storeBitSequence b s))).dataCodewords = bitsToBytes (b.length / 8) b := by
    rw [dataCodewords_rsencEffect (by omega) (by omega), dataCodewords_b2bEffect (by omega), hl,
        bitSequence_storeBitSequence (by omega)]
  refine ⟨?_, h2⟩
  rw [← h2]
  obtain ⟨c1, c2⟩ := encodeBack_counts (v := v) hb s
  refine State.dataCodewords_congr (by simp [encodeBack]) fun i hi => ?_
  have := (rsencEffect (ecCount v) (b2bEffect (storeBitSequence b s))).dlen.isLt
  have e : (encodeBack v b s).byteAt (cwAddr i) =
      (xbitsEffect (rsencEffect (ecCount v) (b2bEffect (storeBitSequence b s)))).byteAt (cwAddr i) :=
    State.byteAt_congr (by simp [encodeBack]) (by simp [encodeBack]) _
  rw [e, byteAt_xbitsEffect_outside (.inl (by simp only [cwAddr, bitsAddr]; omega))]

/-- The parity ENCODE leaves, that its XBITS reads, and the generator. -/
theorem parityCodewords_encodeBack {v : Nat} {b : List Bool} (hb : b.length ≤ 688) {s : State} (h :
    s.gfvalid = true → TablesBuilt s.mem) :
    (encodeBack v b s).parityCodewords = rsParity gfTimes (rootPoly (ecCount v)) (bitsToBytes (b.length / 8) b) (ecCount v) ∧
    (rsencEffect (ecCount v) (b2bEffect (storeBitSequence b s))).parityCodewords = rsParity gfTimes (rootPoly (ecCount v)) (bitsToBytes (b.length / 8) b) (ecCount v) ∧
    (encodeBack v b s).bytesAt (genAddr 0) (ecCount v + 1) = rootPoly (ecCount v) := by
  have hec := ecCount_range v
  obtain ⟨c1, c2⟩ := encodeBack_counts (v := v) hb s
  have hl : (storeBitSequence b s).bitlen.toNat = b.length := by simp; omega
  have hs : (b2bEffect (storeBitSequence b s)).gfvalid = true → TablesBuilt (b2bEffect (storeBitSequence b s)).mem :=
      fun hv =>
    tablesBuilt_b2bEffect (tablesBuilt_storeBitSequence (h (by simpa using hv)))
  have h2 : (rsencEffect (ecCount v) (b2bEffect (storeBitSequence b s))).parityCodewords = rsParity gfTimes (rootPoly (ecCount v)) (bitsToBytes (b.length / 8) b) (ecCount v) := by
    rw [State.parityCodewords, c2, bytesAt_rsencEffect hs (by omega) (by omega), dataCodewords_b2bEffect (by omega),
        hl, bitSequence_storeBitSequence (by omega)]
  have e : ∀ a, a < bitsAddr 0 → (encodeBack v b s).byteAt a = (rsencEffect (ecCount v) (b2bEffect (storeBitSequence b s))).byteAt a := fun a ha => by
    have e : (encodeBack v b s).byteAt a =
        (xbitsEffect (rsencEffect (ecCount v) (b2bEffect (storeBitSequence b s)))).byteAt a :=
      State.byteAt_congr (by simp [encodeBack]) (by simp [encodeBack]) _
    rw [e, byteAt_xbitsEffect_outside (.inl ha)]
  refine ⟨?_, h2, ?_⟩
  · rw [← h2, State.parityCodewords, State.parityCodewords, c2]
    have : (encodeBack v b s).eclen.toNat = ecCount v := by rw [encodeBack_eclen]; simp; omega
    rw [this]
    exact State.bytesAt_congr fun i hi => e _ (by simp only [parAddr, bitsAddr]; omega)
  · rw [← bytesAt_gen_rsencEffect hs (by omega) (by omega)]
    exact State.bytesAt_congr fun i hi => e _ (by simp only [genAddr, bitsAddr]; omega)

/-- The bits ENCODE leaves. -/
theorem bitSequence_encodeBack {v : Nat} {b : List Bool} (hb : b.length ≤ 688) {s : State} (h :
    s.gfvalid = true → TablesBuilt s.mem) :
    (encodeBack v b s).bitSequence = expand (bitsToBytes (b.length / 8) b ++
        rsParity gfTimes (rootPoly (ecCount v)) (bitsToBytes (b.length / 8) b) (ecCount v)) := by
  obtain ⟨c1, c2⟩ := encodeBack_counts (v := v) hb s
  have hec := ecCount_range v
  rw [← (parityCodewords_encodeBack (v := v) hb h).2.1, ← (dataCodewords_encodeBack (v := v) hb s).2,
      ← bitSequence_xbitsEffect (by omega)]
  have : (encodeBack v b s).bitlen = (xbitsEffect (rsencEffect (ecCount v) (b2bEffect (storeBitSequence b s)))).bitlen := by simp [encodeBack]
  rw [State.bitSequence, State.bitSequence, this]
  refine List.map_congr_left fun i hi => ?_
  rw [State.bitAt, State.bitAt, State.byteAt_congr (s :=
      xbitsEffect (rsencEffect (ecCount v) (b2bEffect (storeBitSequence b s)))) (by simp [encodeBack]) (by simp [encodeBack])]

theorem unres_encodeBack_any {v : Nat} {b : List Bool} (s : State) :
    (encodeBack v b s).unres = anyUnresolved s.n.toNat (placeEffect (xbitsEffect (rsencEffect (ecCount v) (b2bEffect (storeBitSequence b s))))).matrix := by
      simp only [encodeBack, maskEffect_unres, placeEffect_n, xbitsEffect_n, rsencEffect_n, b2bEffect_n,
          storeBitSequence_n]

theorem unres_encodeBack {v : Nat} {b : List Bool} (hb : b.length ≤ 688) (s : State) :
    (encodeBack v b s).unres = anyUnresolved s.n.toNat (placeData s.n.toNat
      (expand ((rsencEffect (ecCount v) (b2bEffect (storeBitSequence b s))).dataCodewords ++
          (rsencEffect (ecCount v) (b2bEffect (storeBitSequence b s))).parityCodewords)) s.matrix).2 := by
  obtain ⟨c1, c2⟩ := encodeBack_counts (v := v) hb s
  have he := ecCount_range v
  rw [unres_encodeBack_any, ← bitSequence_xbitsEffect (by omega)]
  simp only [placeEffect_matrix, xbitsEffect_n, rsencEffect_n, b2bEffect_n, storeBitSequence_n, xbitsEffect_matrix,
      rsencEffect_matrix, b2bEffect_matrix, storeBitSequence_matrix]

end Sys2Proof.Machine
end

