-- ==== Sys2Proof/Tests/Slice0.lean ====
section
/-! SUPPORT. Tests: checks of well-formedness, words written out from the spec's formats, steps whose results stand in the
spec, and for every obligation with hypotheses a state and operands that meet them. -/

-- One theorem at a time: each thread of Lean's reserves address space, which check.sh limits.
set_option Elab.async false

namespace Sys2Proof.Tests

open Sys2Proof.Machine

/-! ### Helpers -/

/-- The state after one event at the port. -/
def after (e : PortEvent) (s : State) : State :=
  match step (s.offering e) with
  | .next t => t
  | .fault _ => s
  | .refused _ => s

/-- The state after the write of a word to CMD. -/
def command (w : Word) (s : State) : State := after (.write 0x0000 w) s

/-- The word a host read returns. -/
def readAt (a : Addr) (s : State) : Word := (after (.read a) s).rdata

/-- Reset, with a matrix of side n. -/
def withMatrix (n : Nat) : State := command (BitVec.ofNat 32 (0x09000000 + n)) State.reset

/-- A row of the matrix as its cells. -/
def row (s : State) (r : Nat) (cols : List Nat) : List CellState := cols.map (s.cell r)

/-- A state in which the tables are built. -/
def built : State := ensureGf State.reset

/-- A state in which a fault is latched. -/
def faulted : State := { State.reset with err := some .illegalCmd, errinfo := 0x11000000 }

/-! ### Well-formedness: for each check an ill-formed term it refuses -/

theorem test_wf_rsgen : Instr.wellFormed (.rsgen 256) = false ∧ Instr.wellFormed (.rsgen 255) = true := by decide
theorem test_wf_rsenc : Instr.wellFormed (.rsenc 256) = false ∧ Instr.wellFormed (.rsenc 0) = true := by decide
theorem test_wf_mnew : Instr.wellFormed (.mnew 256) = false ∧ Instr.wellFormed (.mnew 255) = true := by decide
theorem test_wf_fstamp_row : Instr.wellFormed (.fstamp (-129) 0) = false ∧ Instr.wellFormed (.fstamp 128 0) = false ∧
    Instr.wellFormed (.fstamp (-128) 0) = true ∧ Instr.wellFormed (.fstamp 127 0) = true := by decide
theorem test_wf_fstamp_col : Instr.wellFormed (.fstamp 0 (-129)) = false ∧ Instr.wellFormed (.fstamp 0 128) = false ∧
    Instr.wellFormed (.fstamp 0 (-128)) = true ∧ Instr.wellFormed (.fstamp 0 127) = true := by decide
theorem test_wf_draw : Instr.wellFormed (.draw 4096 0) = false ∧ Instr.wellFormed (.draw 0 4096) = false ∧
    Instr.wellFormed (.draw 4095 4095) = true := by decide

/-! ### Decoding: words written out bit by bit, fields from the left, from the formats of R90 and the opcodes of R93 -/

theorem test_decode_nop : decode 0b00000000_00000000_00000000_00000000 = .command .nop := by decide
theorem test_decode_gfinit : decode 0b00000001_00000000_00000000_00000000 = .command .gfinit := by decide
-- Format P: a in bits [15:8], b in bits [7:0].
theorem test_decode_gfmul : decode 0b00000010_00000000_10000000_00000011 = .command (.gfmul 0x80 3) := by decide
-- Format B: a in bits [7:0].
theorem test_decode_rsgen : decode 0b00000011_00000000_00000000_00011110 = .command (.rsgen 30) := by decide
theorem test_decode_rsenc : decode 0b00000100_00000000_00000000_00001010 = .command (.rsenc 10) := by decide
theorem test_decode_vsel : decode 0b00000101_00000000_00000000_00000000 = .command .vsel := by decide
theorem test_decode_pack : decode 0b00000110_00000000_00000000_00000000 = .command .pack := by decide
theorem test_decode_b2b : decode 0b00000111_00000000_00000000_00000000 = .command .b2b := by decide
theorem test_decode_xbits : decode 0b00001000_00000000_00000000_00000000 = .command .xbits := by decide
theorem test_decode_mnew : decode 0b00001001_00000000_00000000_00100101 = .command (.mnew 37) := by decide
-- R95's example: FSTAMP -2, 4; both bytes two's complement.
theorem test_decode_fstamp : decode 0b00001010_00000000_11111110_00000100 = .command (.fstamp (-2) 4) := by decide
theorem test_decode_fstamp_min : decode 0b00001010_00000000_10000000_01111111 = .command (.fstamp (-128) 127) := by decide
theorem test_decode_sstamp : decode 0b00001011_00000000_00000000_00000000 = .command .sstamp := by decide
theorem test_decode_place : decode 0b00001100_00000000_00000000_00000000 = .command .place := by decide
theorem test_decode_mask : decode 0b00001101_00000000_00000000_00000000 = .command .mask := by decide
theorem test_decode_encode : decode 0b00001110_00000000_00000000_00000000 = .command .encode := by decide
-- Format S: w in bits [23:12], h in bits [11:0]. R95's example: DRAW 100, 80.
theorem test_decode_draw : decode 0b00001111_000001100100_000001010000 = .command (.draw 100 80) := by decide
theorem test_decode_draw_max : decode 0b00001111_111111111111_111111111111 = .command (.draw 4095 4095) := by decide
theorem test_decode_clrerr : decode 0b00010000_00000000_00000000_00000000 = .command .clrerr := by decide
-- 95_test_vectors.md section 14.
theorem test_decode_illegal : decode 0x00000001 = .illegal (.reservedBitSet 0x00) ∧
    decode 0x01000100 = .illegal (.reservedBitSet 0x01) ∧ decode 0x02FFFFFF = .illegal (.reservedBitSet 0x02) ∧
    decode 0x03000100 = .illegal (.reservedBitSet 0x03) ∧ decode 0x0A010000 = .illegal (.reservedBitSet 0x0A) ∧
    decode 0x10000001 = .illegal (.reservedBitSet 0x10) := by decide
theorem test_decode_unknown : decode 0x11000000 = .illegal (.unknownOpcode 0x11) ∧
    decode 0xFFFFFFFF = .illegal (.unknownOpcode 0xFF) := by decide

/-! ### Steps: results from the examples of the rules and from 95_test_vectors.md -/

-- R122's example.
theorem test_gfinit : readAt 0x208 (command 0x01000000 State.reset) = 0x1D ∧
    readAt 0x41D (command 0x01000000 State.reset) = 8 ∧ readAt 0x1 (command 0x01000000 State.reset) = 1 := by
  decide +kernel
-- R127, row 112 of EXP.
theorem test_powers : (expTable.drop 112).take 16 =
    [0x81, 0x1F, 0x3E, 0x7C, 0xF8, 0xED, 0xC7, 0x93, 0x3B, 0x76, 0xEC, 0xC5, 0x97, 0x33, 0x66, 0xCC] := by decide +kernel
theorem test_expTable_end : expTable.drop 508 = [0x47, 0x8E, 0x01, 0x02] := by decide +kernel
-- R125's examples.
theorem test_gfmul : (command 0x02008002 State.reset).result = 0x1D := by decide +kernel
theorem test_gfmul_largest_sum : (command 0x02008E8E State.reset).result = 0x47 := by decide +kernel
-- R141's example.
theorem test_rsgen : (command 0x03000007 State.reset).bytesAt (genAddr 0) 8 =
    [0x01, 0x7F, 0x7A, 0x9A, 0xA4, 0x0B, 0x44, 0x75] := by decide +kernel
theorem test_rsgen_31 : (command 0x0300001F State.reset).err = some .illegalOperand ∧
    (command 0x0300001F State.reset).gfvalid = false := by decide +kernel
-- R143's example.
theorem test_rsenc : (command 0x0400000A { State.reset.setBytes (cwAddr 0) [1, 2, 3] with dlen := 3 }).parityCodewords =
    [0x15, 0xF5, 0xE3, 0x86, 0xFA, 0x16, 0x2F, 0xAE, 0xC8, 0x20] := by decide +kernel
theorem test_rsenc_no_data : (command 0x04000002 State.reset).parityCodewords = [0, 0] := by decide +kernel
-- R161's example and corner case.
theorem test_vsel : (command 0x05000000 { State.reset with plen := 50 }).ver = 4 ∧
    (command 0x05000000 { State.reset with plen := 50 }).result = 4 := by decide
theorem test_vsel_above : (command 0x05000000 { State.reset with plen := 85 }).ver = 5 ∧
    (command 0x05000000 { State.reset with plen := 85 }).err = none := by decide
-- R170's example, the first five bytes: 40 24 84 90 EC.
theorem test_pack : (command 0x06000000 { State.reset.setBytes (payloadAddr 0) [0x48, 0x49] with plen := 2, ver := 1 }).bitsAt 40 =
    [0x40, 0x24, 0x84, 0x90, 0xEC].flatMap bits8 := by decide +kernel
-- "VER = 0, PLEN = 200: ILLEGAL_OPERAND (not PAYLOAD_TOO_LONG)".
theorem test_pack_fault_order : (command 0x06000000 { State.reset with plen := 200 }).err = some .illegalOperand := by
  decide +kernel
-- R175's example.
theorem test_b2b : (command 0x07000000 { State.reset.setBits ([0x40, 0x24].flatMap bits8) with bitlen := 16 }).dataCodewords =
    [0x40, 0x24] := by decide +kernel
theorem test_b2b_not_multiple : (command 0x07000000 { State.reset with bitlen := 12 }).err = some .illegalOperand := by
  decide +kernel
-- R178's example.
theorem test_xbits : (command 0x08000000 { State.reset.setBytes (cwAddr 0) [0x40, 0x24] with dlen := 2 }).bitSequence =
    [false, true, false, false, false, false, false, false, false, false, true, false, false, true, false, false] := by
  decide +kernel
theorem test_xbits_too_long : (command 0x08000000 { State.reset with dlen := 129 }).err = some .illegalOperand := by
  decide +kernel
-- R191's example; section 11.5.
theorem test_mnew : (withMatrix 21).n = 21 ∧ readAt 0x1000 (withMatrix 21) = 0 := by decide +kernel
theorem test_mnew_38 : (withMatrix 38).n = 0 ∧ (withMatrix 38).errinfo = 0x09000026 := by decide +kernel
-- Section 11.1, rows 0 and 3; section 11.2, row 5.
theorem test_fstamp : row (command 0x0A00FE04 (withMatrix 9)) 3 [3, 4, 5, 6, 7, 8] =
    [.unresolved, .dark, .light, .light, .light, .light] := by decide +kernel
theorem test_fstamp_negative_col : row (command 0x0A0005FD (withMatrix 9)) 7 [0, 1, 2, 3, 4] =
    [.dark, .dark, .light, .dark, .unresolved] := by decide +kernel
-- R196's example: 192 resolved cells. R197: (6, 8) is timing and dark by default, (8, 8) reserved, (9, 9) data.
theorem test_sstamp : (command 0x0B000000 { withMatrix 21 with ver := 1 }).matrix.length = 192 := by decide +kernel
theorem test_sstamp_cells : row (command 0x0B000000 { withMatrix 21 with ver := 1 }) 6 [7, 8] = [.light, .dark] ∧
    row (command 0x0B000000 { withMatrix 21 with ver := 1 }) 8 [6, 8] = [.dark, .light] ∧
    (command 0x0B000000 { withMatrix 21 with ver := 1 }).cell 9 9 = .unresolved := by decide +kernel
-- R222 (c): bit 0 goes to (20, 20), bit 1 to (20, 19), bit 2 to (19, 20); beyond the end the bit is 0.
theorem test_place : (let t := command 0x0C000000 { (withMatrix 21).setBits [true, false, true] with bitlen := 3 }
    [t.cell 20 20, t.cell 20 19, t.cell 19 20, t.cell 19 19, t.cell 0 6]) =
    [.dark, .light, .dark, .light, .unresolved] := by decide +kernel
theorem test_place_side : (command 0x0C000000 (withMatrix 9)).err = some .illegalOperand := by decide +kernel
-- Section 11.3, rows 0 and 1.
theorem test_mask : row (command 0x0D000000 (command 0x0A000000 (withMatrix 9))) 0 [0, 1, 2, 6, 7] =
    [.light, .dark, .light, .light, .unresolved] ∧
    (command 0x0D000000 (command 0x0A000000 (withMatrix 9))).unres = true := by decide +kernel
theorem test_mask_resolved : (command 0x0D000000 (command 0x0A000000 (withMatrix 7))).unres = false := by decide +kernel
-- R241's example, the parity and the counts.
theorem test_encode : (let t := command 0x0E000000 { State.reset.setBytes (payloadAddr 0) [0x48, 0x49] with plen := 2 }
    (t.ver.toNat, t.n.toNat, t.dlen.toNat, t.bitlen.toNat, t.parityCodewords)) =
    (1, 21, 14, 168, [0xCE, 0x77, 0x6C, 0x5A, 0x8E, 0x66, 0xEA]) := by decide +kernel
-- R242, R281's example: a failing ENCODE does not build the tables.
theorem test_encode_85 : (let t := command 0x0E000000 { State.reset with plen := 85 }
    (t.ver.toNat, t.n.toNat, readAt 0x1 t, t.errinfo)) = (5, 37, 0x00000100, 0x0E000000) := by decide +kernel
-- Section 13.1, second row.
theorem test_draw_geometry : (let t := command 0x0F00A00A (withMatrix 21)
    (t.cellsz.toNat, t.offx, t.offy)) = (1, 0xFFFFFFFA, 0xFFFFFFFA) := by decide +kernel
-- R261's result on a 7 x 7 finder drawn with one pixel a cell on a surface of 9 x 8: RPAD 4 makes the quotient negative.
theorem test_draw_pixels : (let t := command 0x0F009008 (command 0x0A000000 (withMatrix 7))
    [surfPixel t.surf 0 0, surfPixel t.surf 1 0, surfPixel t.surf 2 1, surfPixel t.surf 8 7, surfPixel t.surf 9 0]) =
    [some false, some true, some false, some false, none] := by decide +kernel
-- R280, R281.
theorem test_nop : command 0x00000000 faulted = faulted ∧ command 0x00000000 State.reset = State.reset := by decide +kernel
theorem test_clrerr : command 0x10000000 faulted = State.reset := by decide +kernel

/-! ### The port: 95_test_vectors.md section 14 -/

theorem test_low_bits : readAt 0x2 (after (.write 0x2 0x1FF) State.reset) = 0xFF ∧
    readAt 0x3 (after (.write 0x3 9) State.reset) = 1 ∧ readAt 0x5 (after (.write 0x5 0xFFFF) State.reset) = 2047 ∧
    readAt 0x100 (after (.write 0x100 0x141) State.reset) = 0x41 ∧ readAt 0x805 (after (.write 0x805 3) State.reset) = 1 := by
  decide +kernel
theorem test_bad_access : (after (.write 0x1 0) State.reset).errinfo = 1 ∧ (after (.write 0x4 21) State.reset).n = 0 ∧
    (after (.write 0x1000 3) State.reset).err = some .badAccess ∧ (after (.read 0x10) State.reset).errinfo = 0x10 ∧
    (after (.read 0x1FFF) State.reset).err = none := by decide +kernel
theorem test_blocked : after (.write 0x2 7) faulted = faulted ∧ command 0x11000000 faulted = faulted ∧
    (after (.read 0x10) faulted).errinfo = 0x11000000 ∧ readAt 0x201 faulted = 2 := by decide +kernel

/-! ### The zigzag scan: 95_test_vectors.md section 8 -/

/-- The cells that take bits on a freshly stamped matrix of side 21, in order of their bits. -/
def dataCells : List (Nat × Nat) :=
  (placeOrder 21).filter (fun p => decide (getCell (stampStructural true 1 newMatrix) p.1 p.2 = .unresolved))

theorem test_scan : dataCells.length = 249 ∧ [0, 26, 52, 78, 110, 150, 190, 213, 225, 237, 248].map (fun k => dataCells[k]?) =
    [some (20, 20), some (7, 18), some (20, 16), some (0, 13), some (20, 12), some (0, 10), some (20, 7), some (7, 5),
     some (13, 3), some (7, 1), some (13, 0)] := by decide +kernel

/-! ### Witnesses: states and operands that meet the hypotheses of the obligations, each clause at the ends of its range -/

theorem test_witness_tables : TablesSound State.reset ∧ TablesSound built ∧ built.gfvalid = true :=
  ⟨fun h => absurd h (by decide), fun _ => tablesBuilt_ensureGf fun h => absurd h (by decide), ensureGf_gfvalid _⟩

theorem test_witness_DecodeOfEncodeIsTheCommand :
    ∀ i ∈ [Instr.rsgen 0, .rsenc 255, .mnew 255, .gfmul 0xFF 0, .fstamp (-128) 127, .fstamp 127 (-128), .draw 0 4095, .clrerr],
      i.wellFormed = true := by decide

theorem test_witness_EncodeOfDecodeIsTheWord : decode 0x0A00807F = .command (.fstamp (-128) 127) := by decide

theorem test_witness_OperandsAreAssembledByFormula : 0 < 256 ∧ 255 < 256 ∧ 0 < 4096 ∧ 4095 < 4096 ∧
    ((-128 : Int) ≤ -128 ∧ (-128 : Int) ≤ 127) ∧ ((-128 : Int) ≤ 127 ∧ (127 : Int) ≤ 127) := by decide

theorem test_witness_IllegalWordsLatchIllegalCmd : State.reset.err = none ∧
    (∀ w ∈ [0x11000000, 0xFFFFFFFF, 0x00000001, 0x10800000, 0x03000100, 0x09FFFF00, 0x02010000, 0x0AFF0000],
      IllegalWord w) ∧
    (∀ w ∈ [0x10000000, 0x00000000, 0x030000FF, 0x0200FFFF, 0x0FFFFFFF], ¬IllegalWord w) := by
  refine ⟨rfl, ?_, ?_⟩ <;> intro w hw <;> simp only [List.mem_cons, List.not_mem_nil, or_false] at hw
  · rcases hw with rfl | rfl | rfl | rfl | rfl | rfl | rfl | rfl <;> simp [IllegalWord]
  · rcases hw with rfl | rfl | rfl | rfl | rfl <;> simp [IllegalWord]

theorem test_witness_CommandWriteFollowsTheDispatchRule : faulted.err ≠ none ∧ State.reset.err = none ∧
    (0x11000000 : Word) ≠ 0x10000000 ∧ opcodeTable.all (fun r => 0x11000000 &&& r.mask != r.pattern) = true ∧
    opcodeTable.all (fun r => r.pattern &&& r.mask == r.pattern) = true := by decide +kernel

theorem test_witness_StepRunsTheDecodedCommand : State.reset.err = none ∧ decode 0x0E000000 = .command .encode := by decide

theorem test_witness_LatchedFaultBlocksTheBlock : faulted.err ≠ none ∧
    ¬((0x0000 : Addr) = 0x0000 ∧ (0x00000000 : Word) = 0x10000000) ∧
    ¬((0x0002 : Addr) = 0x0000 ∧ (0x10000000 : Word) = 0x10000000) ∧
    (∀ a ∈ [0x0010, 0x00FF, 0x0540, 0x05FF, 0x0700, 0x07FF, 0x0C00, 0x0FFF], Unmapped a) ∧
    (∀ a ∈ [0x0200, 0x04FF], 0x0200 ≤ a ∧ a ≤ 0x04FF ∧ ¬Unmapped a) := by
  unfold Unmapped; exact ⟨by decide, by decide, by decide, by decide, by decide⟩

theorem test_witness_BuffersReadAsTheirElements : 0 < 256 ∧ 255 < 256 ∧ 31 < 32 ∧ 1023 < 1024 := by decide

theorem test_witness_MatrixReadsAsCellCodes : (0 < 64 ∧ 63 < 64) ∧
    (36 < (withMatrix 37).n.toNat ∧ 0 < (withMatrix 37).n.toNat) ∧ ¬(37 < (withMatrix 37).n.toNat) ∧
    ¬(0 < State.reset.n.toNat) := by decide +kernel

theorem test_witness_TablesReadAsPowersAndLogarithms : TablesSound built ∧ 0 < 255 ∧ 511 < 512 ∧ 254 < 255 ∧
    inExp 0x1FF = false ∧ inLog 0x1FF = false ∧ inExp 0x500 = false ∧ inLog 0x500 = false :=
  ⟨test_witness_tables.2.1, by decide⟩

theorem test_witness_OnlyTableReadsHaveAnEffect :
    (∀ a ∈ [0x200, 0x4FF], 0x0200 ≤ a ∧ a ≤ 0x04FF) ∧
    (∀ a ∈ [0x000, 0x00F, 0x1FF, 0x500, 0xBFF, 0x1000, 0x1FFF], ¬(0x0200 ≤ a ∧ a ≤ 0x04FF) ∧ ¬Unmapped a) := by
  unfold Unmapped; decide +kernel

theorem test_witness_BadAccessesLatchBadAccess : State.reset.err = none ∧
    (∀ a ∈ [0x10, 0xFF, 0x540, 0x5FF, 0x700, 0x7FF, 0xC00, 0xFFF], Unmapped a ∧ ¬ReadOnly a) ∧
    (∀ a ∈ [0x1, 0x4, 0x8, 0xF, 0x200, 0x53F, 0x1000, 0x1FFF], ReadOnly a ∧ ¬Unmapped a) ∧
    (∀ a ∈ [0x0, 0x2, 0x3, 0x5, 0x7, 0x100, 0x1FF, 0x600, 0x6FF, 0x800, 0xBFF], ¬Unmapped a ∧ ¬ReadOnly a) := by
  unfold Unmapped ReadOnly; decide +kernel

theorem test_witness_HostWritesStoreTheLowBits : State.reset.err = none ∧ 255 < 256 ∧ 1023 < 1024 ∧
    payloadAddr 254 ≠ payloadAddr 255 ∧ cwAddr 0 ≠ payloadAddr 255 ∧ bitsAddr 0 ≠ bitsAddr 1023 := by decide

theorem test_witness_ResetLeavesTheResetValues : logAddr 1 ≠ logAddr 0 ∧ bitsAddr 1023 ≠ logAddr 0 ∧
    0x1000 ≤ (0x1000 : Addr).toNat ∧ 0x1000 ≤ (0x1FFF : Addr).toNat := by decide

theorem test_witness_EventsTakeEffectInIssueOrder : State.reset.pending = [] ∧
    (State.reset.offering .reset).pending = .reset :: [] := by decide

/-- A state with the host's word in it that satisfies the invariant, and a step from it. -/
theorem test_witness_EveryStepKeepsTheInvariant :
    State.Inv { State.reset with plen := 85 } ∧ step { State.reset with plen := 85 } = .next { State.reset with plen := 85 } := by
  refine ⟨?_, rfl⟩
  constructor
  · decide
  · intro a v h; cases h
  · intro i v _ h; cases h
  · decide
  · intro a t h; cases h
  · intro h; exact absurd h (by decide)
  · decide
  · decide
  · intro _; rfl
  · decide

theorem test_witness_ReachableStatesSatisfyTheInvariant :
    Reachable { State.reset with cfg := Config.withDefaults 0 } ∧
    Reachable { State.reset with cfg := Config.withDefaults 0, pending := [.reset, .read 0x0001] } :=
  ⟨.reset _, .issue [.reset, .read 0x0001] (.reset _)⟩

theorem test_witness_LatchedFaultIsNeverLost : faulted.err = some .illegalCmd ∧
    step (faulted.offering (.write 0x0002 7)) = .next faulted ∧
    step (faulted.offering (.write 0x0000 0x10000000)) = .next State.reset ∧
    step (faulted.offering .reset) = .next { State.reset with resetCount := 1 } := ⟨rfl, rfl, rfl, rfl⟩

theorem test_witness_BuiltTablesNeverChange : built.gfvalid = true ∧ step built = .next built ∧
    built.pending.head? ≠ some .reset ∧ inExp 0x200 = true ∧ inExp 0x3FF = true ∧ inLog 0x400 = true ∧ inLog 0x4FF = true :=
  ⟨ensureGf_gfvalid _, by rw [step_of_pending_nil]; rw [built, ensureGf_pending]; rfl,
   by rw [built, ensureGf_pending]; decide, by decide⟩

theorem test_witness_CommandsWriteOnlyTheirOwnRegisters :
    (∃ t, exec .vsel State.reset = .next t ∧ t.ver ≠ State.reset.ver ∧ t.result ≠ State.reset.result) ∧
    (∃ t, exec (.mnew 1) State.reset = .next t ∧ t.n ≠ State.reset.n) ∧
    (∃ t, exec .b2b { State.reset with bitlen := 8 } = .next t ∧ t.dlen ≠ State.reset.dlen) ∧
    (∃ t, exec .xbits { State.reset with dlen := 1 } = .next t ∧ t.bitlen ≠ State.reset.bitlen) ∧
    (∃ t, exec (.rsenc 30) State.reset = .next t ∧ t.eclen ≠ State.reset.eclen ∧ t.gdeg ≠ State.reset.gdeg) ∧
    (∃ t, exec .gfinit State.reset = .next t ∧ t.gfvalid ≠ State.reset.gfvalid) ∧
    (∃ t, exec .mask { State.reset with n := 1 } = .next t ∧ t.unres ≠ State.reset.unres) ∧
    (∃ t, exec (.fstamp 0 0) { State.reset with n := 1 } = .next t ∧ t.matrix ≠ State.reset.matrix) ∧
    (∃ t, exec (.draw 1 1) { State.reset with n := 1 } = .next t ∧ t.surfw ≠ State.reset.surfw ∧
      t.surf ≠ State.reset.surf) := by
  refine ⟨⟨_, rfl, by decide⟩, ⟨_, rfl, by decide⟩, ⟨_, rfl, by decide⟩, ⟨_, rfl, by decide⟩, ⟨_, rfl, by decide⟩,
    ⟨_, rfl, ?_⟩, ⟨_, rfl, by decide⟩, ⟨_, rfl, by decide⟩, ⟨_, rfl, by decide⟩⟩
  rw [ensureGf_gfvalid]; decide

/-- The fault latch's clause: a command that raises, and CLRERR. -/
theorem test_witness_CommandsWriteOnlyTheirOwnRegisters_latch :
    (∃ t, exec (.mnew 38) State.reset = .next t ∧ t.err ≠ State.reset.err ∧ t.errinfo = 0x09000026) ∧
    (∃ t, exec (.draw 1 1) State.reset = .next t ∧ t.err ≠ State.reset.err ∧ t.errinfo ≠ State.reset.errinfo) ∧
    (∃ t, exec .clrerr faulted = .next t ∧ t.err ≠ faulted.err ∧ t.errinfo ≠ faulted.errinfo) :=
  ⟨⟨_, rfl, by decide⟩, ⟨_, rfl, by decide⟩, ⟨_, rfl, by decide⟩⟩

/-- Reset, with values stored at ends of EXP, LOG, GEN and PAR, in CW[0] and in BITS[0..7]. -/
def filled : State := { State.reset with
  mem := [(0x3FF, 7), (0x4FF, 7), (0x500, 7), (0x520, 7), (0x600, 7), (0x800, 1), (0x801, 1), (0x802, 1), (0x803, 1),
    (0x804, 1), (0x805, 1), (0x806, 1), (0x807, 1)] }

/-- The elements' clause: an element of each buffer that a command changes. -/
theorem test_witness_CommandsWriteOnlyTheirOwnRegisters_elements :
    (∃ t, exec .gfinit filled = .next t ∧ t.byteAt 0x3FF ≠ filled.byteAt 0x3FF ∧ t.byteAt 0x4FF ≠ filled.byteAt 0x4FF) ∧
    (∃ t, exec (.rsgen 0) filled = .next t ∧ t.byteAt 0x500 ≠ filled.byteAt 0x500) ∧
    (∃ t, exec (.rsenc 1) filled = .next t ∧ t.byteAt 0x520 ≠ filled.byteAt 0x520) ∧
    (∃ t, exec .b2b { filled with bitlen := 8 } = .next t ∧ t.byteAt 0x600 ≠ filled.byteAt 0x600) ∧
    (∃ t, exec .xbits { filled with dlen := 1 } = .next t ∧ t.byteAt 0x800 ≠ filled.byteAt 0x800) := by
  have hg : filled.gfvalid = true → TablesBuilt filled.mem := fun h => absurd h (by decide)
  have hb := tablesBuilt_ensureGf hg
  refine ⟨⟨_, rfl, ?_, ?_⟩, ⟨_, exec_rsgen_legal (by decide) _, ?_⟩, ⟨_, exec_rsenc_legal (by decide) _, ?_⟩,
    ⟨_, rfl, by decide⟩, ⟨_, rfl, by decide⟩⟩
  · rw [State.byteAt_of_memRead (a := 0x3FF) (hb.1 511 (by omega))]; decide
  · have hl := hb.2 175 (by omega)
    rw [show gfPow 175 = 255 by decide +kernel] at hl
    rw [State.byteAt_of_memRead (a := 0x4FF) hl]; decide
  · rw [show 0x500 = genAddr 0 from rfl, storeGenerator_byteAt_gen hb (by omega) (by omega)]; decide
  · rw [rsencEffect, show 0x520 = parAddr 0 from rfl, storeParity_byteAt_par (by omega),
      State.rsParity_eq (tablesBuilt_storeGenerator hb) (by omega), dataCodewords_storeGenerator (by omega),
      dataCodewords_ensureGf]
    decide

theorem test_witness_ConfigurationNeverChanges : step State.reset = .next State.reset := rfl

theorem test_witness_FaultsArePrecise : State.reset.err = none ∧ (0x0300001F : Word) ≠ 0x0E000000 ∧
    (command 0x0300001F State.reset).err ≠ none ∧ (command 0x0E000000 { State.reset with plen := 85 }).err ≠ none ∧
    (command 0x11000000 State.reset).err ≠ none := by decide +kernel

theorem test_witness_IllegalOperandInExactlyItsCases : State.reset.err = none ∧
    OperandIllegal (.rsgen 31) State.reset ∧ ¬OperandIllegal (.rsgen 30) State.reset ∧
    OperandIllegal (.rsenc 0) State.reset ∧ OperandIllegal (.rsenc 31) State.reset ∧ ¬OperandIllegal (.rsenc 30) State.reset ∧
    OperandIllegal .pack State.reset ∧ OperandIllegal .pack { State.reset with ver := 6 } ∧
    ¬OperandIllegal .pack { State.reset with ver := 5 } ∧
    OperandIllegal .b2b { State.reset with bitlen := 1032 } ∧ OperandIllegal .b2b { State.reset with bitlen := 1 } ∧
    ¬OperandIllegal .b2b { State.reset with bitlen := 1024 } ∧
    OperandIllegal .xbits { State.reset with eclen := 31 } ∧
    OperandIllegal .xbits { State.reset with dlen := 128, eclen := 1 } ∧
    ¬OperandIllegal .xbits { State.reset with dlen := 98, eclen := 30 } ∧
    OperandIllegal (.mnew 0) State.reset ∧ OperandIllegal (.mnew 38) State.reset ∧ ¬OperandIllegal (.mnew 37) State.reset ∧
    OperandIllegal .sstamp { State.reset with ver := 1, n := 25 } ∧ ¬OperandIllegal .sstamp { State.reset with ver := 1, n := 21 } ∧
    OperandIllegal .place { State.reset with n := 22 } ∧ OperandIllegal .place { State.reset with n := 21, bitlen := 1025 } ∧
    ¬OperandIllegal .place { State.reset with n := 37, bitlen := 1024 } ∧
    OperandIllegal (.draw 0 0) State.reset ∧ ¬OperandIllegal (.draw 4095 4095) { State.reset with n := 1 } := by
  unfold OperandIllegal; decide +kernel

theorem test_witness_PayloadTooLongInExactlyItsCases : State.reset.err = none ∧
    (15 : Byte).toNat > cap 1 ∧ ¬((14 : Byte).toNat > cap 1) ∧ (85 : Byte).toNat > cap 5 ∧ ¬((84 : Byte).toNat > cap 5) ∧
    (command 0x06000000 { State.reset with ver := 1, plen := 15 }).err = some .payloadTooLong ∧
    (command 0x0E000000 { State.reset with plen := 85 }).err = some .payloadTooLong := by decide +kernel

/-- GFINIT, GFMUL and the laws: sound tables, not yet built and built; powers at the ends; an address outside the tables. -/
theorem test_witness_Gf : TablesSound State.reset ∧ State.reset.gfvalid = false ∧ TablesSound built ∧ built.gfvalid = true ∧
    gfPow 0 = 1 ∧ gfPow 7 = 0x80 ∧ inExp (genAddr 0) = false ∧ inLog (genAddr 0) = false :=
  ⟨test_witness_tables.1, rfl, test_witness_tables.2.1, ensureGf_gfvalid _, by decide, by decide, by decide, by decide⟩

/-- RSGEN and RSENC: the ends of their domains, inside and outside, with sound tables. -/
theorem test_witness_ReedSolomon : TablesSound State.reset ∧ TablesSound built ∧
    (0 ≤ 30 ∧ 30 ≤ 30) ∧ (30 < 31 ∧ 30 < 255 ∧ 255 < 256) ∧ (1 ≤ 1 ∧ 1 ≤ 30) ∧ State.reset.dlen = 0 ∧
    ¬(genAddr 0 ≤ genAddr 31 ∧ genAddr 31 ≤ genAddr 30) ∧ ¬(parAddr 0 ≤ parAddr 30 ∧ parAddr 30 < parAddr 30) :=
  ⟨test_witness_tables.1, test_witness_tables.2.1, by decide⟩

theorem test_witness_PackStoresThePackedStream :
    State.reset.ver.toNat = 0 ∧ ({ State.reset with ver := 6 }).ver.toNat > 5 ∧
    (let s := { State.reset with ver := 1, plen := 15 }; 1 ≤ s.ver.toNat ∧ s.ver.toNat ≤ 5 ∧ s.plen.toNat > cap s.ver.toNat) ∧
    (let s := { State.reset with ver := 5, plen := 84 }; 1 ≤ s.ver.toNat ∧ s.ver.toNat ≤ 5 ∧ s.plen.toNat ≤ cap s.ver.toNat) := by
  decide

theorem test_witness_PackedStreamHasItsThreeLengths : 12 + 2 ≤ cap 1 ∧ 13 + 1 = cap 1 ∧ 14 = cap 1 ∧
    82 + 2 ≤ cap 5 ∧ 83 + 1 = cap 5 ∧ 84 = cap 5 := by decide

theorem test_witness_BitsAndBytes :
    ({ State.reset with bitlen := 1032 }).bitlen.toNat > 1024 ∧ ({ State.reset with bitlen := 1017 }).bitlen.toNat % 8 ≠ 0 ∧
    (let s := { State.reset with bitlen := 1024 }; s.bitlen.toNat ≤ 1024 ∧ s.bitlen.toNat % 8 = 0 ∧ 127 < s.bitlen.toNat / 8) ∧
    (let s := { State.reset with eclen := 31 }; s.eclen.toNat > 30) ∧
    (let s := { State.reset with dlen := 129 }; s.dlen.toNat + s.eclen.toNat > 128) ∧
    (let s := { State.reset with dlen := 98, eclen := 30 }
     s.eclen.toNat ≤ 30 ∧ s.dlen.toNat + s.eclen.toNat ≤ 128 ∧ 97 < s.dlen.toNat ∧ ¬(98 < s.dlen.toNat)) ∧
    (let s := { State.reset with dlen := 128 }; s.eclen = 0 ∧ s.dlen.toNat ≤ 128) := by decide

theorem test_witness_MnewMakesAnUnresolvedMatrix : 0 < 256 ∧ 255 < 256 ∧ 37 < 38 ∧ (1 ≤ 1 ∧ 1 ≤ 37 ∧ 37 ≤ 37) := by decide

/-- FSTAMP -2, 4 on a matrix of side 9: motif row 2 is matrix row 0, motif column 4 is matrix column 8; cells beside it. -/
theorem test_witness_FstampStampsTheClippedMotif :
    (let row : Int := -2; let col : Int := 4; let n : Int := 9
     (0 ≤ row + 2 ∧ row + 2 < n ∧ 0 ≤ col + 4 ∧ col + 4 < n) ∧ (row + 6 < n ∧ 0 ≤ row + 6) ∧
     ¬(row ≤ 5 ∧ (5 : Int) ≤ row + 6) ∧ ¬(col ≤ 3 ∧ (3 : Int) ≤ col + 6)) ∧
    (-128 : Int) ≤ 127 ∧ (withMatrix 9).n = 9 := by decide

theorem test_witness_SstampStampsTheFunctionalCells :
    (let s := { State.reset with ver := 1, n := 25 }; s.n.toNat ≠ 17 + 4 * s.ver.toNat) ∧
    (let s := { State.reset with ver := 5, n := 37 }; 1 ≤ s.ver.toNat ∧ s.ver.toNat ≤ 5 ∧ s.n.toNat = 17 + 4 * s.ver.toNat) ∧
    finderAt 37 36 6 = some .dark ∧ finderAt 37 6 29 = none ∧ finderAt 37 8 8 = none ∧
    timingAt 37 6 7 = some 7 ∧ timingAt 37 29 6 = some 29 ∧ timingAt 37 8 8 = none ∧
    reservedAt 37 8 8 = true ∧ reservedAt 37 36 8 = true ∧ reservedAt 37 9 9 = false ∧
    (let s := { State.reset with ver := 5, n := 37, matrix := setCell 9 9 .dark newMatrix }
     s.cell 9 9 ≠ .unresolved ∧ s.cell 8 8 = .unresolved) := by decide +kernel

theorem test_witness_PlaceFillsTheCellsInScanOrder :
    (let s := { State.reset with n := 22 }; s.n.toNat ∉ [21, 25, 29, 33, 37]) ∧
    (let s := { State.reset with n := 21, bitlen := 1025 }; s.bitlen.toNat > 1024) ∧
    (let s := { State.reset with n := 37, bitlen := 1024 }
     s.n.toNat ∈ [21, 25, 29, 33, 37] ∧ s.bitlen.toNat ≤ 1024 ∧ 36 < s.n.toNat ∧ s.cell 36 36 = .unresolved ∧
     s.cell 0 0 = .unresolved) ∧
    (let s := { State.reset with n := 21, matrix := setCell 0 0 .dark newMatrix }; s.cell 0 0 ≠ .unresolved) := by
  decide +kernel

theorem test_witness_Mask :
    (let s := { State.reset with n := 2, matrix := setCell 0 0 .dark (setCell 1 1 .light newMatrix) }
     (s.cell 0 0 = .dark ∧ 0 < s.n.toNat ∧ (0 + 0) % 2 = 0) ∧ (s.cell 1 1 = .light ∧ 1 < s.n.toNat ∧ (1 + 1) % 2 = 0) ∧
     (s.cell 0 1 = .unresolved ∧ (0 + 1) % 2 ≠ 0)) ∧
    (let s := { State.reset with n := 1 }; s.cell 0 0 = .unresolved ∧ 0 < s.n.toNat ∧ (0 + 0) % 2 = 0) := by decide +kernel

theorem test_witness_EncodeIsTheCommandSequence :
    (let s := { State.reset with plen := 84 }; s.plen.toNat ≤ cap 5 ∧ ∀ u ∈ [1, 2, 3, 4], cap u < s.plen.toNat) ∧
    State.reset.plen.toNat ≤ cap 1 := by decide

theorem test_witness_Encode :
    (let s := { State.reset with plen := 85 }; s.plen.toNat > 84) ∧
    (let s := { State.reset with plen := 84 }; s.err = none ∧ s.plen.toNat ≤ 84 ∧ s.plen.toNat = cap 5) ∧
    (let s := { State.reset with plen := 83 }; s.plen.toNat + 1 = cap 5) ∧
    (let s := { State.reset with plen := 0 }; s.plen.toNat + 2 ≤ cap 1) := by decide

theorem test_witness_EncodeWritesOnlyItsOwnState : TablesSound { State.reset with plen := 84 } ∧
    ({ State.reset with plen := 84 }).plen.toNat ≤ 84 ∧ inExp (payloadAddr 0) = false ∧ inLog (payloadAddr 0) = false :=
  ⟨fun h => absurd h (by decide), by decide⟩

/-- Two states that agree on the payload and differ in what an earlier command left. -/
theorem test_witness_EncodeDependsOnlyOnThePayload :
    (let s := State.reset.setBytes (payloadAddr 0) [0x48]; let s' := { s with dlen := 9, n := 5, result := 3 }
     TablesSound { s with plen := 1 } ∧ TablesSound { s' with plen := 1 } ∧ s'.cfg = s.cfg ∧
     s'.byteAt (payloadAddr 0) = s.byteAt (payloadAddr 0) ∧ s.err = none ∧ s'.err = none ∧ s'.dlen ≠ s.dlen) :=
  ⟨fun h => absurd h (by decide), fun h => absurd h (by decide), rfl, rfl, rfl, rfl, by decide⟩

theorem test_witness_Draw : State.reset.n = 0 ∧ (withMatrix 1).n ≠ 0 ∧ risingKeys (withMatrix 1).surf = true ∧ 0 < 4096 ∧
    4095 < 4096 := by decide +kernel

theorem test_witness_ClrerrClearsTheFault : State.reset.err = none ∧ State.reset.errinfo = 0 := by decide

end Sys2Proof.Tests
end

section
/-! PROOFS, family 00 (scope): the field multiplication of GFMUL (O32) and the parameters of the versions (O37). -/

namespace Sys2Proof.Machine

/-- GFMUL builds the tables if they are missing and multiplies by the tables then held (R125). -/
theorem exec_gfmul (a b : Byte) (s : State) :
    exec (.gfmul a b) s = .next { ensureGf s with result := (ensureGf s).gfmul a b } := rfl

/-- Settles O32: after `ensure_gf()` the tables are built, and on built tables the multiplier is the product of polynomials. -/
theorem gfmulIsPolynomialMultiplication : Obligations.GfmulIsPolynomialMultiplication := by
  intro s a b hsound
  have hbuilt : TablesBuilt (ensureGf s).mem := tablesBuilt_ensureGf hsound
  rw [exec_gfmul, State.gfmul_eq_gfTimes hbuilt]

/-- The clamp of R8, written out. -/
theorem ecCount_eq_max_min (v : Nat) : ecCount v = max 7 (min (cap v / 3) 30) := rfl

/-- Settles O37: the values of R7 and R8, and the clamp formula for every version number. -/
theorem versionParametersAreThoseOfTheSpec : Obligations.VersionParametersAreThoseOfTheSpec := by
  refine ⟨?sides, ?capacities, ?parityCounts, ecCount_eq_max_min⟩
  case sides => simp [side]
  case capacities => simp [cap]
  case parityCounts => simp [ecCount_values]

end Sys2Proof.Machine
end

section
/-! PROOFS, family 10 (state), the invariant: every command and every event at the port keeps each of its parts, so every step
keeps it (O20) and every reachable state has it (O21). -/

namespace Sys2Proof.Machine

/-! ### The invariant by its parts -/

/-- The parts `matrixWf`, `cellRange` and `nRange` of the invariant: what MNEW, the stamps, PLACE and MASK can break. -/
structure MatrixOk (n : Nat) (m : Matrix) : Prop where
  wf : m.wf = true
  within : CellsWithin n m
  side : n ≤ 37

/-- The invariant is one part for each group of commands that can touch it. -/
theorem State.inv_iff {s : State} :
    s.Inv ↔ MemoryOk s.mem ∧ TablesSound s ∧ MatrixOk s.n.toNat s.matrix ∧ s.gdeg.toNat ≤ 30 ∧
      (s.err = none → s.errinfo = 0) ∧ risingKeys s.surf = true :=
  ⟨fun h => ⟨⟨h.memWf, h.memMapped, h.bitRange⟩, h.tables, ⟨h.matrixWf, h.cellRange, h.nRange⟩, h.gdegRange,
      h.errinfoClear, h.surfRising⟩,
    fun ⟨mem, tables, matrix, gdeg, errinfo, surf⟩ => ⟨mem.wf, mem.mapped, mem.bits, matrix.wf, matrix.within, tables,
      matrix.side, gdeg, errinfo, surf⟩⟩

theorem matrixOk_newMatrix {n : Nat} (h : n ≤ 37) : MatrixOk n newMatrix := ⟨rfl, cellsWithin_newMatrix n, h⟩

theorem matrixOk_stampFinder {n : Nat} (row col : Int) {m : Matrix} (h : MatrixOk n m) :
    MatrixOk n (stampFinder n row col m) :=
  ⟨stampFinder_wf n row col h.wf, stampFinder_within n row col h.within, h.side⟩

theorem matrixOk_stampStructural (e : Bool) {v : Nat} (hv : 1 ≤ v ∧ v ≤ 5) {m : Matrix} (h : MatrixOk (side v) m) :
    MatrixOk (side v) (stampStructural e v m) :=
  ⟨stampStructural_wf e v h.wf, stampStructural_within e hv h.within, h.side⟩

theorem matrixOk_placeData {n : Nat} (hn : n ∈ versionSides) (bits : List Bool) {m : Matrix} (h : MatrixOk n m) :
    MatrixOk n (placeData n bits m).2 :=
  ⟨placeData_wf n bits h.wf,
    placeData_within bits (fun _ hp => ⟨((mem_placeOrder hn).mp hp).1, ((mem_placeOrder hn).mp hp).2.1⟩) h.within, h.side⟩

theorem matrixOk_applyMask {n : Nat} {m : Matrix} (h : MatrixOk n m) : MatrixOk n (applyMask n m) :=
  ⟨applyMask_wf n h.wf, applyMask_within n h.within, h.side⟩

theorem side_mem_versionSides {v : Nat} (hv : 1 ≤ v ∧ v ≤ 5) : side v ∈ versionSides := by
  obtain rfl | rfl | rfl | rfl | rfl : v = 1 ∨ v = 2 ∨ v = 3 ∨ v = 4 ∨ v = 5 := by omega
  all_goals decide

/-- ENCODE's fresh matrix, stamped, is one of its version's side whatever the matrix was before (R241). -/
theorem matrixOk_encodeFront (s : State) : MatrixOk (encodeFront s).n.toNat (encodeFront s).matrix := by
  have hv := chooseVersion_range s.plen.toNat
  rw [(encodeFront_legal s).2.2, encodeFront_matrix]
  exact matrixOk_stampStructural _ hv (matrixOk_newMatrix (side_range hv).2)

theorem matrixOk_encodeBack {v : Nat} {b : List Bool} (hb : b.length ≤ 688) {s : State} (hn : s.n.toNat ∈ versionSides)
    (h : MatrixOk s.n.toNat s.matrix) : MatrixOk (encodeBack v b s).n.toNat (encodeBack v b s).matrix := by
  rw [encodeBack_n, matrix_encodeBack hb]
  exact matrixOk_applyMask (matrixOk_placeData hn _ h)

/-! ### Every command keeps each part -/

section
variable {i : Instr} {s t : State} (ht : exec i s = .next t)
include ht

theorem exec_keeps_memoryOk (h : MemoryOk s.mem) : MemoryOk t.mem := by
  apply exec_next_induction ht
  case gfinit => exact memoryOk_ensureGf h
  case gfmul => intro _ _; exact memoryOk_ensureGf h
  case rsgen => intro d hd; exact memoryOk_storeGenerator hd (memoryOk_ensureGf h)
  case rsenc => intro ec h1 h30; exact memoryOk_rsencEffect ⟨h1, h30⟩ h
  case pack =>
    intro b _ _ hb
    have := (length_of_packBits_le hb).1
    exact memoryOk_storeBitSequence (by omega) h
  case b2b => intro hb _; exact memoryOk_b2bEffect hb h
  case xbits => intro _ hl; exact memoryOk_xbitsEffect hl h
  case encodeFits =>
    intro b _ hb
    exact memoryOk_encodeBack (length_of_packBits_le hb).1 (by rwa [encodeFront_mem])
  all_goals intros; simpa using h

theorem exec_keeps_tablesSound (h : TablesSound s) : TablesSound t := by
  apply exec_next_induction ht
  case gfinit => exact fun _ => tablesBuilt_ensureGf h
  case gfmul => exact fun _ _ _ => tablesBuilt_ensureGf h
  case rsgen => exact fun _ _ _ => tablesBuilt_storeGenerator (tablesBuilt_ensureGf h)
  case rsenc => exact fun _ _ _ _ => tablesBuilt_rsencEffect h
  case pack => exact fun _ _ _ _ hv => tablesBuilt_storeBitSequence (h hv)
  case b2b => exact fun _ _ hv => tablesBuilt_b2bEffect (h hv)
  case xbits => exact fun _ _ hv => tablesBuilt_xbitsEffect (h hv)
  case encodeFits =>
    exact fun _ _ _ _ => tablesBuilt_encodeBack (fun hv => encodeFront_mem s ▸ h (encodeFront_gfvalid s ▸ hv))
  all_goals intros; simpa [TablesSound] using h

theorem exec_keeps_matrixOk (h : MatrixOk s.n.toNat s.matrix) : MatrixOk t.n.toNat t.matrix := by
  apply exec_next_induction ht
  case mnew =>
    intro n _ hn
    exact matrixOk_newMatrix (by rw [mnewEffect_n, BitVec.toNat_ofNat]; omega)
  case fstamp => intro row col; exact matrixOk_stampFinder row col h
  case sstamp =>
    intro h1 h5 hn
    rw [sstampEffect_n, sstampEffect_matrix, hn]
    exact matrixOk_stampStructural _ ⟨h1, h5⟩ (hn ▸ h)
  case place => intro hn _; exact matrixOk_placeData hn _ h
  case mask => exact matrixOk_applyMask h
  case encodeLong => intro _; exact matrixOk_newMatrix (matrixOk_encodeFront s).side
  case encodeFits =>
    intro b _ hb
    refine matrixOk_encodeBack (length_of_packBits_le hb).1 ?_ (matrixOk_encodeFront s)
    rw [(encodeFront_legal s).2.2]
    exact side_mem_versionSides (chooseVersion_range _)
  all_goals intros; simpa using h

theorem exec_keeps_gdeg_range (h : s.gdeg.toNat ≤ 30) : t.gdeg.toNat ≤ 30 := by
  apply exec_next_induction ht
  case rsgen => intro d hd; rw [storeGenerator_gdeg, BitVec.toNat_ofNat]; omega
  case rsenc => intro ec _ h30; rw [rsencEffect_gdeg, BitVec.toNat_ofNat]; omega
  case encodeFits =>
    intro b _ _
    have := ecCount_range (chooseVersion s.plen.toNat)
    rw [encodeBack_gdeg, BitVec.toNat_ofNat]; omega
  all_goals intros; simpa using h

/-- A command that answers a fault latches it with its information; CLRERR clears both (R304, R281). -/
theorem exec_keeps_errinfo_clear (h : s.err = none → s.errinfo = 0) : t.err = none → t.errinfo = 0 := by
  apply exec_next_induction ht
  case fault => intro f _ _ hnone; exact absurd hnone (Option.some_ne_none f)
  case encodeLong => intro _ hnone; exact absurd hnone (Option.some_ne_none _)
  case clrerr => exact fun _ => rfl
  all_goals intros; simp_all

theorem exec_keeps_surf_rising (h : risingKeys s.surf = true) : risingKeys t.surf = true := by
  apply exec_next_induction ht
  case draw => intro w k _; exact risingKeys_paintCells _ _ _ _ _ _ _ (risingKeys_clearSurface w k h)
  all_goals intros; simpa using h

theorem exec_keeps_inv (h : s.Inv) : t.Inv := by
  obtain ⟨mem, tables, matrix, gdeg, errinfo, surf⟩ := State.inv_iff.mp h
  exact State.inv_iff.mpr ⟨exec_keeps_memoryOk ht mem, exec_keeps_tablesSound ht tables, exec_keeps_matrixOk ht matrix,
    exec_keeps_gdeg_range ht gdeg, exec_keeps_errinfo_clear ht errinfo, exec_keeps_surf_rising ht surf⟩

end

/-! ### Every event at the port keeps the invariant -/

/-- Reset values with an ordered surface, whatever configuration, pending events and reset count stand beside them. -/
theorem inv_resetValues (cfg : Config) {surf : Surface} (h : risingKeys surf = true) (pending : List PortEvent) (k : Nat) :
    State.Inv { State.reset with cfg := cfg, surf := surf, pending := pending, resetCount := k } :=
  State.inv_iff.mpr ⟨⟨rfl, by simp [State.reset], by simp [State.reset]⟩, by simp [TablesSound, State.reset],
    matrixOk_newMatrix (Nat.zero_le 37), Nat.zero_le 30, fun _ => rfl, h⟩

theorem raise_keeps_inv (f : Fault) (info : Word) {s : State} (h : s.Inv) : (raise f info s).Inv :=
  { h with errinfoClear := fun hnone => absurd hnone (Option.some_ne_none f) }

theorem ensureGf_keeps_inv {s : State} (h : s.Inv) : (ensureGf s).Inv := exec_keeps_inv (i := .gfinit) rfl h

/-- A host's store to one element (R62, R64 (e)): the element is no table's, and one of BITS is stored as a bit. -/
theorem setByte_keeps_inv {a : Nat} {v : Byte} {s : State} (h : s.Inv)
    (ha : inPayload a = true ∨ inCw a = true ∨ inBits a = true ∧ (v = 0 ∨ v = 1)) : (s.setByte a v).Inv := by
  obtain ⟨mem, tables, rest⟩ := State.inv_iff.mp h
  simp only [inPayload, inCw, inBits, decide_eq_true_eq] at ha
  have mapped : inBuffers a = true ∧ a ≠ logAddr 0 := by
    simp only [inBuffers, inPayload, inCw, inBits, logAddr, Bool.or_eq_true, decide_eq_true_eq]; omega
  have bit : inBits a = false ∨ v = 0 ∨ v = 1 := by
    rcases ha with ha | ha | ⟨_, hv⟩
    · exact .inl (decide_eq_false (by omega))
    · exact .inl (decide_eq_false (by omega))
    · exact .inr hv
  refine State.inv_iff.mpr ⟨memoryOk_memWrite mem mapped bit, fun hv => ?_, rest⟩
  exact tablesBuilt_writes (vs := [v]) (tables hv) (by rw [List.length_singleton]; omega)

theorem portEvent_keeps_inv {e : PortEvent} {s t : State} (ht : portEvent e s = .next t) (h : s.Inv) : t.Inv := by
  apply portEvent_induction ht
  case same => exact h
  case table => intro w; exact { ensureGf_keeps_inv h with }
  case badRead => intro a _; exact raise_keeps_inv _ _ { h with }
  case badWrite => intro a _; exact raise_keeps_inv _ _ h
  case element => intro a v ha; exact setByte_keeps_inv h (ha.imp_right .inl)
  case bit => intro a b ha; exact setByte_keeps_inv h (.inr (.inr ⟨ha, bitByte_range b⟩))
  case illegal => intro w _; exact raise_keeps_inv _ _ h
  case clrerr => intro _; exact { h with errinfoClear := fun _ => rfl }
  case command => intro i u _ hu; exact exec_keeps_inv hu h
  case reset => exact inv_resetValues s.cfg h.surfRising s.pending (s.resetCount + 1)
  case data | plen | ver | bitlen | dlen | eclen => intro _; exact { h with }

/-- Settles O20: an idle step changes nothing, and an event at the port keeps each part of the invariant. -/
theorem everyStepKeepsTheInvariant : Obligations.EveryStepKeepsTheInvariant := by
  intro s t h ht
  apply step_induction ht
  case idle => exact fun _ => h
  case event => exact fun e rest _ hu => portEvent_keeps_inv hu { h with }

/-- Settles O21, by induction on how the state is reached: reset, more events issued, a step (O20). -/
theorem reachableStatesSatisfyTheInvariant : Obligations.ReachableStatesSatisfyTheInvariant := by
  intro s hs
  induction hs with
  | reset cfg => exact inv_resetValues cfg rfl [] 0
  | issue es _ h => exact { h with }
  | step _ ht h => exact everyStepKeepsTheInvariant _ _ h ht

end Sys2Proof.Machine
end

section
/-! PROOFS, family 10 (state), the host port: what a read of a register (O9) and of a matrix word (O11) returns, what a write to
a register or an element stores (O15). -/

namespace Sys2Proof.Machine

/-! ### Reads -/

theorem readGives_plain {s : State} {a : Addr} {w : Word} (h : s.readWord a.toNat = some w)
    (ht : ¬(0x200 ≤ a.toNat ∧ a.toNat ≤ 0x4FF)) : ReadGives s a w := by
  rw [ReadGives, step_offering, portEvent_read, hostRead_plain h ht]

theorem readGives_register (s : State) {a : Addr} (h : a.toNat < 0x10) : ReadGives s a (s.regWord a.toNat) :=
  readGives_plain (readWord_register h) (by omega)

theorem readGives_cell (s : State) {a : Addr} (h : 0x1000 ≤ a.toNat) : ReadGives s a (s.cellWord a.toNat) :=
  readGives_plain (readWord_cell (decide_eq_true ⟨h, a.isLt⟩)) (by omega)

/-- R23's layout as a number: each field at the weight of its lowest bit. -/
theorem statusWord_eq (s : State) :
    s.statusWord = BitVec.ofNat 32 (256 * faultNumber s.err + 2 * s.unres.toNat + s.gfvalid.toNat) := by
  rw [State.statusWord, State.errCode]
  cases s.unres <;> cases s.gfvalid <;> rcases s.err with _ | (_ | _ | _ | _) <;> rfl

/-- Settles O9: the word at each register's address is its field, zero-extended. -/
theorem registersReadAsTheirFields : Obligations.RegistersReadAsTheirFields := by
  intro s
  have read : ∀ (a : Addr) (w : Word), a.toNat < 0x10 → s.regWord a.toNat = w → ReadGives s a w :=
    fun a w ha hw => hw ▸ readGives_register s ha
  refine ⟨read _ _ (by decide) rfl, read _ _ (by decide) (statusWord_eq s), ?_, ?_, ?_, ?_, ?_, ?_, ?_, ?_, ?_, ?_, ?_,
    read _ _ (by decide) rfl, read _ _ (by decide) rfl, read _ _ (by decide) rfl⟩
  all_goals exact read _ _ (by decide) (BitVec.ofNat_toNat _ _).symm

theorem cellWord_cellAddr (s : State) (r : Nat) {c : Nat} (hc : c < 64) :
    s.cellWord (cellAddr r c) = if r < s.n.toNat ∧ c < s.n.toNat then (s.cell r c).code.setWidth 32 else 0 := by
  have hrow : (cellAddr r c - 0x1000) / 64 = r := by simp only [cellAddr]; omega
  have hcol : (cellAddr r c - 0x1000) % 64 = c := by simp only [cellAddr]; omega
  simp only [State.cellWord, hrow, hcol]

/-- R37's codes: 0, 2 and 3 tell the three states apart, bit 1 is "resolved" and bit 0 is "dark". -/
theorem CellState.code_spec (t : CellState) :
    (t.code.toNat = 0 ∨ t.code.toNat = 2 ∨ t.code.toNat = 3) ∧
    (t = .unresolved ↔ t.code.toNat = 0) ∧ (t = .light ↔ t.code.toNat = 2) ∧ (t = .dark ↔ t.code.toNat = 3) ∧
    (t.code.toNat.testBit 1 = true ↔ t ≠ .unresolved) ∧ (t.code.toNat.testBit 0 = true ↔ t = .dark) := by
  cases t <;> decide

/-- Settles O11: the code of a cell of the matrix, and 0 where there is none. -/
theorem matrixReadsAsCellCodes : Obligations.MatrixReadsAsCellCodes := by
  intro s r c hr hc
  have haddr : (BitVec.ofNat 13 (cellAddr r c)).toNat = cellAddr r c :=
    toNat_ofNat_addr (by simp only [cellAddr]; omega)
  have hread : ReadGives s (BitVec.ofNat 13 (cellAddr r c)) (s.cellWord (cellAddr r c)) := by
    have := readGives_cell s (a := BitVec.ofNat 13 (cellAddr r c)) (by rw [haddr, cellAddr]; omega)
    rwa [haddr] at this
  rw [cellWord_cellAddr s r hc] at hread
  by_cases hin : r < s.n.toNat ∧ c < s.n.toNat
  · obtain ⟨values, states⟩ := (s.cell r c).code_spec
    rw [if_pos hin, ← BitVec.ofNat_toNat] at hread
    exact ⟨_, hread, values, fun _ => states, fun h => absurd hin h⟩
  · rw [if_neg hin] at hread
    exact ⟨0, hread, .inl rfl, fun h => absurd h hin, fun _ => rfl⟩

/-! ### Writes -/

theorem step_write {a : Addr} (ha : a ≠ 0x0000) {s : State} (h : s.err = none) (v : Word) :
    step (s.offering (.write a v)) = .next (hostStore a v s) := by
  rw [step_offering, portEvent_write, hostWrite_other ha h]

/-- A byte of PAYLOAD or CW takes the low byte of the word (R62, R64 (e)). -/
theorem hostStore_byte {a : Addr} (ha : inPayload a.toNat = true ∨ inCw a.toNat = true) (v : Word) (s : State) :
    hostStore a v s = s.setByte a.toNat (v.setWidth 8) := by
  have range := ha
  simp only [inPayload, inCw, decide_eq_true_eq] at range
  rcases hostStore_cases a v s with ⟨h, _⟩ | ⟨h, _⟩ | ⟨h, _⟩ | ⟨h, _⟩ | ⟨h, _⟩ | ⟨_, h⟩ | ⟨h, _⟩ | ⟨_, hp, hc, _⟩
  iterate 5 · omega
  · exact h
  · simp only [inBits, decide_eq_true_eq] at h; omega
  · simp [hp, hc] at ha

/-- A bit of BITS takes bit 0 of the word (R62). -/
theorem hostStore_bit {a : Addr} (ha : inBits a.toNat = true) (v : Word) (s : State) :
    hostStore a v s = s.setByte a.toNat (bitByte (v.getLsbD 0)) := by
  have range := ha
  simp only [inBits, decide_eq_true_eq] at range
  rcases hostStore_cases a v s with ⟨h, _⟩ | ⟨h, _⟩ | ⟨h, _⟩ | ⟨h, _⟩ | ⟨h, _⟩ | ⟨h, _⟩ | ⟨_, h⟩ | ⟨_, _, _, hb, _⟩
  iterate 5 · omega
  · simp only [inPayload, inCw, decide_eq_true_eq] at h; omega
  · exact h
  · simp [hb] at ha

theorem bitByte_getLsbD_zero_eq (v : Word) : bitByte (v.getLsbD 0) = BitVec.ofNat 8 (v.toNat % 2) := by
  rw [BitVec.getLsbD, Nat.testBit_zero, bitByte]
  rcases Nat.mod_two_eq_zero_or_one v.toNat with h | h <;> simp [h]

/-- The write of the word v to the port's address k stores x in the element there, and changes nothing else. -/
def WriteStoresOnly (s : State) (k : Nat) (v : Word) (x : Byte) : Prop :=
  ∃ t, step (s.offering (.write (BitVec.ofNat 13 k) v)) = .next t ∧ t = { s with mem := t.mem } ∧ t.byteAt k = x ∧
    ∀ a, a ≠ k → t.byteAt a = s.byteAt a

theorem writeStoresOnly_of_hostStore {s : State} (h : s.err = none) {k : Nat} (hk : 0 < k ∧ k < 8192) {v : Word} {x : Byte}
    (hs : hostStore (BitVec.ofNat 13 k) v s = s.setByte k x) : WriteStoresOnly s k v x := by
  have ha : BitVec.ofNat 13 k ≠ 0x0000 := by
    intro hcmd
    have hzero : (BitVec.ofNat 13 k).toNat = 0 := by rw [hcmd]; rfl
    rw [toNat_ofNat_addr hk.2] at hzero
    omega
  exact ⟨s.setByte k x, by rw [step_write ha h, hs], rfl, State.byteAt_setByte_same k x s,
    fun a hne => State.byteAt_setByte_other (Ne.symm hne) x s⟩

theorem writeStoresOnly_byte {s : State} (h : s.err = none) (v : Word) {k : Nat}
    (hk : inPayload k = true ∨ inCw k = true) : WriteStoresOnly s k v (v.setWidth 8) := by
  have range := hk
  simp only [inPayload, inCw, decide_eq_true_eq] at range
  have addr : (BitVec.ofNat 13 k).toNat = k := toNat_ofNat_addr (by omega)
  exact writeStoresOnly_of_hostStore h (by omega) (by rw [hostStore_byte (by rwa [addr]), addr])

theorem writeStoresOnly_bit {s : State} (h : s.err = none) (v : Word) {k : Nat} (hk : inBits k = true) :
    WriteStoresOnly s k v (BitVec.ofNat 8 (v.toNat % 2)) := by
  have range := hk
  simp only [inBits, decide_eq_true_eq] at range
  have addr : (BitVec.ofNat 13 k).toNat = k := toNat_ofNat_addr (by omega)
  exact writeStoresOnly_of_hostStore h (by omega) (by rw [hostStore_bit (by rwa [addr]), addr, bitByte_getLsbD_zero_eq])

/-- Settles O15: a register's write by its address, an element's by its range. -/
theorem hostWritesStoreTheLowBits : Obligations.HostWritesStoreTheLowBits := by
  intro s v h
  simp only [BitVec.ofNat_toNat]
  exact ⟨step_write (by decide) h v, step_write (by decide) h v, step_write (by decide) h v, step_write (by decide) h v,
    step_write (by decide) h v, fun i hi => writeStoresOnly_byte h v (.inl (decide_eq_true (by omega))),
    fun i hi => writeStoresOnly_byte h v (.inr (decide_eq_true (by omega))),
    fun i hi => writeStoresOnly_bit h v (decide_eq_true (by omega))⟩

end Sys2Proof.Machine
end

section
/-! PROOFS, family 10 (state), what is written by whom: the commands' own registers and elements (O24), the tables once built
(O23), the configuration (O25). -/

namespace Sys2Proof.Machine

/-! ### The elements a command can change -/

/-- The commands that run `ensure_gf()` (R123). -/
def BuildsTables (i : Instr) : Prop :=
  i = .gfinit ∨ (∃ x y, i = .gfmul x y) ∨ (∃ k, i = .rsgen k) ∨ (∃ k, i = .rsenc k) ∨ i = .encode

/-- The buffers outside EXP and LOG that a command stores into (R32 to R35). -/
def StoresAt (i : Instr) (a : Nat) : Prop :=
  (inGen a = true ∧ ((∃ k, i = .rsgen k) ∨ (∃ k, i = .rsenc k) ∨ i = .encode)) ∨
  (inPar a = true ∧ ((∃ k, i = .rsenc k) ∨ i = .encode)) ∨
  (inCw a = true ∧ (i = .b2b ∨ i = .encode)) ∨
  (inBits a = true ∧ (i = .pack ∨ i = .xbits ∨ i = .encode))

/-- No command stores into PAYLOAD (R30). -/
theorem payload_outside_effects {i : Instr} {a : Nat} (ha : inPayload a = true) :
    ¬(StoresAt i a ∨ inExp a = true ∨ inLog a = true) := by
  simp only [StoresAt, inGen, inPar, inCw, inBits, inExp, inLog, inPayload, decide_eq_true_eq] at *
  omega

theorem storesAt_outside_tables {i : Instr} {a : Nat} (h : StoresAt i a) : ¬(inExp a = true ∨ inLog a = true) := by
  simp only [StoresAt, inGen, inPar, inCw, inBits, inExp, inLog, decide_eq_true_eq] at *
  omega

/-- The table build changes elements of EXP and of LOG[1..255] only, and only if the tables were not there (R31, R123). -/
theorem ensureGf_changes {s : State} {a : Nat} (h : (ensureGf s).byteAt a ≠ s.byteAt a) :
    s.gfvalid = false ∧ (inExp a = true ∨ inLog a = true ∧ a ≠ logAddr 0) := by
  constructor
  · by_contra hv
    exact h (by rw [ensureGf_of_valid (by simpa using hv)])
  · by_contra hout
    refine h (byteAt_ensureGf_other s ?_ ?_)
    · simpa using fun he => hout (.inl he)
    · by_contra hlog
      simp only [not_or, Bool.not_eq_false] at hlog
      exact hout (.inr hlog)

theorem rsencEffect_changes {ec : Nat} (h1 : 1 ≤ ec) (h30 : ec ≤ 30) {s : State} {a : Nat}
    (h : (rsencEffect ec s).byteAt a ≠ (ensureGf s).byteAt a) : inGen a = true ∨ inPar a = true := by
  by_contra hout
  simp only [not_or, inGen, inPar, decide_eq_true_eq] at hout
  exact h (byteAt_rsencEffect_outside h1 s (by simp only [genAddr]; omega) (by simp only [parAddr]; omega))

theorem storeGenerator_changes {d : Nat} (hd : d ≤ 30) {s : State} {a : Nat}
    (h : (storeGenerator d s).byteAt a ≠ s.byteAt a) : inGen a = true := by
  by_contra hout
  simp only [inGen, decide_eq_true_eq] at hout
  exact h (storeGenerator_byteAt_outside (by simp only [genAddr]; omega) s)

theorem storeBitSequence_changes {b : List Bool} (hb : b.length ≤ 1024) {s : State} {a : Nat}
    (h : (storeBitSequence b s).byteAt a ≠ s.byteAt a) : inBits a = true := by
  by_contra hout
  simp only [inBits, decide_eq_true_eq] at hout
  exact h (byteAt_storeBitSequence_outside (by simp only [bitsAddr]; omega) s)

theorem b2bEffect_changes {s : State} (hb : s.bitlen.toNat ≤ 1024) {a : Nat}
    (h : (b2bEffect s).byteAt a ≠ s.byteAt a) : inCw a = true := by
  by_contra hout
  simp only [inCw, decide_eq_true_eq] at hout
  exact h (byteAt_b2bEffect_outside (by simp only [cwAddr]; omega))

theorem xbitsEffect_changes {s : State} (hl : s.dlen.toNat + s.eclen.toNat ≤ 128) {a : Nat}
    (h : (xbitsEffect s).byteAt a ≠ s.byteAt a) : inBits a = true :=
  storeBitSequence_changes (by rw [length_codewordBits]; omega) h

/-- ENCODE's stages store where the component commands do, and what else they change the table build does (R241). -/
theorem encodeBack_changes {v : Nat} {b : List Bool} (hb : b.length ≤ 688) (hb8 : b.length % 8 = 0) {s : State} {a : Nat}
    (h : (encodeBack v b s).byteAt a ≠ s.byteAt a) :
    StoresAt .encode a ∨ s.gfvalid = false ∧ (inExp a = true ∨ inLog a = true ∧ a ≠ logAddr 0) := by
  have hec := ecCount_range v
  by_cases hst : StoresAt .encode a
  · exact .inl hst
  have hout : ¬(inGen a = true) ∧ ¬(inPar a = true) ∧ ¬(inCw a = true) ∧ ¬(inBits a = true) := by
    simpa only [StoresAt, or_true, and_true, not_or] using hst
  simp only [inGen, inPar, inCw, inBits, decide_eq_true_eq] at hout
  have hback := byteAt_encodeBack_outside hb hb8 s (v := v) (a := a) (by simp only [bitsAddr]; omega)
    (by simp only [cwAddr]; omega) (by simp only [genAddr]; omega) (by simp only [parAddr]; omega)
  have hpacked := byteAt_packed_outside hb s (a := a) (by simp only [bitsAddr]; omega) (by simp only [cwAddr]; omega)
  rw [hback, ← hpacked] at h
  exact .inr (by simpa using ensureGf_changes h)

/-- An element changes only where its command stores, or by a table build that was still to be done. -/
theorem exec_changes_element {i : Instr} {s t : State} (ht : exec i s = .next t) (a : Nat) :
    t.byteAt a ≠ s.byteAt a →
      StoresAt i a ∨ (s.gfvalid = false ∧ (inExp a = true ∨ inLog a = true ∧ a ≠ logAddr 0)) ∧ BuildsTables i := by
  apply exec_next_induction ht
  case gfinit => exact fun h => .inr ⟨ensureGf_changes h, .inl rfl⟩
  case gfmul => exact fun x y h => .inr ⟨ensureGf_changes h, .inr (.inl ⟨x, y, rfl⟩)⟩
  case rsgen =>
    intro d hd h
    by_cases hg : (storeGenerator d (ensureGf s)).byteAt a = (ensureGf s).byteAt a
    · exact .inr ⟨ensureGf_changes (hg ▸ h), by simp [BuildsTables]⟩
    · exact .inl (.inl ⟨storeGenerator_changes hd hg, .inl ⟨d, rfl⟩⟩)
  case rsenc =>
    intro ec h1 h30 h
    by_cases hr : (rsencEffect ec s).byteAt a = (ensureGf s).byteAt a
    · exact .inr ⟨ensureGf_changes (hr ▸ h), by simp [BuildsTables]⟩
    · rcases rsencEffect_changes h1 h30 hr with hg | hp
      · exact .inl (.inl ⟨hg, .inr (.inl ⟨ec, rfl⟩)⟩)
      · exact .inl (.inr (.inl ⟨hp, .inl ⟨ec, rfl⟩⟩))
  case pack =>
    intro b _ _ hb h
    have hlen := (length_of_packBits_le hb).1
    exact .inl (.inr (.inr (.inr ⟨storeBitSequence_changes (by omega) h, .inl rfl⟩)))
  case b2b => exact fun hb _ h => .inl (.inr (.inr (.inl ⟨b2bEffect_changes hb h, .inl rfl⟩)))
  case xbits => exact fun _ hl h => .inl (.inr (.inr (.inr ⟨xbitsEffect_changes hl h, .inr (.inl rfl)⟩)))
  case encodeFits =>
    intro b _ hb h
    obtain ⟨hlen, hlen8⟩ := length_of_packBits_le hb
    have hfront : (encodeFront s).byteAt a = s.byteAt a := State.byteAt_congr (by simp) (by simp) a
    rcases encodeBack_changes hlen hlen8 (hfront ▸ h) with hst | htab
    · exact .inl hst
    · exact .inr ⟨by simpa using htab, by simp [BuildsTables]⟩
  all_goals simp [State.byteAt]

/-! ### The fault latch and the registers -/

/-- The commands that can raise a fault (R301, R302). -/
def MayRaise (i : Instr) : Prop :=
  (∃ k, i = .rsgen k) ∨ (∃ k, i = .rsenc k) ∨ i = .pack ∨ i = .b2b ∨ i = .xbits ∨ (∃ k, i = .mnew k) ∨
    i = .sstamp ∨ i = .place ∨ (∃ w h, i = .draw w h) ∨ i = .encode

section
variable {i : Instr} {s t : State} (ht : exec i s = .next t)
include ht

/-- The other commands but CLRERR have one answer each, which keeps the latch. -/
theorem mayRaise_of_latch_changes (h : t.err ≠ s.err ∨ t.errinfo ≠ s.errinfo) : MayRaise i ∨ i = .clrerr := by
  cases i with
  | nop | gfinit | gfmul | vsel | fstamp | mask => cases ht; simp at h
  | clrerr => exact .inr rfl
  | _ => exact .inl (by simp [MayRaise])

/-- The latch and its information change together: a fault records its command's word, CLRERR clears both (R304, R281). -/
theorem exec_changes_latch : t.err ≠ s.err ∨ t.errinfo ≠ s.errinfo →
    (t.err ≠ none ∧ t.errinfo = encode i) ∨ (t.err = none ∧ t.errinfo = 0 ∧ i = .clrerr) := by
  apply exec_next_induction ht
  case fault => exact fun f _ _ _ => .inl ⟨Option.some_ne_none f, rfl⟩
  case encodeLong => exact fun _ _ => .inl ⟨Option.some_ne_none _, rfl⟩
  case clrerr => exact fun _ => .inr ⟨rfl, rfl, rfl⟩
  all_goals simp

theorem exec_latch (h : t.err ≠ s.err ∨ t.errinfo ≠ s.errinfo) :
    (t.err ≠ none ∧ t.errinfo = encode i ∧ MayRaise i) ∨ (t.err = none ∧ t.errinfo = 0 ∧ i = .clrerr) := by
  rcases mayRaise_of_latch_changes ht h with hi | rfl
  · exact (exec_changes_latch ht h).imp_left fun ⟨herr, hinfo⟩ => ⟨herr, hinfo, hi⟩
  · cases ht; exact .inr ⟨rfl, rfl, rfl⟩

end

/-- Settles O24: the host's fields, the elements, the latch, and the other registers, effect by effect. -/
theorem commandsWriteOnlyTheirOwnRegisters : Obligations.CommandsWriteOnlyTheirOwnRegisters := by
  intro i s t ht
  obtain ⟨cfg, plen, pending, rdata, resetCount⟩ := exec_keeps_host_fields ht
  have element := exec_changes_element ht
  have payload : ∀ k, k < 256 → t.byteAt (payloadAddr k) = s.byteAt (payloadAddr k) := by
    intro k hk
    by_contra hne
    refine payload_outside_effects (i := i) (a := payloadAddr k) (decide_eq_true (by simp only [payloadAddr]; omega)) ?_
    exact (element _ hne).imp_right fun ⟨⟨_, htab⟩, _⟩ => htab.imp_right And.left
  refine ⟨cfg, plen, pending, rdata, resetCount, payload, fun a hne => ?_, exec_latch ht, ?_⟩
  · rcases element a hne with hst | ⟨⟨_, htab⟩, hi⟩
    · exact .inr hst
    · exact .inl ⟨htab, hi⟩
  · apply exec_next_induction ht
    all_goals intros; simp

/-! ### The tables, once built -/

/-- What R31 says of built tables between two states. -/
def TablesKept (s t : State) : Prop :=
  t.gfvalid = true ∧ ∀ a, inExp a = true ∨ inLog a = true → t.byteAt a = s.byteAt a

theorem tablesKept_of_eq {s t : State} (hv : s.gfvalid = true) (hg : t.gfvalid = s.gfvalid) (hm : t.mem = s.mem)
    (hr : t.resetCount = s.resetCount) : TablesKept s t := ⟨hg.trans hv, fun a _ => State.byteAt_congr hm hr a⟩

theorem exec_keeps_gfvalid {i : Instr} {s t : State} (ht : exec i s = .next t) (hv : s.gfvalid = true) :
    t.gfvalid = true := by
  apply exec_next_induction ht
  all_goals intros; simp [hv]

theorem exec_keeps_tables {i : Instr} {s t : State} (hv : s.gfvalid = true) (ht : exec i s = .next t) : TablesKept s t := by
  refine ⟨exec_keeps_gfvalid ht hv, fun a ha => ?_⟩
  by_contra hne
  rcases exec_changes_element ht a hne with hst | ⟨⟨hnot, _⟩, _⟩
  · exact storesAt_outside_tables hst ha
  · simp [hv] at hnot

theorem hostRead_keeps_tables {s : State} (hv : s.gfvalid = true) (a : Addr) : TablesKept s (hostRead a s) := by
  have heffect : readEffect a.toNat s = s := by rw [readEffect, ensureGf_of_valid hv, ite_self]
  rcases hostRead_cases a s with ⟨w, h⟩ | ⟨_, _, _, h⟩ <;> rw [h]
  · rw [heffect]; exact tablesKept_of_eq hv rfl rfl rfl
  · exact tablesKept_of_eq hv rfl rfl rfl

theorem setByte_keeps_tables {s : State} (hv : s.gfvalid = true) {b : Nat} (hb : ¬(inExp b = true ∨ inLog b = true))
    (x : Byte) : TablesKept s (s.setByte b x) :=
  ⟨hv, fun a ha => State.byteAt_setByte_other (by rintro rfl; exact hb ha) x s⟩

theorem hostStore_keeps_tables {s : State} (hv : s.gfvalid = true) (a : Addr) (v : Word) : TablesKept s (hostStore a v s) := by
  rcases hostStore_cases a v s with ⟨_, h⟩ | ⟨_, h⟩ | ⟨_, h⟩ | ⟨_, h⟩ | ⟨_, h⟩ | ⟨hr, h⟩ | ⟨hr, h⟩ | ⟨_, _, _, _, h⟩ <;> rw [h]
  case inr.inr.inr.inr.inr.inl =>
    refine setByte_keeps_tables hv ?_ _
    simp only [inPayload, inCw, inExp, inLog, decide_eq_true_eq] at *
    omega
  case inr.inr.inr.inr.inr.inr.inl =>
    refine setByte_keeps_tables hv ?_ _
    simp only [inBits, inExp, inLog, decide_eq_true_eq] at *
    omega
  all_goals exact tablesKept_of_eq hv rfl rfl rfl

theorem cmdWrite_keeps_tables {s t : State} (hv : s.gfvalid = true) {w : Word} (ht : cmdWrite w s = .next t) :
    TablesKept s t := by
  rcases cmdWrite_cases w s with ⟨_, _, h⟩ | ⟨_, _, h⟩ | ⟨_, i, _, h⟩ | ⟨_, _, h⟩ <;> rw [h] at ht
  case inr.inr.inl => exact exec_keeps_tables hv ht
  all_goals cases ht; exact tablesKept_of_eq hv rfl rfl rfl

theorem hostWrite_keeps_tables {s t : State} (hv : s.gfvalid = true) {a : Addr} {v : Word}
    (ht : hostWrite a v s = .next t) : TablesKept s t := by
  by_cases ha : a = 0x0000
  · subst ha
    exact cmdWrite_keeps_tables hv ht
  by_cases he : s.err = none
  · rw [hostWrite_other ha he] at ht
    cases ht; exact hostStore_keeps_tables hv a v
  · rw [hostWrite_blocked ha he] at ht
    cases ht; exact tablesKept_of_eq hv rfl rfl rfl

/-- Settles O23: reads, the host's stores and the commands keep built tables; only the reset event remains. -/
theorem builtTablesNeverChange : Obligations.BuiltTablesNeverChange := by
  intro s t hv ht
  apply step_induction ht
  case idle => exact fun _ _ => tablesKept_of_eq hv rfl rfl rfl
  case event =>
    intro e rest hp hu hreset
    cases e with
    | read a => cases hu; exact hostRead_keeps_tables (s := { s with pending := rest }) hv a
    | write a v => exact hostWrite_keeps_tables (s := { s with pending := rest }) hv hu
    | reset => exact absurd (by rw [hp, List.head?_cons]) hreset

/-! ### The configuration -/

theorem portEvent_cfg {e : PortEvent} {s t : State} (ht : portEvent e s = .next t) : t.cfg = s.cfg := by
  apply portEvent_induction ht
  case command => exact fun i u _ hu => (exec_keeps_host_fields hu).1
  case reset => rfl
  all_goals intros; simp

/-- Settles O25: no command (R20) and no event at the port touches the configuration. -/
theorem configurationNeverChanges : Obligations.ConfigurationNeverChanges := by
  intro s t ht
  apply step_induction ht
  case idle => exact fun _ => rfl
  case event => exact fun e rest _ hu => portEvent_cfg (s := { s with pending := rest }) hu

end Sys2Proof.Machine
end

section
/-! PROOFS, family 20 (memory), the host port: what a read of a buffer returns (O10), what a read changes (O13), and the
order in which the port performs its events (O17). -/

namespace Sys2Proof.Machine

/-! ### The order of the events -/

theorem hostWrite_answers (a : Addr) (v : Word) (s : State) : ∃ t, hostWrite a v s = .next t := by
  by_cases ha : a = 0x0000
  · subst ha
    rw [hostWrite_cmd]
    rcases cmdWrite_cases v s with ⟨_, _, h⟩ | ⟨_, _, h⟩ | ⟨_, i, _, h⟩ | ⟨_, _, h⟩ <;> rw [h]
    case inr.inr.inl => exact exec_answers i s
    all_goals exact ⟨_, rfl⟩
  by_cases he : s.err = none
  · exact ⟨_, hostWrite_other ha he v⟩
  · exact ⟨_, hostWrite_blocked ha he v⟩

/-- No event at the port stops the machine. -/
theorem portEvent_answers (e : PortEvent) (s : State) : ∃ t, portEvent e s = .next t := by
  cases e with
  | read a => exact ⟨_, portEvent_read a s⟩
  | write a v => exact hostWrite_answers a v s
  | reset => exact ⟨_, portEvent_reset s⟩

/-- The events the host has issued behind the one performed stay as they are, at a reset too. -/
theorem portEvent_pending {e : PortEvent} {s t : State} (ht : portEvent e s = .next t) : t.pending = s.pending := by
  apply portEvent_induction ht
  case command =>
    intro i u _ hu
    obtain ⟨_, _, hpending, _⟩ := exec_keeps_host_fields hu
    exact hpending
  case reset => rfl
  all_goals intros; simp

/-- Settles O17: an idle step changes nothing; else the oldest event is performed, which answers and keeps the others. -/
theorem eventsTakeEffectInIssueOrder : Obligations.EventsTakeEffectInIssueOrder := by
  refine fun s => ⟨step_of_pending_nil, fun e rest hp => ?_⟩
  have hstep := step_of_pending_cons hp
  obtain ⟨t, ht⟩ := portEvent_answers e { s with pending := rest }
  exact ⟨t, hstep.trans ht, portEvent_pending ht, hstep⟩

/-! ### Reads of the buffers -/

/-- R64 (a): an element of PAYLOAD, GEN, PAR or CW, zero-extended. -/
theorem readGives_byte (s : State) {k : Nat}
    (hk : inPayload k = true ∨ inGen k = true ∨ inPar k = true ∨ inCw k = true) :
    ReadGives s (BitVec.ofNat 13 k) (BitVec.ofNat 32 (s.byteAt k).toNat) := by
  have hbuf : inBuffers k = true := by rcases hk with h | h | h | h <;> simp [inBuffers, h]
  simp only [inPayload, inGen, inPar, inCw, decide_eq_true_eq] at hk
  have hlog : k ≠ logAddr 0 := by simp only [logAddr]; omega
  have hbit : inBits k = false := decide_eq_false (by omega)
  have haddr : (BitVec.ofNat 13 k).toNat = k := toNat_ofNat_addr (by omega)
  rw [BitVec.ofNat_toNat]
  exact readGives_plain (by rw [haddr]; exact readWord_element hbuf hlog hbit) (by rw [haddr]; omega)

theorem setWidth_bitByte (b : Bool) : (bitByte b).setWidth 32 = BitVec.ofNat 32 b.toNat := by cases b <;> rfl

/-- R64 (a): an element of BITS. -/
theorem readGives_bit (s : State) {i : Nat} (hi : i < 1024) :
    ReadGives s (BitVec.ofNat 13 (bitsAddr i)) (BitVec.ofNat 32 (s.bitAt i).toNat) := by
  have haddr : (BitVec.ofNat 13 (bitsAddr i)).toNat = bitsAddr i := toNat_ofNat_addr (by simp only [bitsAddr]; omega)
  rw [← setWidth_bitByte]
  exact readGives_plain (by rw [haddr]; exact readWord_bit hi) (by rw [haddr, bitsAddr]; omega)

/-- Settles O10: each buffer by its address range. -/
theorem buffersReadAsTheirElements : Obligations.BuffersReadAsTheirElements := by
  intro s i
  exact ⟨fun hi => readGives_byte s (.inl (decide_eq_true (by omega))),
    fun hi => readGives_byte s (.inr (.inl (decide_eq_true (by omega)))),
    fun hi => readGives_byte s (.inr (.inr (.inl (decide_eq_true (by omega))))),
    fun hi => readGives_byte s (.inr (.inr (.inr (decide_eq_true (by omega))))),
    readGives_bit s⟩

/-! ### What a read changes -/

/-- The word at an address does not depend on what the port returned before. -/
theorem readWord_with_rdata (s : State) (v : Word) (a : Nat) : State.readWord { s with rdata := v } a = s.readWord a := rfl

/-- After a read the side effect of another read of the same address is nothing: the tables are built (R123). -/
theorem readEffect_after_read (s : State) (v : Word) (a : Nat) :
    readEffect a { readEffect a s with rdata := v } = { readEffect a s with rdata := v } := by
  unfold readEffect
  split
  · exact ensureGf_of_valid (ensureGf_gfvalid s)
  · rfl

/-- R63's table lists an address of the port, or it is one of the unmapped ones. -/
theorem readWord_of_mapped (s : State) {a : Addr} (h : ¬Unmapped a.toNat) : ∃ w, s.readWord a.toNat = some w := by
  have hlt := a.isLt
  rw [readWord_isSome_iff]
  simp only [Unmapped, inCells, inBuffers, inPayload, inExp, inLog, inGen, inPar, inCw, inBits, Bool.or_eq_true,
    decide_eq_true_eq] at h ⊢
  omega

theorem hostRead_of_mapped (s : State) {a : Addr} (h : ¬Unmapped a.toNat) :
    hostRead a s = { readEffect a.toNat s with rdata := (hostRead a s).rdata } := by
  obtain ⟨w, hw⟩ := readWord_of_mapped (readEffect a.toNat s) h
  rw [hostRead_of_word hw]

/-- The second read finds the tables built and the same word. -/
theorem hostRead_hostRead (s : State) {a : Addr} (h : ¬Unmapped a.toNat) : hostRead a (hostRead a s) = hostRead a s := by
  obtain ⟨w, hw⟩ := readWord_of_mapped (readEffect a.toNat s) h
  have hword : (readEffect a.toNat { readEffect a.toNat s with rdata := w }).readWord a.toNat = some w := by
    rw [readEffect_after_read, readWord_with_rdata, hw]
  rw [hostRead_of_word hw, hostRead_of_word hword, readEffect_after_read]

/-- Settles O13: a mapped read leaves its side effect and the word returned, and reading again leaves the same. -/
theorem onlyTableReadsHaveAnEffect : Obligations.OnlyTableReadsHaveAnEffect := by
  intro s a
  refine ⟨hostRead a s, rfl, fun htable => ?_, fun hplain hmap => ?_, fun hmap => ?_⟩
  · have hmap : ¬Unmapped a.toNat := by rw [Unmapped]; omega
    rw [← readEffect_of_table (inTables_iff.mpr htable)]
    exact hostRead_of_mapped s hmap
  · obtain ⟨w, hw⟩ := readWord_of_mapped s hmap
    rw [hostRead_plain hw hplain]
  · rw [step_offering, portEvent_read, hostRead_hostRead s hmap]

end Sys2Proof.Machine
end

section
/-! PROOFS, family 30 (encoding): commands survive encoding and decoding (O1), words decoding and encoding (O2), the words of
the spec (O3, O4), the illegal words (O5), and what the write of a word to CMD does (O5, O6, O7). -/

namespace Sys2Proof

/-! ### The fields of a format's word (R90, R91) -/

@[simp] theorem fieldLo_formatB (op a : Byte) : fieldLo (formatB op a) = a := by
  have := a.isLt
  rw [← BitVec.toNat_inj, toNat_fieldLo, toNat_formatB]; omega

@[simp] theorem fieldHi_formatP (op a b : Byte) : fieldHi (formatP op a b) = a := by
  have := a.isLt
  have := b.isLt
  rw [← BitVec.toNat_inj, toNat_fieldHi, toNat_formatP]; omega

@[simp] theorem fieldLo_formatP (op a b : Byte) : fieldLo (formatP op a b) = b := by
  have := b.isLt
  rw [← BitVec.toNat_inj, toNat_fieldLo, toNat_formatP]; omega

@[simp] theorem fieldW_formatS (op : Byte) (w h : BitVec 12) : fieldW (formatS op w h) = w := by
  have := w.isLt
  have := h.isLt
  rw [← BitVec.toNat_inj, toNat_fieldW, toNat_formatS]; omega

@[simp] theorem fieldH_formatS (op : Byte) (w h : BitVec 12) : fieldH (formatS op w h) = h := by
  have := h.isLt
  rw [← BitVec.toNat_inj, toNat_fieldH, toNat_formatS]; omega

/-! ### The words a mask lets through: those of the format, with the word's own fields (R92 step 2, R93) -/

theorem and_maskZ_iff {w : Word} {op : Byte} : w &&& 0xFFFFFFFF = formatZ op ↔ formatZ op = w := by
  rw [show (0xFFFFFFFF : Word) = BitVec.allOnes 32 from rfl, BitVec.and_allOnes, eq_comm]

theorem and_maskB_iff {w : Word} {op : Byte} : w &&& 0xFFFFFF00 = formatZ op ↔ formatB op (fieldLo w) = w := by
  rw [show (0xFFFFFF00 : Word) = BitVec.allOnes 32 <<< 8 from rfl, ← BitVec.toNat_inj, ← BitVec.toNat_inj, and_highMask,
    toNat_formatZ, toNat_formatB, toNat_fieldLo]
  omega

theorem and_maskP_iff {w : Word} {op : Byte} :
    w &&& 0xFFFF0000 = formatZ op ↔ formatP op (fieldHi w) (fieldLo w) = w := by
  rw [show (0xFFFF0000 : Word) = BitVec.allOnes 32 <<< 16 from rfl, ← BitVec.toNat_inj, ← BitVec.toNat_inj, and_highMask,
    toNat_formatZ, toNat_formatP, toNat_fieldHi, toNat_fieldLo]
  omega

theorem and_maskS_iff {w : Word} {op : Byte} :
    w &&& 0xFF000000 = formatZ op ↔ formatS op (fieldW w) (fieldH w) = w := by
  rw [show (0xFF000000 : Word) = BitVec.allOnes 32 <<< 24 from rfl, ← BitVec.toNat_inj, ← BitVec.toNat_inj, and_highMask,
    toNat_formatZ, toNat_formatS, toNat_fieldW, toNat_fieldH]
  omega

theorem formatZ_and_mask (op : Byte) : formatZ op &&& 0xFFFFFFFF = formatZ op := and_maskZ_iff.mpr rfl

theorem formatB_and_mask (op a : Byte) : formatB op a &&& 0xFFFFFF00 = formatZ op :=
  and_maskB_iff.mpr (by rw [fieldLo_formatB])

theorem formatP_and_mask (op a b : Byte) : formatP op a b &&& 0xFFFF0000 = formatZ op :=
  and_maskP_iff.mpr (by rw [fieldHi_formatP, fieldLo_formatP])

theorem formatS_and_mask (op : Byte) (w h : BitVec 12) : formatS op w h &&& 0xFF000000 = formatZ op :=
  and_maskS_iff.mpr (by rw [fieldW_formatS, fieldH_formatS])

/-! ### From the command to the word and back (O1) -/

/-- What the ranges of well-formed operands are for (R91): the field holds the operand. -/
theorem toNat_ofNat_of_fitsByte {x : Nat} (h : fitsByte x = true) : (BitVec.ofNat 8 x).toNat = x := by
  rw [BitVec.toNat_ofNat, Nat.mod_eq_of_lt (of_decide_eq_true h)]

theorem toNat_ofNat_of_fits12 {x : Nat} (h : fits12 x = true) : (BitVec.ofNat 12 x).toNat = x := by
  rw [BitVec.toNat_ofNat, Nat.mod_eq_of_lt (of_decide_eq_true h)]

theorem fitsSignedByte_iff {x : Int} : fitsSignedByte x = true ↔ -128 ≤ x ∧ x ≤ 127 := by simp [fitsSignedByte]

theorem sext8_ofInt_of_fitsSignedByte {x : Int} (h : fitsSignedByte x = true) : sext8 (BitVec.ofInt 8 x) = x := by
  rw [fitsSignedByte_iff] at h
  rw [sext8, BitVec.toInt_ofInt, Int.bmod_eq_of_le (by omega) (by omega)]

/-- The row with opcode `op` stands at place `op` of the table. -/
theorem decode_row (op : Fin 17) {w : Word} (h : w &&& (opcodeTable.get op).mask = (opcodeTable.get op).pattern) :
    decode w = .command ((opcodeTable.get op).build w) :=
  decode_of_matches (List.get_mem _ _) (beq_iff_eq.mpr h)

/-- Each command's word is one of its row's format, and the row reads the operands back from its fields. -/
theorem decode_encode {i : Instr} (h : i.wellFormed = true) : decode (encode i) = .command i := by
  cases i with
  | nop => exact decode_row 0x00 (formatZ_and_mask 0x00)
  | gfinit => exact decode_row 0x01 (formatZ_and_mask 0x01)
  | gfmul a b => exact (decode_row 0x02 (formatP_and_mask 0x02 _ _)).trans (by simp [opcodeTable])
  | rsgen degree =>
    exact (decode_row 0x03 (formatB_and_mask 0x03 _)).trans (by simp [opcodeTable, toNat_ofNat_of_fitsByte h])
  | rsenc eccount =>
    exact (decode_row 0x04 (formatB_and_mask 0x04 _)).trans (by simp [opcodeTable, toNat_ofNat_of_fitsByte h])
  | vsel => exact decode_row 0x05 (formatZ_and_mask 0x05)
  | pack => exact decode_row 0x06 (formatZ_and_mask 0x06)
  | b2b => exact decode_row 0x07 (formatZ_and_mask 0x07)
  | xbits => exact decode_row 0x08 (formatZ_and_mask 0x08)
  | mnew n => exact (decode_row 0x09 (formatB_and_mask 0x09 _)).trans (by simp [opcodeTable, toNat_ofNat_of_fitsByte h])
  | fstamp row col =>
    obtain ⟨hrow, hcol⟩ := Bool.and_eq_true_iff.mp h
    exact (decode_row 0x0A (formatP_and_mask 0x0A _ _)).trans
      (by simp [opcodeTable, sext8_ofInt_of_fitsSignedByte hrow, sext8_ofInt_of_fitsSignedByte hcol])
  | sstamp => exact decode_row 0x0B (formatZ_and_mask 0x0B)
  | place => exact decode_row 0x0C (formatZ_and_mask 0x0C)
  | mask => exact decode_row 0x0D (formatZ_and_mask 0x0D)
  | encode => exact decode_row 0x0E (formatZ_and_mask 0x0E)
  | draw w k =>
    obtain ⟨hw, hh⟩ := Bool.and_eq_true_iff.mp h
    exact (decode_row 0x0F (formatS_and_mask 0x0F _ _)).trans
      (by simp [opcodeTable, toNat_ofNat_of_fits12 hw, toNat_ofNat_of_fits12 hh])
  | clrerr => exact decode_row 0x10 (formatZ_and_mask 0x10)

/-- Settles O1, by the command's format: its row matches, and its fields hold the operands. -/
theorem decodeOfEncodeIsTheCommand : Obligations.DecodeOfEncodeIsTheCommand := fun _ h => decode_encode h

/-! ### From the word to the command and back (O2) -/

/-- A field's value is in the field's range, whatever the word. -/
theorem fitsByte_toNat (b : Byte) : fitsByte b.toNat = true := decide_eq_true b.isLt

theorem fits12_toNat (x : BitVec 12) : fits12 x.toNat = true := decide_eq_true x.isLt

theorem fitsSignedByte_sext8 (b : Byte) : fitsSignedByte (sext8 b) = true := by
  have hlo := BitVec.le_two_mul_toInt (x := b)
  have hhi := BitVec.two_mul_toInt_lt (x := b)
  rw [fitsSignedByte_iff, sext8]
  omega

@[simp] theorem ofInt_sext8 (b : Byte) : BitVec.ofInt 8 (sext8 b) = b := BitVec.ofInt_toInt

theorem build_wellFormed : ∀ r ∈ opcodeTable, ∀ w, (r.build w).wellFormed = true := by
  simp [opcodeTable, Instr.wellFormed, fitsByte_toNat, fits12_toNat, fitsSignedByte_sext8]

/-- The words a row matches are those its format builds from the operands it reads: no bit is dropped. -/
theorem encode_build : ∀ r ∈ opcodeTable, ∀ w, w &&& r.mask = r.pattern → encode (r.build w) = w := by
  have hZ (op : Byte) (w : Word) : w &&& 0xFFFFFFFF = formatZ op → formatZ op = w := and_maskZ_iff.mp
  have hB (op : Byte) (w : Word) : w &&& 0xFFFFFF00 = formatZ op →
      formatB op (BitVec.ofNat 8 (fieldLo w).toNat) = w := by
    simpa using and_maskB_iff.mp
  have hP (op : Byte) (w : Word) : w &&& 0xFFFF0000 = formatZ op →
      formatP op (fieldHi w) (fieldLo w) = w := and_maskP_iff.mp
  have hPs (op : Byte) (w : Word) : w &&& 0xFFFF0000 = formatZ op →
      formatP op (BitVec.ofInt 8 (sext8 (fieldHi w))) (BitVec.ofInt 8 (sext8 (fieldLo w))) = w := by
    simpa using and_maskP_iff.mp
  have hS (op : Byte) (w : Word) : w &&& 0xFF000000 = formatZ op →
      formatS op (BitVec.ofNat 12 (fieldW w).toNat) (BitVec.ofNat 12 (fieldH w).toNat) = w := by
    simpa using and_maskS_iff.mp
  simp only [opcodeTable, List.cons_append, List.nil_append, List.forall_mem_cons]
  exact ⟨hZ 0x00, hZ 0x01, hP 0x02, hB 0x03, hB 0x04, hZ 0x05, hZ 0x06, hZ 0x07, hZ 0x08, hB 0x09, hPs 0x0A, hZ 0x0B,
    hZ 0x0C, hZ 0x0D, hZ 0x0E, hS 0x0F, hZ 0x10, List.forall_mem_nil _⟩

/-- Settles O2: some row matches the word, its operands are in range, and its mask and fields cover the whole word. -/
theorem encodeOfDecodeIsTheWord : Obligations.EncodeOfDecodeIsTheWord := by
  intro w i h
  obtain ⟨r, hr, hmatch, rfl⟩ := decode_eq_command_iff.mp h
  exact ⟨build_wellFormed r hr w, encode_build r hr w (beq_iff_eq.mp hmatch)⟩

/-! ### The words of the spec (O3, O4) -/

/-- FSTAMP's bytes are the residues of its operands (R91, two's complement). -/
theorem encode_fstamp (row col : Int) : encode (.fstamp row col) =
    BitVec.ofNat 32 (0x0A000000 + 256 * (row % 256).toNat + (col % 256).toNat) := by
  rw [← BitVec.toNat_inj, encode, toNat_formatP]
  simp only [BitVec.toNat_ofInt, BitVec.reduceToNat, BitVec.toNat_ofNat]
  omega

/-- Settles O3: each word is the encoding of its command (R95), which decodes to it (O1). -/
theorem operandsAreAssembledByFormula : Obligations.OperandsAreAssembledByFormula := by
  refine ⟨?pair, ?byte, ?signedPair, ?size⟩
  case pair =>
    intro a b ha hb
    have hword := encode_gfmul (BitVec.ofNat 8 a) (BitVec.ofNat 8 b)
    rw [toNat_ofNat_of_fitsByte (decide_eq_true ha), toNat_ofNat_of_fitsByte (decide_eq_true hb)] at hword
    rw [← hword]
    exact decode_encode rfl
  case byte =>
    intro a ha
    rw [← encode_rsgen ha, ← encode_rsenc ha, ← encode_mnew ha]
    have hfits : fitsByte a = true := decide_eq_true ha
    exact ⟨decode_encode hfits, decode_encode hfits, decode_encode hfits⟩
  case signedPair =>
    intro row col hrow hrow' hcol hcol'
    rw [← encode_fstamp]
    exact decode_encode
      (Bool.and_eq_true_iff.mpr ⟨fitsSignedByte_iff.mpr ⟨hrow, hrow'⟩, fitsSignedByte_iff.mpr ⟨hcol, hcol'⟩⟩)
  case size =>
    intro w h hw hh
    rw [← encode_draw hw hh]
    exact decode_encode (Bool.and_eq_true_iff.mpr ⟨decide_eq_true hw, decide_eq_true hh⟩)

/-- Settles O4: each word is the encoding of its command, which decodes to it (O1). -/
theorem specWordsDecode : Obligations.SpecWordsDecode := by
  have hfstamp : decode 0x0A00FE04 = .command (.fstamp (-2) 4) := by
    rw [← (by decide : encode (.fstamp (-2) 4) = 0x0A00FE04)]
    exact decode_encode rfl
  exact ⟨decode_encode (i := .nop) rfl, decode_encode (i := .gfinit) rfl, decode_encode (i := .gfmul 0x80 2) rfl,
    decode_encode (i := .rsgen 7) rfl, decode_encode (i := .rsenc 10) rfl, decode_encode (i := .vsel) rfl,
    decode_encode (i := .pack) rfl, decode_encode (i := .b2b) rfl, decode_encode (i := .xbits) rfl,
    decode_encode (i := .mnew 21) rfl, hfstamp, decode_encode (i := .sstamp) rfl,
    decode_encode (i := .place) rfl, decode_encode (i := .mask) rfl, decode_encode (i := .encode) rfl,
    decode_encode (i := .draw 100 80) rfl, decode_encode (i := .clrerr) rfl⟩

/-! ### The illegal words (O5) -/

/-- The rows as R93's table gives them in numbers: the pattern and how many low bits the operands take. -/
theorem opcodeTable_numbers : opcodeTable.map (fun r => (r.pattern.toNat, r.free)) =
    [(0x00000000, 0), (0x01000000, 0), (0x02000000, 16), (0x03000000, 8), (0x04000000, 8), (0x05000000, 0),
      (0x06000000, 0), (0x07000000, 0), (0x08000000, 0), (0x09000000, 8), (0x0A000000, 16), (0x0B000000, 0),
      (0x0C000000, 0), (0x0D000000, 0), (0x0E000000, 0), (0x0F000000, 24), (0x10000000, 0)] := by decide +kernel

/-- The rows match nothing but R94's legal words: opcode by opcode, a word without reserved bits. -/
theorem no_row_matches_iff {w : Word} : (∀ r ∈ opcodeTable, r.matchesWord w = false) ↔ Machine.IllegalWord w := by
  have hw := w.isLt
  have hrows : (∀ r ∈ opcodeTable, r.matchesWord w = false) ↔
      ∀ p ∈ opcodeTable.map (fun r => (r.pattern.toNat, r.free)), w.toNat / 2 ^ p.2 ≠ p.1 / 2 ^ p.2 := by
    rw [List.forall_mem_map]
    exact forall₂_congr fun r hr => by rw [← Bool.not_eq_true, matchesWord_iff hr]
  rw [hrows, opcodeTable_numbers]
  simp only [Machine.IllegalWord, List.mem_cons, List.not_mem_nil, or_false, forall_eq_or_imp, forall_eq]
  omega

end Sys2Proof

namespace Sys2Proof.Machine

/-! ### The write of a word to CMD (O5, O6, O7) -/

/-- R92 steps 2 and 3, and R94: a word that decodes to no command is one no row matches. -/
theorem not_command_iff_illegalWord {w : Word} : (∀ i, decode w ≠ .command i) ↔ IllegalWord w := by
  rw [← no_row_matches_iff, ← decode_illegal_iff]
  cases decode w <;> simp

theorem step_cmd (w : Word) (s : State) : step (s.offering (.write 0x0000 w)) = cmdWrite w s := by
  rw [step_offering, portEvent_write, hostWrite_cmd]

/-- Settles O5: the rows in numbers against R94's list; a word no row matches raises ILLEGAL_CMD, and RSGEN 31 decodes. -/
theorem illegalWordsLatchIllegalCmd : Obligations.IllegalWordsLatchIllegalCmd := by
  intro s w herr
  refine ⟨not_command_iff_illegalWord, fun hillegal => ?_, ?_⟩
  · obtain ⟨d, hd⟩ := decode_illegal_iff.mpr (no_row_matches_iff.mpr hillegal)
    rw [step_cmd, cmdWrite_illegal herr hd, raise]
  · have hrsgen : decode 0x0300001F = .command (.rsgen 31) := decode_encode (i := .rsgen 31) rfl
    have hword : encode (.rsgen 31) = 0x0300001F := by decide
    rw [step_cmd, cmdWrite_command herr hrsgen, exec_rsgen_illegal (by omega), hword, raise]

/-- Settles O6: R92's steps in order. -/
theorem commandWriteFollowsTheDispatchRule : Obligations.CommandWriteFollowsTheDispatchRule := by
  intro s w
  rw [step_cmd]
  refine ⟨?clrerr, fun herr => cmdWrite_blocked herr, ?oneRow, ?noRow, ?row⟩
  case clrerr =>
    rintro herr rfl
    exact cmdWrite_clrerr herr
  case oneRow =>
    intro r hr r' hr' h h'
    rw [row_unique hr hr' (beq_iff_eq.mpr h) (beq_iff_eq.mpr h')]
  case noRow =>
    intro herr hnone
    obtain ⟨d, hd⟩ := decode_illegal_iff.mpr fun r hr => beq_eq_false_iff_ne.mpr (hnone r hr)
    rw [cmdWrite_illegal herr hd, raise]
  case row =>
    intro herr r hr h
    exact cmdWrite_command herr (decode_of_matches hr (beq_iff_eq.mpr h))

/-- Settles O7: the write to CMD runs the command, and `withFetchWord` offers exactly that write. -/
theorem stepRunsTheDecodedCommand : Obligations.StepRunsTheDecodedCommand := by
  intro s w i herr hdecode
  have hfetch : s.withFetchWord 32 w.toNat = s.offering (.write 0x0000 w) := by
    rw [withFetchWord_eq_offering, Nat.mod_eq_of_lt w.isLt, BitVec.ofNat_toNat, BitVec.setWidth_eq, cmdAddr]
  have hrun : step (s.offering (.write 0x0000 w)) = exec i s := (step_cmd w s).trans (cmdWrite_command herr hdecode)
  exact ⟨hrun, hfetch ▸ hrun⟩

end Sys2Proof.Machine
end

section
/-! PROOFS, family 40 (GF(256)): what GFINIT builds (O29), what a host reads of the tables (O12), and the product GFMUL leaves
in RESULT (O30) with its laws (O31). -/

namespace Sys2Proof.Machine

/-! ### The lazy build, in the words of the statements -/

/-- `ensure_gf()` makes the tables ready (R123). -/
theorem tablesReady_ensureGf {s : State} (h : TablesSound s) : TablesReady s (ensureGf s) :=
  ⟨ensureGf_gfvalid s, tablesBuilt_ensureGf h, fun hv a _ => by rw [ensureGf_of_valid hv],
    byteAt_ensureGf_other s (by decide) (.inr rfl)⟩

/-- Settles O29: the tables and the frame are those of `ensure_gf()`, the last clauses those of the powers of 2. -/
theorem gfinitBuildsTheTables : Obligations.GfinitBuildsTheTables := by
  refine ⟨decode_encode (i := .gfinit) rfl, fun s hsound => ?build, ⟨rfl, gfPow_255, ?second⟩,
    fun i _ => gfPow_ne_zero i, fun _ _ => gfPow_injective, gfPow_surjective⟩
  case build =>
    obtain ⟨_, ⟨exps, logs⟩, _, logZero⟩ := tablesReady_ensureGf hsound
    exact ⟨ensureGf s, rfl, ensureGf_eq s, ensureGf_of_valid, fun i hi => State.byteAt_of_memRead (exps i hi),
      fun i hi => State.byteAt_of_memRead (logs i hi), logZero, fun a => byteAt_ensureGf_outside⟩
  case second => exact (gfPow_add_period 255).trans gfPow_255

/-! ### Host reads of the tables -/

/-- R64 (c): a word of EXP, when the tables are built. -/
theorem readWord_expAddr {s : State} (h : TablesBuilt s.mem) {i : Nat} (hi : i < 512) :
    s.readWord (expAddr i) = some (BitVec.ofNat 32 (gfPow (i % 255)).toNat) := by
  have hexp : inExp (expAddr i) = true := decide_eq_true (by simp only [expAddr]; omega)
  rw [readWord_element (by simp [inBuffers, hexp]) (by simp only [expAddr, logAddr]; omega)
    (decide_eq_false (by simp only [expAddr]; omega)), State.byteAt_of_memRead (h.1 i hi), BitVec.ofNat_toNat]

/-- R64 (c): a word of LOG at a power of 2, when the tables are built. -/
theorem readWord_logAddr_gfPow {s : State} (h : TablesBuilt s.mem) {i : Nat} (hi : i < 255) :
    s.readWord (logAddr (gfPow i).toNat) = some (BitVec.ofNat 32 i) := by
  obtain ⟨hlog, hzero⟩ := logAddr_gfPow_mem i
  have hlt := (gfPow i).isLt
  rw [readWord_element (by simp [inBuffers, hlog]) hzero (decide_eq_false (by simp only [logAddr]; omega)),
    State.byteAt_of_memRead (h.2 i hi), BitVec.setWidth_ofNat_of_le_of_lt (by omega) (by omega)]

theorem hostRead_table {s : State} {k : Nat} (hk : inExp k = true ∨ inLog k = true) {w : Word}
    (hw : (ensureGf s).readWord k = some w) : hostRead (BitVec.ofNat 13 k) s = { ensureGf s with rdata := w } := by
  have haddr : (BitVec.ofNat 13 k).toNat = k := toNat_ofNat_addr (by rw [inTables_iff] at hk; omega)
  have heffect : readEffect (BitVec.ofNat 13 k).toNat s = ensureGf s := by rw [haddr, readEffect_of_table hk]
  rw [hostRead_of_word (w := w) (by rw [heffect, haddr, hw]), heffect]

/-- A host read of the port's address k returns w, with the tables built on the way, and changes nothing else. -/
def TableReadGives (s : State) (k : Nat) (w : Word) : Prop :=
  ∃ t, step (s.offering (.read (BitVec.ofNat 13 k))) = .next t ∧ t.rdata = w ∧
    t = { s with mem := t.mem, gfvalid := true, rdata := t.rdata } ∧ TablesReady s t ∧
    ∀ a, inExp a = false → inLog a = false → t.byteAt a = s.byteAt a

theorem tableReadGives_of_readWord {s : State} (h : TablesSound s) {k : Nat} (hk : inExp k = true ∨ inLog k = true)
    {w : Word} (hw : (ensureGf s).readWord k = some w) : TableReadGives s k w :=
  ⟨{ ensureGf s with rdata := w }, by rw [step_offering, portEvent_read, hostRead_table hk hw], rfl,
    congrArg (fun u : State => { u with rdata := w }) (ensureGf_eq s), tablesReady_ensureGf h,
    fun _ => byteAt_ensureGf_outside⟩

/-- Settles O12: the read builds the tables first, and the word it then finds is the table's. -/
theorem tablesReadAsPowersAndLogarithms : Obligations.TablesReadAsPowersAndLogarithms := by
  intro s hsound
  have hbuilt : TablesBuilt (ensureGf s).mem := tablesBuilt_ensureGf hsound
  refine ⟨fun i hi => ?exp, fun i hi => ?log, ?logZero⟩
  case exp =>
    have hexp : inExp (expAddr i) = true := decide_eq_true (by simp only [expAddr]; omega)
    exact tableReadGives_of_readWord hsound (.inl hexp) (readWord_expAddr hbuilt hi)
  case log =>
    exact tableReadGives_of_readWord hsound (.inr (logAddr_gfPow_mem i).1) (readWord_logAddr_gfPow hbuilt hi)
  case logZero =>
    obtain ⟨t, hstep, hdata, _⟩ :=
      tableReadGives_of_readWord hsound (k := logAddr 0) (.inr (by decide)) (readWord_log_zero _)
    exact ⟨t, hstep, hdata⟩

/-! ### GFMUL -/

/-- Settles O30: the tables are ready when the multiplier uses them, and on built tables it adds the exponents. -/
theorem gfmulAddsLogarithms : Obligations.GfmulAddsLogarithms := by
  intro s a b hsound
  have hbuilt : TablesBuilt (ensureGf s).mem := tablesBuilt_ensureGf hsound
  refine ⟨encode_gfmul a b ▸ decode_encode rfl, _, exec_gfmul a b s,
    congrArg (fun u : State => { u with result := (ensureGf s).gfmul a b }) (ensureGf_eq s), ?zero, ?powers,
    tablesReady_ensureGf hsound, fun _ => byteAt_ensureGf_outside⟩
  case zero =>
    rintro (rfl | rfl)
    · exact State.gfmul_zero_left (ensureGf s) b
    · exact State.gfmul_zero_right (ensureGf s) a
  case powers =>
    rintro i j hi hj rfl rfl
    exact State.gfmul_gfPow hbuilt hi hj

/-- The powers with exponents i and 255 - i are inverses (R126). -/
theorem gfTimes_gfPow_inverse {i : Nat} (hi : i < 255) : gfTimes (gfPow i) (gfPow (255 - i)) = 1 := by
  rw [gfTimes_gfPow, show i + (255 - i) = 0 + 255 by omega, gfPow_255, gfPow]

/-- Settles O31: what GFMUL leaves is the product of polynomials (O32), which has each of the laws. -/
theorem gfmulObeysTheFieldLaws : Obligations.GfmulObeysTheFieldLaws := fun s hsound =>
  ⟨gfTimes, fun a b => gfmulIsPolynomialMultiplication s a b hsound,
    fun a b => ⟨gfTimes_zero_right a, gfTimes_zero_left b⟩, gfTimes_comm, gfTimes_one_left, gfTimes_assoc,
    gfTimes_xor_right, fun _ => gfTimes_gfPow_inverse⟩

end Sys2Proof.Machine
end

section
/-! PROOFS, family 41 (Reed-Solomon): the generator RSGEN stores (O33) and what its polynomial is (O34), the parity RSENC
stores (O35) and the roots of the codeword it completes (O36). -/

namespace Sys2Proof.Machine

/-! ### What the two commands leave of the state and of the tables -/

theorem storeGenerator_ensureGf_eq (d : Nat) (s : State) : storeGenerator d (ensureGf s) =
    { s with mem := (storeGenerator d (ensureGf s)).mem, gfvalid := true, gdeg := BitVec.ofNat 5 d } :=
  congrArg (fun u : State => { u with mem := (storeGenerator d (ensureGf s)).mem, gdeg := BitVec.ofNat 5 d })
    (ensureGf_eq s)

theorem rsencEffect_eq (ec : Nat) (s : State) : rsencEffect ec s =
    { s with mem := (rsencEffect ec s).mem, gfvalid := true, gdeg := BitVec.ofNat 5 ec, eclen := BitVec.ofNat 5 ec } :=
  congrArg (fun u : State => { u with mem := (rsencEffect ec s).mem, eclen := BitVec.ofNat 5 ec })
    (storeGenerator_ensureGf_eq ec s)

/-- Elements outside EXP and LOG may be stored after `ensure_gf()`: the tables stay ready. -/
theorem tablesReady_of_byteAt_eq_ensureGf {s t : State} (h : TablesSound s) (hvalid : t.gfvalid = true)
    (hbuilt : TablesBuilt t.mem)
    (hsame : ∀ a, inExp a = true ∨ inLog a = true → t.byteAt a = (ensureGf s).byteAt a) : TablesReady s t := by
  obtain ⟨_, _, hkept, hzero⟩ := tablesReady_ensureGf h
  exact ⟨hvalid, hbuilt, fun hv a ha => (hsame a ha).trans (hkept hv a ha),
    (hsame _ (.inr (by decide))).trans hzero⟩

/-- EXP and LOG lie below GEN (R63). -/
theorem lt_genAddr_zero_of_inTables {a : Nat} (h : inExp a = true ∨ inLog a = true) : a < genAddr 0 := by
  rw [inTables_iff] at h
  simp only [genAddr]; omega

theorem tablesReady_storeGenerator {s : State} (h : TablesSound s) (d : Nat) :
    TablesReady s (storeGenerator d (ensureGf s)) :=
  tablesReady_of_byteAt_eq_ensureGf h (by simp) (tablesBuilt_storeGenerator (tablesBuilt_ensureGf h))
    fun _ ha => storeGenerator_byteAt_outside (.inl (lt_genAddr_zero_of_inTables ha)) _

theorem tablesReady_rsencEffect {s : State} (h : TablesSound s) {ec : Nat} (hec : 0 < ec) :
    TablesReady s (rsencEffect ec s) :=
  tablesReady_of_byteAt_eq_ensureGf h (by simp) (tablesBuilt_rsencEffect h) fun a ha => by
    have hgen := lt_genAddr_zero_of_inTables ha
    exact byteAt_rsencEffect_outside hec s (.inl hgen) (.inl (hgen.trans (by decide)))

/-! ### RSGEN -/

/-- Settles O33: the operand's domain, and on built tables the generator is the product of the linear factors. -/
theorem rsgenStoresTheGenerator : Obligations.RsgenStoresTheGenerator := by
  intro s d hsound hbyte
  rw [← encode_rsgen hbyte]
  refine ⟨decode_encode (decide_eq_true hbyte), fun hd => exec_rsgen_illegal hd s, fun hd => ?legal⟩
  case legal =>
    refine ⟨_, exec_rsgen_legal hd s, storeGenerator_ensureGf_eq d s,
      fun j hj => storeGenerator_byteAt_gen (tablesBuilt_ensureGf hsound) hd hj, tablesReady_storeGenerator hsound d,
      fun a hgen hexp hlog => ?frame⟩
    rw [storeGenerator_byteAt_outside (by omega), byteAt_ensureGf_outside hexp hlog]

/-- Settles O34: GEN holds the product of the linear factors, whose value is the product of the factors' values. -/
theorem generatorIsTheProductOfItsFactors : Obligations.GeneratorIsTheProductOfItsFactors := by
  intro s d hsound hd
  have hbuilt : TablesBuilt (ensureGf s).mem := tablesBuilt_ensureGf hsound
  refine ⟨_, exec_rsgen_legal hd s, ?leading, fun x => ?value⟩
  case leading =>
    obtain ⟨g, hg, _⟩ := rootPoly_eq_cons d
    rw [storeGenerator_byteAt_gen hbuilt hd (Nat.zero_le d), hg, List.getD_cons_zero]
  case value =>
    rw [bytesAt_storeGenerator hbuilt hd]
    exact ⟨(foldl_factors_eq_polyEval d x).symm, fun i hi => polyEval_rootPoly_root hi⟩

/-! ### RSENC -/

theorem State.byteAt_eq_getD_of_bytesAt {s : State} {a len : Nat} {l : List Byte} (h : s.bytesAt a len = l) {i : Nat}
    (hi : i < len) : s.byteAt (a + i) = l.getD i 0 := by
  subst h
  rw [List.getD_eq_getElem _ _ (by simpa using hi), State.getElem_bytesAt]

/-- GEN[0..ec] after RSENC: the parity's store does not reach it. -/
theorem rsencEffect_byteAt_gen {s : State} (h : TablesSound s) {ec : Nat} (h1 : 1 ≤ ec) (h30 : ec ≤ 30) {j : Nat}
    (hj : j ≤ ec) : (rsencEffect ec s).byteAt (genAddr j) = (rootPoly ec).getD j 0 :=
  State.byteAt_eq_getD_of_bytesAt (bytesAt_gen_rsencEffect h h1 h30) (by omega)

/-- Data and stored parity together are a multiple of the generator (R143, R144). -/
theorem rsencEffect_divides {s : State} (h : TablesSound s) {ec : Nat} (h1 : 1 ≤ ec) (h30 : ec ≤ 30) :
    ∃ q : List Byte, q.length = s.dlen.toNat ∧
      polyTimes q (rootPoly ec) = s.dataCodewords ++ (rsencEffect ec s).bytesAt (parAddr 0) ec := by
  rw [bytesAt_rsencEffect h h1 h30, ← State.length_dataCodewords]
  exact rsParity_divides h1 s.dataCodewords

/-- Settles O35: the operand's domain, and the shift register leaves the remainder of the division. -/
theorem rsencStoresTheParity : Obligations.RsencStoresTheParity := by
  intro s ec hsound hbyte
  rw [← encode_rsenc hbyte]
  refine ⟨decode_encode (decide_eq_true hbyte), fun hec => exec_rsenc_illegal (by omega) s, fun h1 h30 => ?legal⟩
  case legal =>
    refine ⟨_, exec_rsenc_legal ⟨h1, h30⟩ s, rsencEffect_eq ec s, fun j => rsencEffect_byteAt_gen hsound h1 h30,
      rsencEffect_divides hsound h1 h30, tablesReady_rsencEffect hsound h1, fun a hgen hpar hexp hlog => ?frame⟩
    rw [byteAt_rsencEffect_outside h1 s (by omega) (by omega), byteAt_ensureGf_outside hexp hlog]

theorem rsencEffect_toNat_eclen {ec : Nat} (h30 : ec ≤ 30) (s : State) : (rsencEffect ec s).eclen.toNat = ec := by
  rw [rsencEffect_eclen, BitVec.toNat_ofNat]; omega

theorem rsencEffect_parityCodewords {ec : Nat} (h30 : ec ≤ 30) (s : State) :
    (rsencEffect ec s).parityCodewords = (rsencEffect ec s).bytesAt (parAddr 0) ec := by
  rw [State.parityCodewords, rsencEffect_toNat_eclen h30]

/-- A multiple of the generator vanishes at the generator's roots. -/
theorem polyEval_root_of_multiple {q p : List Byte} {ec i : Nat} (h : polyTimes q (rootPoly ec) = p) (hi : i < ec) :
    polyEval p (gfPow i) = 0 := by
  rw [← h, polyEval_polyTimes (rootPoly_ne_nil ec), polyEval_rootPoly_root hi]
  exact gfTimes_zero_right _

theorem dataCodewords_eq_nil {s : State} (h : s.dlen = 0) : s.dataCodewords = [] := by
  rw [State.dataCodewords, h]; rfl

/-- Settles O36: the codeword is a multiple of the generator, which vanishes at each root; with no data the register keeps
its zeros. -/
theorem codewordVanishesAtTheRoots : Obligations.CodewordVanishesAtTheRoots := by
  intro s ec hsound h1 h30
  obtain ⟨q, hlen, hmultiple⟩ := rsencEffect_divides hsound h1 h30
  rw [← dataCodewords_rsencEffect h1 h30, ← rsencEffect_parityCodewords h30] at hmultiple
  refine ⟨_, exec_rsenc_legal ⟨h1, h30⟩ s, rsencEffect_toNat_eclen h30 s, ?length,
    ⟨q, by rw [hlen, rsencEffect_dlen], hmultiple⟩, fun i => polyEval_root_of_multiple hmultiple, fun hempty => ?noData⟩
  case length => rw [State.length_parityCodewords, rsencEffect_toNat_eclen h30]
  case noData =>
    rw [rsencEffect_parityCodewords h30, bytesAt_rsencEffect hsound h1 h30, dataCodewords_eq_nil hempty]
    rfl

end Sys2Proof.Machine
end

section
/-! PROOFS, family 42 (version selector and bit packer): the version VSEL chooses (O38), the stream PACK stores (O39) and its
lengths (O40), bits to bytes (O41), codewords to bits (O42), and the two round trips between them (O43). -/

namespace Sys2Proof.Machine

/-! ### VSEL -/

/-- Settles O38: `choose_version` answers the smallest version that fits (R160), and every length up to 84 fits one. -/
theorem vselChoosesTheSmallestVersion : Obligations.VselChoosesTheSmallestVersion := by
  refine ⟨decode_encode (i := .vsel) rfl, fun s => ?_⟩
  obtain ⟨⟨h1, h5⟩, _, hsmallest⟩ := chooseVersion_eq_iff.mp (rfl : chooseVersion s.plen.toNat = _)
  refine ⟨chooseVersion s.plen.toNat, h1, h5, ?fits, hsmallest, rfl⟩
  case fits =>
    rcases Nat.lt_or_ge 84 s.plen.toNat with hlong | hfits
    · exact .inr ⟨hlong, chooseVersion_of_gt hlong⟩
    · exact .inl (le_cap_chooseVersion hfits)

/-! ### PACK -/

theorem storeBitSequence_eq (b : List Bool) (s : State) : storeBitSequence b s =
    { s with mem := (storeBitSequence b s).mem, bitlen := (storeBitSequence b s).bitlen } := rfl

/-- BITLEN holds the length of every sequence that fits the bit buffer (R35). -/
theorem toNat_bitlen_storeBitSequence {b : List Bool} (hb : b.length ≤ 1024) (s : State) :
    (storeBitSequence b s).bitlen.toNat = b.length := by
  rw [storeBitSequence_bitlen, BitVec.toNat_ofNat, Nat.mod_eq_of_lt (by omega)]

/-- The bits PACK stores are those of R172. -/
theorem bitAt_storeBitSequence_packBits {cfg : Config} {pay : List Byte} {v : Nat} {b : List Bool}
    (hb : packBits cfg pay v = some b) {i : Nat} (hi : i < b.length) (s : State) :
    (storeBitSequence b s).bitAt i = packedBit cfg pay i := by
  rw [bitAt_storeBitSequence hi, ← getD_of_packBits hb hi, List.getD_eq_getElem _ _ hi]

/-- Settles O39: the checks in R170's order, then the stream of R172 from BITS[0] on. -/
theorem packStoresThePackedStream : Obligations.PackStoresThePackedStream := by
  refine ⟨decode_encode (i := .pack) rfl, fun s => ⟨fun hver => exec_pack_version (by omega),
    fun h1 h5 hlong => exec_pack_long ⟨h1, h5⟩ hlong, fun h1 h5 hfits => ?fits⟩⟩
  case fits =>
    obtain ⟨b, hb⟩ := packBits_of_le (cfg := s.cfg) (pay := s.payload) ((State.length_payload s).trans_le hfits)
    obtain ⟨_, hlen⟩ := length_of_packBits hb
    obtain ⟨hmax, _⟩ := length_of_packBits_le hb
    rw [State.length_payload] at hlen
    have hbitlen : (storeBitSequence b s).bitlen.toNat = b.length := toNat_bitlen_storeBitSequence (by omega) s
    refine ⟨_, exec_pack_legal ⟨h1, h5⟩ hb, storeBitSequence_eq b s, hbitlen.trans hlen, ?bits, ?frame⟩
    all_goals rw [hbitlen]
    case bits => exact fun i hi => bitAt_storeBitSequence_packBits hb hi s
    case frame => exact fun a ha => byteAt_storeBitSequence_outside (by omega) s

/-- R172's stream written out; for the two longest payloads it has no filler. -/
theorem packBits_eq_append {cfg : Config} {pay : List Byte} {v : Nat} (h : pay.length ≤ cap v) :
    packBits cfg pay v = some (modeBits cfg.modeInd ++ bits8 (BitVec.ofNat 8 pay.length) ++ pay.flatMap bits8 ++
      [false, false, false, false] ++
      (List.range (cap v - pay.length - 2)).flatMap (fun k => bits8 (if k % 2 = 0 then cfg.padA else cfg.padB))) := by
  rw [packBits_eq h, Nat.sub_right_comm, packHead, expand, expand, List.flatMap_map]
  rfl

/-- Settles O40: the length is the larger of 8·CAP and what the payload needs. -/
theorem packedStreamHasItsThreeLengths : Obligations.PackedStreamHasItsThreeLengths := by
  intro cfg pay v _ _ hfits
  have hb := packBits_eq_append (cfg := cfg) hfits
  obtain ⟨_, hlen⟩ := length_of_packBits hb
  obtain ⟨hmax, _⟩ := length_of_packBits_le hb
  exact ⟨_, hb, fun h => ⟨by omega, rfl⟩, fun h => by omega, fun h => by omega, hmax⟩

/-! ### B2B -/

theorem b2bEffect_eq (s : State) :
    b2bEffect s = { s with mem := (b2bEffect s).mem, dlen := (b2bEffect s).dlen } := rfl

theorem toNat_dlen_b2bEffect {s : State} (h : s.bitlen.toNat ≤ 1024) :
    (b2bEffect s).dlen.toNat = s.bitlen.toNat / 8 := by
  rw [b2bEffect_dlen, BitVec.toNat_ofNat, Nat.mod_eq_of_lt (by omega)]

/-- The codewords B2B stores fit XBITS's domain when there is no parity (R178). -/
theorem dlen_b2bEffect_le {s : State} (h : s.bitlen.toNat ≤ 1024) : (b2bEffect s).dlen.toNat ≤ 128 := by
  rw [toNat_dlen_b2bEffect h]; omega

/-- Settles O41: the operand's domain, and the bytes of R174 from CW[0] on. -/
theorem b2bGroupsBitsIntoBytes : Obligations.B2bGroupsBitsIntoBytes := by
  refine ⟨decode_encode (i := .b2b) rfl, fun s => ⟨fun hbad => exec_b2b_illegal (by omega), fun hle h8 => ?legal⟩⟩
  case legal =>
    have hdlen := toNat_dlen_b2bEffect hle
    refine ⟨_, exec_b2b_legal ⟨hle, h8⟩, b2bEffect_eq s, hdlen, ?bytes, ?frame⟩
    all_goals rw [hdlen]
    case bytes => exact fun i k hi hk => getLsbD_b2bEffect h8 hi hk
    case frame => exact fun a ha => byteAt_b2bEffect_outside (by omega)

/-! ### XBITS -/

theorem xbitsEffect_eq (s : State) :
    xbitsEffect s = { s with mem := (xbitsEffect s).mem, bitlen := (xbitsEffect s).bitlen } := rfl

/-- Settles O42: the operand's domain, and the bits of R178 from BITS[0] on. -/
theorem xbitsExpandsTheCodewords : Obligations.XbitsExpandsTheCodewords := by
  refine ⟨decode_encode (i := .xbits) rfl, fun s => ⟨fun hbad => exec_xbits_illegal (by omega), fun hec hfull => ?legal⟩⟩
  case legal =>
    have hbitlen := bitlen_xbitsEffect hfull
    refine ⟨_, exec_xbits_legal ⟨hec, hfull⟩, xbitsEffect_eq s, hbitlen, fun i k => bitAt_xbitsEffect, ?frame⟩
    rw [hbitlen]
    exact fun a ha => byteAt_xbitsEffect_outside (by omega)

/-! ### The round trips (R177) -/

theorem parityCodewords_eq_nil {s : State} (h : s.eclen = 0) : s.parityCodewords = [] := by
  rw [State.parityCodewords, h]; rfl

/-- XBITS without parity expands the data codewords alone. -/
theorem bitSequence_xbitsEffect_of_eclen {s : State} (hec : s.eclen = 0) (h : s.dlen.toNat ≤ 128) :
    (xbitsEffect s).bitSequence = expand s.dataCodewords := by
  rw [bitSequence_xbitsEffect (by simpa [hec] using h), parityCodewords_eq_nil hec, List.append_nil]

/-- Bits to bytes and back, as sequences. -/
theorem bitSequence_xbitsEffect_b2bEffect {s : State} (hle : s.bitlen.toNat ≤ 1024) (h8 : s.bitlen.toNat % 8 = 0) :
    (xbitsEffect { b2bEffect s with eclen := 0 }).bitSequence = s.bitSequence := by
  have hlen : s.bitSequence.length = 8 * (s.bitlen.toNat / 8) := by rw [State.length_bitSequence]; omega
  calc (xbitsEffect { b2bEffect s with eclen := 0 }).bitSequence
    _ = expand (b2bEffect s).dataCodewords := bitSequence_xbitsEffect_of_eclen rfl (dlen_b2bEffect_le hle)
    _ = expand (bitsToBytes (s.bitlen.toNat / 8) s.bitSequence) := by rw [dataCodewords_b2bEffect hle]
    _ = s.bitSequence := expand_bitsToBytes _ hlen

/-- Bytes to bits and back, as sequences. -/
theorem dataCodewords_b2bEffect_xbitsEffect {s : State} (hec : s.eclen = 0) (h : s.dlen.toNat ≤ 128) :
    (b2bEffect (xbitsEffect s)).dataCodewords = s.dataCodewords := by
  have hbitlen : (xbitsEffect s).bitlen.toNat = 8 * s.dlen.toNat := by
    rw [bitlen_xbitsEffect (by simpa [hec] using h), hec]; simp
  calc (b2bEffect (xbitsEffect s)).dataCodewords
    _ = bitsToBytes ((xbitsEffect s).bitlen.toNat / 8) (xbitsEffect s).bitSequence := dataCodewords_b2bEffect (by omega)
    _ = bitsToBytes s.dataCodewords.length (expand s.dataCodewords) := by
      rw [bitSequence_xbitsEffect_of_eclen hec h, hbitlen, Nat.mul_div_cancel_left _ (by omega), State.length_dataCodewords]
    _ = s.dataCodewords := bitsToBytes_expand _

/-- Equal bit sequences have equal lengths and equal bits. -/
theorem bits_agree_of_bitSequence_eq {s t : State} (h : t.bitSequence = s.bitSequence) :
    t.bitlen = s.bitlen ∧ ∀ i, i < s.bitlen.toNat → t.bitAt i = s.bitAt i := by
  have hlen : t.bitlen = s.bitlen := BitVec.eq_of_toNat_eq (by simpa using congrArg List.length h)
  rw [State.bitSequence, State.bitSequence, hlen] at h
  exact ⟨hlen, fun i hi => List.map_inj_left.mp h i (List.mem_range.mpr hi)⟩

/-- Equal data codeword sequences have equal lengths and equal codewords. -/
theorem codewords_agree_of_dataCodewords_eq {s t : State} (h : t.dataCodewords = s.dataCodewords) :
    t.dlen = s.dlen ∧ ∀ i, i < s.dlen.toNat → t.byteAt (cwAddr i) = s.byteAt (cwAddr i) := by
  have hlen : t.dlen = s.dlen := BitVec.eq_of_toNat_eq (by simpa using congrArg List.length h)
  rw [State.dataCodewords, State.dataCodewords, hlen] at h
  exact ⟨hlen, fun i hi => List.map_inj_left.mp h i (List.mem_range.mpr hi)⟩

/-- Settles O43: both commands accept what the other left, and the sequences come back. -/
theorem bitsAndBytesRoundTrip : Obligations.BitsAndBytesRoundTrip := by
  refine ⟨fun s hle h8 => ?bits, fun s hec h => ?bytes⟩
  case bits =>
    exact ⟨_, _, exec_b2b_legal ⟨hle, h8⟩, exec_xbits_legal ⟨Nat.zero_le _, dlen_b2bEffect_le hle⟩,
      bits_agree_of_bitSequence_eq (bitSequence_xbitsEffect_b2bEffect hle h8)⟩
  case bytes =>
    have hfull : s.dlen.toNat + s.eclen.toNat ≤ 128 := by simpa [hec] using h
    have hbitlen := bitlen_xbitsEffect hfull
    exact ⟨_, _, exec_xbits_legal ⟨by simp [hec], hfull⟩, exec_b2b_legal ⟨by omega, by omega⟩,
      codewords_agree_of_dataCodewords_eq (dataCodewords_b2bEffect_xbitsEffect hec h)⟩

end Sys2Proof.Machine
end

section
/-! PROOFS, family 43 (matrix builder): the fresh matrix MNEW makes (O44), the motif FSTAMP stamps (O45), and the functional
cells SSTAMP stamps (O46). -/

namespace Sys2Proof.Machine

/-- N is a field of 6 bits, so the matrix is inside the window in which cells have addresses of their own (R63). -/
theorem State.n_toNat_le (s : State) : s.n.toNat ≤ 64 := Nat.le_of_lt s.n.isLt

/-! ### MNEW -/

theorem mnewEffect_eq (n : Nat) (s : State) :
    mnewEffect n s = { s with n := (mnewEffect n s).n, matrix := (mnewEffect n s).matrix } := rfl

/-- N holds every legal side. -/
theorem toNat_n_mnewEffect {n : Nat} (h : n ≤ 37) (s : State) : (mnewEffect n s).n.toNat = n := by
  rw [mnewEffect_n, BitVec.toNat_ofNat, Nat.mod_eq_of_lt (by omega)]

theorem cell_mnewEffect (n : Nat) (s : State) (r c : Nat) : (mnewEffect n s).cell r c = .unresolved := by
  rw [State.cell_eq, mnewEffect_matrix, getCell_newMatrix]

/-- Settles O44: the operand's domain, and a store that lists no cell. -/
theorem mnewMakesAnUnresolvedMatrix : Obligations.MnewMakesAnUnresolvedMatrix := by
  intro s n hn
  rw [← encode_mnew hn]
  exact ⟨decode_encode (i := .mnew n) (decide_eq_true hn), fun hbad => exec_mnew_illegal (by omega) s,
    fun h1 h37 => ⟨_, exec_mnew_legal ⟨h1, h37⟩ s, mnewEffect_eq n s, toNat_n_mnewEffect h37 s, cell_mnewEffect n s⟩⟩

/-! ### FSTAMP -/

theorem exec_fstamp (row col : Int) (s : State) :
    exec (.fstamp row col) s = .next { s with matrix := stampFinder s.n.toNat row col s.matrix } := rfl

/-- The motif's cell at offsets dr, dc stands at its position inside the grid (R192, R193). -/
theorem stampFinder_getCell_inside {n : Nat} (hn : n ≤ 64) {row col : Int} (m : Matrix) {r c dr dc : Nat}
    (hr : (r : Int) = row + dr) (hc : (c : Int) = col + dc) (hdr : dr ≤ 6) (hdc : dc ≤ 6) (hrn : r < n) (hcn : c < n) :
    getCell (stampFinder n row col m) r c = motifAt dr dc := by
  have hmotif : InMotif row col r c := by unfold InMotif; omega
  have hdr' : ((r : Int) - row).toNat = dr := by omega
  have hdc' : ((c : Int) - col).toNat = dc := by omega
  rw [stampFinder_getCell hn row col m (by omega), if_pos ⟨hmotif, hrn, hcn⟩, hdr', hdc', motifCell_eq_motifAt]

/-- Every cell outside the motif or outside the grid is as before (R192). -/
theorem stampFinder_getCell_other {n : Nat} (hn : n ≤ 64) {row col : Int} (m : Matrix) {r c : Nat} (hc : c < 64)
    (h : ¬(InMotif row col r c ∧ r < n ∧ c < n)) : getCell (stampFinder n row col m) r c = getCell m r c := by
  rw [stampFinder_getCell hn row col m hc, if_neg h]

/-- Settles O45: the cells inside the motif's square and the grid, and all others. -/
theorem fstampStampsTheClippedMotif : Obligations.FstampStampsTheClippedMotif := by
  intro s row col hrow hrow' hcol hcol'
  rw [← encode_fstamp]
  refine ⟨decode_encode (Bool.and_eq_true_iff.mpr
      ⟨fitsSignedByte_iff.mpr ⟨hrow, hrow'⟩, fitsSignedByte_iff.mpr ⟨hcol, hcol'⟩⟩),
    _, exec_fstamp row col s, rfl, ?motif, ?other⟩
  case motif =>
    intro dr dc hdr hdc hr hrn hc hcn
    exact stampFinder_getCell_inside s.n_toNat_le s.matrix (Int.toNat_of_nonneg hr) (Int.toNat_of_nonneg hc) hdr hdc
      (by omega) (by omega)
  case other =>
    intro r c hc h
    exact stampFinder_getCell_other s.n_toNat_le s.matrix hc (by unfold InMotif; omega)

/-! ### SSTAMP -/

theorem sstampEffect_eq (v : Nat) (s : State) :
    sstampEffect v s = { s with matrix := (sstampEffect v s).matrix } := by simp only [sstampEffect]

section
variable {v : Nat} (hv : 1 ≤ v ∧ v ≤ 5) (s : State) {r c : Nat} (hr : r < side v) (hc : c < side v)
include hv hr hc

/-- Finders overwrite (R196). -/
theorem cell_sstampEffect_finder {colour : CellState} (hf : finderAt (side v) r c = some colour) :
    (sstampEffect v s).cell r c = colour := by
  rw [cell_sstampEffect, stampStructural_getCell hv _ _ hr hc, hf]

/-- Outside the finders a resolved cell is left (R196). -/
theorem cell_sstampEffect_resolved (hf : finderAt (side v) r c = none) (h : s.cell r c ≠ .unresolved) :
    (sstampEffect v s).cell r c = s.cell r c := by
  rw [State.cell_eq s] at h ⊢
  simp only [cell_sstampEffect, stampStructural_getCell hv _ _ hr hc, hf, if_neg h]

/-- An unresolved timing cell gets the colour of its position (R195 part 2). -/
theorem cell_sstampEffect_timing (hf : finderAt (side v) r c = none) (h : s.cell r c = .unresolved) {i : Nat}
    (ht : timingAt (side v) r c = some i) : (sstampEffect v s).cell r c = timingCell s.cfg.timingEvenDark i := by
  rw [State.cell_eq] at h
  simp only [cell_sstampEffect, stampStructural_getCell hv _ _ hr hc, hf, if_pos h, ht]

/-- An unresolved cell of no finder and no strip is light if reserved and else stays unresolved (R195 part 3). -/
theorem cell_sstampEffect_reservation (hf : finderAt (side v) r c = none) (h : s.cell r c = .unresolved)
    (ht : timingAt (side v) r c = none) :
    (sstampEffect v s).cell r c = if reservedAt (side v) r c = true then .light else .unresolved := by
  rw [State.cell_eq] at h
  simp only [cell_sstampEffect, stampStructural_getCell hv _ _ hr hc, hf, if_pos h, ht]

/-- A second stamp changes no cell (R196): it finds the finders as they are, and a cell the first one left unresolved is in no
strip and no zone. -/
theorem cell_sstampEffect_twice :
    (sstampEffect v (sstampEffect v s)).cell r c = (sstampEffect v s).cell r c := by
  cases hf : finderAt (side v) r c with
  | some colour => rw [cell_sstampEffect_finder hv _ hr hc hf, cell_sstampEffect_finder hv s hr hc hf]
  | none =>
    by_cases h : (sstampEffect v s).cell r c = .unresolved
    · have hs : s.cell r c = .unresolved := by
        by_contra hs
        exact hs ((cell_sstampEffect_resolved hv s hr hc hf hs).symm.trans h)
      cases ht : timingAt (side v) r c with
      | some i =>
        rw [cell_sstampEffect_timing hv _ hr hc hf h ht, cell_sstampEffect_timing hv s hr hc hf hs ht, sstampEffect_cfg]
      | none =>
        rw [cell_sstampEffect_reservation hv _ hr hc hf h ht, cell_sstampEffect_reservation hv s hr hc hf hs ht]
    · exact cell_sstampEffect_resolved hv _ hr hc hf h

end

/-- Cells outside the matrix are not written (R195). -/
theorem cell_sstampEffect_outside {v : Nat} (hv : 1 ≤ v ∧ v ≤ 5) (s : State) {r c : Nat} (hc : c < 64)
    (h : ¬(r < side v ∧ c < side v)) : (sstampEffect v s).cell r c = s.cell r c := by
  rw [cell_sstampEffect, stampStructural_getCell_outside _ hv _ hc h, State.cell_eq]

/-- SSTAMP's domain is kept by a stamp, so that a second SSTAMP is legal where the first one was (R196). -/
theorem exec_sstamp_sstampEffect {s : State}
    (h : (1 ≤ s.ver.toNat ∧ s.ver.toNat ≤ 5) ∧ s.n.toNat = side s.ver.toNat) (v : Nat) :
    exec .sstamp (sstampEffect v s) = .next (sstampEffect s.ver.toNat (sstampEffect v s)) := by
  rw [exec_sstamp_legal (by simpa only [sstampEffect_ver, sstampEffect_n] using h), sstampEffect_ver]

/-- Settles O46: the operand's domain, the cells by their place, and the second stamp. -/
theorem sstampStampsTheFunctionalCells : Obligations.SstampStampsTheFunctionalCells := by
  refine ⟨decode_encode (i := .sstamp) rfl, fun s => ⟨fun hbad => exec_sstamp_illegal (by unfold side; omega), ?legal⟩⟩
  case legal =>
    intro h1 h5 hn
    have hv : 1 ≤ s.ver.toNat ∧ s.ver.toNat ≤ 5 := ⟨h1, h5⟩
    have hside : s.n.toNat = side s.ver.toNat := hn
    rw [hside]
    refine ⟨_, exec_sstamp_legal ⟨hv, hside⟩, sstampEffect_eq _ s, ?inside, ?outside,
      _, exec_sstamp_sstampEffect ⟨hv, hside⟩ _, ?twice⟩
    case inside =>
      exact fun r c hr hc => ⟨fun _ => cell_sstampEffect_finder hv s hr hc, cell_sstampEffect_resolved hv s hr hc,
        fun hf h => ⟨fun _ => cell_sstampEffect_timing hv s hr hc hf h, cell_sstampEffect_reservation hv s hr hc hf h⟩⟩
    case outside => exact fun r c => cell_sstampEffect_outside hv s
    case twice => exact fun r c => cell_sstampEffect_twice hv s

end Sys2Proof.Machine
end

section
/-! PROOFS, family 44 (data placer and mask stage): the cells PLACE fills (O47), the cells MASK inverts with the flag it sets
(O48), and the second MASK (O49). -/

namespace Sys2Proof.Machine

/-! ### PLACE -/

theorem placeEffect_eq (s : State) : placeEffect s = { s with matrix := (placeEffect s).matrix } := rfl

section
variable {s : State} (hn : s.n.toNat ∈ versionSides) {r c : Nat}
include hn

/-- A cell PLACE fills takes the stream's bit of its number, and is light beyond the end of the stream (R220). -/
theorem cell_placeEffect_filled (hr : r < s.n.toNat) (hc : c < s.n.toNat) (h6 : c ≠ 6) (hu : s.cell r c = .unresolved) :
    (placeEffect s).cell r c =
      if unresolvedBefore s.n.toNat s.matrix (r, c) < s.bitlen.toNat ∧
          s.bitAt (unresolvedBefore s.n.toNat s.matrix (r, c)) = true then .dark else .light := by
  rw [State.cell_eq] at hu ⊢
  rw [placeEffect_matrix, placeData_getCell hn s.n.isLt _ _ hr hc h6 hu, getD_bitSequence]
  simp only [bitCell, decide_eq_true_eq]

/-- Column 6, the resolved cells and the cells outside the matrix are as before (R221). -/
theorem cell_placeEffect_kept (hc : c < 64)
    (h : ¬(r < s.n.toNat ∧ c < s.n.toNat ∧ c ≠ 6 ∧ s.cell r c = .unresolved)) :
    (placeEffect s).cell r c = s.cell r c :=
  placeData_getCell_other hn s.n.isLt _ s.matrix hc h

end

/-- Settles O47: the operand's domain, the cells the scan fills, and all others. -/
theorem placeFillsTheCellsInScanOrder : Obligations.PlaceFillsTheCellsInScanOrder := by
  refine ⟨decode_encode (i := .place) rfl, fun s => ⟨fun hbad => exec_place_illegal ?domain, fun hn hb => ?legal⟩⟩
  case domain =>
    rintro ⟨hn, hb⟩
    exact hbad.elim (fun h => h hn) (Nat.not_lt.mpr hb)
  case legal =>
    refine ⟨_, exec_place_legal ⟨hn, hb⟩, placeEffect_eq s, fun r c hc => ⟨?filled, cell_placeEffect_kept hn hc⟩⟩
    case filled =>
      rintro hr hcn h6 hu k rfl
      exact cell_placeEffect_filled hn hr hcn h6 hu

/-! ### MASK -/

theorem exec_mask (s : State) : exec .mask s = .next (maskEffect s) := rfl

theorem maskEffect_eq (s : State) :
    maskEffect s = { s with matrix := (maskEffect s).matrix, unres := (maskEffect s).unres } := rfl

theorem maskEffect_unres_iff (s : State) :
    (maskEffect s).unres = true ↔ ∃ r c, r < s.n.toNat ∧ c < s.n.toNat ∧ s.cell r c = .unresolved :=
  anyUnresolved_iff s.n.toNat s.matrix

/-- Inverting a cell twice restores it (R231). -/
@[simp] theorem CellState.invert_invert (t : CellState) : t.invert.invert = t := by cases t <;> rfl

theorem CellState.invert_eq_unresolved_iff {t : CellState} : t.invert = .unresolved ↔ t = .unresolved := by
  cases t <;> simp [CellState.invert]

section
variable {s : State} {r c : Nat} (hc : c < 64)
include hc

theorem cell_maskEffect_even (h : r < s.n.toNat ∧ c < s.n.toNat ∧ (r + c) % 2 = 0) :
    (maskEffect s).cell r c = (s.cell r c).invert := by
  rw [State.cell_eq, maskEffect_matrix, applyMask_getCell s.n_toNat_le _ hc, if_pos h, State.cell_eq]

theorem cell_maskEffect_kept (h : ¬(r < s.n.toNat ∧ c < s.n.toNat ∧ (r + c) % 2 = 0)) :
    (maskEffect s).cell r c = s.cell r c := by
  rw [State.cell_eq, maskEffect_matrix, applyMask_getCell s.n_toNat_le _ hc, if_neg h, State.cell_eq]

theorem cell_maskEffect_unresolved_iff : (maskEffect s).cell r c = .unresolved ↔ s.cell r c = .unresolved := by
  by_cases h : r < s.n.toNat ∧ c < s.n.toNat ∧ (r + c) % 2 = 0
  · rw [cell_maskEffect_even hc h, CellState.invert_eq_unresolved_iff]
  · rw [cell_maskEffect_kept hc h]

/-- The second MASK meets the same even cells, and inverts each of them back (R231). -/
theorem cell_maskEffect_maskEffect : (maskEffect (maskEffect s)).cell r c = s.cell r c := by
  by_cases h : r < s.n.toNat ∧ c < s.n.toNat ∧ (r + c) % 2 = 0
  · rw [cell_maskEffect_even hc (by rwa [maskEffect_n]), cell_maskEffect_even hc h, CellState.invert_invert]
  · rw [cell_maskEffect_kept hc (by rwa [maskEffect_n]), cell_maskEffect_kept hc h]

end

/-- Settles O48: the flag, the even cells by their value, and all others. -/
theorem maskInvertsTheEvenCells : Obligations.MaskInvertsTheEvenCells := by
  refine ⟨decode_encode (i := .mask) rfl, fun s => ⟨_, exec_mask s, maskEffect_eq s, maskEffect_unres_iff s,
    fun r c hc => ⟨fun hr hcn heven => ?even, cell_maskEffect_kept hc⟩⟩⟩
  case even =>
    rw [cell_maskEffect_even hc ⟨hr, hcn, heven⟩]
    exact ⟨congrArg CellState.invert, congrArg CellState.invert, congrArg CellState.invert⟩

/-- MASK leaves the same cells unresolved, so the second MASK sets the flag as the first one did (R232). -/
theorem maskEffect_maskEffect_unres (s : State) : (maskEffect (maskEffect s)).unres = (maskEffect s).unres := by
  rw [Bool.eq_iff_iff, maskEffect_unres_iff, maskEffect_unres_iff, maskEffect_n]
  refine exists_congr fun r => exists_congr fun c => and_congr_right fun _ => and_congr_right fun hc => ?_
  exact cell_maskEffect_unresolved_iff (Nat.lt_of_lt_of_le hc s.n_toNat_le)

/-- Settles O49: the second MASK finds the grid and the flag's cells as the first one did. -/
theorem maskTwiceRestoresTheMatrix : Obligations.MaskTwiceRestoresTheMatrix := by
  intro s
  refine ⟨_, _, exec_mask s, exec_mask _, ?_, fun r c hc => cell_maskEffect_maskEffect hc⟩
  rw [← maskEffect_maskEffect_unres s]
  rfl

end Sys2Proof.Machine
end

section
/-! PROOFS, family 45 (ENCODE): the sequence of component commands (O50), the payload that is too long (O51), the resolved
matrix (O52), what ENCODE writes (O53), and what its result depends on (O54). -/

namespace Sys2Proof.Machine

/-! ### What the stages leave of the registers -/

/-- The first stage writes four fields. -/
theorem encodeFront_eq (s : State) : encodeFront s =
    { s with ver := (encodeFront s).ver, result := (encodeFront s).result, n := (encodeFront s).n,
             matrix := (encodeFront s).matrix } := by
  apply State.ext_fields
  all_goals simp

/-- ECLEN and GDEG hold every version's parity count. -/
theorem toNat_ofNat_ecCount (v : Nat) : (BitVec.ofNat 5 (ecCount v)).toNat = ecCount v := by
  have := ecCount_range v
  rw [BitVec.toNat_ofNat, Nat.mod_eq_of_lt (by omega)]

theorem toNat_result_encodeFront (s : State) : (encodeFront s).result.toNat = chooseVersion s.plen.toNat := by
  have := chooseVersion_range s.plen.toNat
  rw [encodeFront_result, BitVec.toNat_ofNat, Nat.mod_eq_of_lt (by omega)]

section
variable {v : Nat} {b : List Bool} (hb : b.length ≤ 688) (s : State)
include hb

theorem toNat_dlen_encodeBack : (encodeBack v b s).dlen.toNat = b.length / 8 := by
  rw [← (encodeBack_counts (v := v) hb s).1]
  simp [encodeBack]

theorem toNat_bitlen_encodeBack : (encodeBack v b s).bitlen.toNat = 8 * (b.length / 8 + ecCount v) := by
  obtain ⟨hdlen, heclen⟩ := encodeBack_counts (v := v) hb s
  have hec := ecCount_range v
  have hbitlen := bitlen_xbitsEffect (s := rsencEffect (ecCount v) (b2bEffect (storeBitSequence b s))) (by omega)
  rw [hdlen, heclen] at hbitlen
  rw [← hbitlen]
  simp [encodeBack]

end

/-! ### The component commands (R241) -/

theorem exec_vsel (s : State) : exec .vsel s = .next (vselEffect s) := rfl

/-- The commands before the packer accept their operands and leave what ENCODE's first stage leaves. -/
theorem runCommands_encodeFront (s : State) (is : List Instr) :
    runCommands (.vsel :: .mnew (side (chooseVersion s.plen.toNat)) :: .sstamp :: is) s =
      runCommands is (encodeFront s) := by
  have hv := chooseVersion_range s.plen.toNat
  have hside := side_range hv
  have hver : (mnewEffect (side (chooseVersion s.plen.toNat)) (vselEffect s)).ver.toNat = chooseVersion s.plen.toNat := by
    rw [mnewEffect_ver, vselEffect_ver, BitVec.toNat_ofNat, Nat.mod_eq_of_lt (by omega)]
  have hstamp := exec_sstamp_legal (s := mnewEffect (side (chooseVersion s.plen.toNat)) (vselEffect s))
    ⟨by rwa [hver], by rw [hver, toNat_n_mnewEffect hside.2]⟩
  rw [hver] at hstamp
  rw [runCommands_cons (exec_vsel s), runCommands_cons (exec_mnew_legal (by omega) _), runCommands_cons hstamp]
  rfl

/-- The commands from the packer on accept what the one before each left: "every operand check of the component commands
holds by construction". -/
theorem runCommands_encodeBack {s : State} (hv : 1 ≤ s.ver.toNat ∧ s.ver.toNat ≤ 5) (hn : s.n.toNat = side s.ver.toNat)
    {b : List Bool} (hpack : packBits s.cfg s.payload s.ver.toNat = some b) :
    runCommands [.pack, .b2b, .rsenc (ecCount s.ver.toNat), .xbits, .place, .mask] s =
      .next (encodeBack s.ver.toNat b s) := by
  obtain ⟨hb, hb8⟩ := length_of_packBits_le hpack
  have hec := ecCount_range s.ver.toNat
  obtain ⟨hdlen, heclen⟩ := encodeBack_counts (v := s.ver.toNat) hb s
  have hbits : (storeBitSequence b s).bitlen.toNat = b.length := toNat_bitlen_storeBitSequence (by omega) s
  have hfull := bitlen_xbitsEffect (s := rsencEffect (ecCount s.ver.toNat) (b2bEffect (storeBitSequence b s))) (by omega)
  have hsides : (xbitsEffect (rsencEffect (ecCount s.ver.toNat) (b2bEffect (storeBitSequence b s)))).n.toNat ∈
      versionSides := by simpa [hn] using side_mem_versionSides hv
  rw [runCommands_cons (exec_pack_legal hv hpack), runCommands_cons (exec_b2b_legal (by omega)),
    runCommands_cons (exec_rsenc_legal (by omega) _), runCommands_cons (exec_xbits_legal (by omega)),
    runCommands_cons (exec_place_legal ⟨hsides, by omega⟩), runCommands_cons (exec_mask _)]
  rfl

/-- Settles O50: the version of the hypotheses is the one `choose_version` answers, and the two halves of the sequence leave
what ENCODE's two stages leave. -/
theorem encodeIsTheCommandSequence : Obligations.EncodeIsTheCommandSequence := by
  intro s v hfits h1 h5 hsmallest
  obtain rfl : chooseVersion s.plen.toNat = v := chooseVersion_eq_iff.mpr ⟨⟨h1, h5⟩, .inl hfits, hsmallest⟩
  obtain ⟨b, hb⟩ := packBits_encode (hfits.trans (cap_le _))
  obtain ⟨hlegal, hver, hn⟩ := encodeFront_legal s
  have hback := runCommands_encodeBack (s := encodeFront s) (b := b) hlegal (by rw [hver, hn])
    (by rwa [hver, encodeFront_cfg, payload_encodeFront])
  rw [hver] at hback
  exact ⟨_, exec_encode_legal hb, by simp, (runCommands_encodeFront s _).trans hback⟩

/-! ### The payload that is too long (R242) -/

/-- Settles O51: for such a length `choose_version` answers 5, and the packer's failure sets the stamped matrix back. -/
theorem encodeOfALongPayloadFails : Obligations.EncodeOfALongPayloadFails := by
  intro s hlong
  refine ⟨_, exec_encode_long hlong, ?fields, getCell_newMatrix⟩
  case fields =>
    rw [encodeFront_eq, encodeFront_ver, encodeFront_result, encodeFront_n, chooseVersion_of_gt hlong]
    rfl

/-! ### The resolved matrix (R243) -/

section
variable {b : List Bool} (hb : b.length ≤ 688) (v : Nat) (s : State)
include hb

/-- PLACE resolves every cell, and MASK leaves no resolved cell unresolved. -/
theorem cell_encodeBack_ne_unresolved {r c : Nat} (hr : r < (encodeFront s).n.toNat) (hc : c < (encodeFront s).n.toNat) :
    (encodeBack v b (encodeFront s)).cell r c ≠ .unresolved := by
  have hn := (encodeFront s).n_toNat_le
  rw [State.cell_eq, matrix_encodeBack hb, applyMask_getCell hn _ (by omega)]
  split
  · exact CellState.invert_ne_unresolved (placeData_encodeFront_resolved _ hr hc)
  · exact placeData_encodeFront_resolved _ hr hc

theorem unres_encodeBack_encodeFront : (encodeBack v b (encodeFront s)).unres = false := by
  rw [unres_encodeBack hb, Bool.eq_false_iff, Ne, anyUnresolved_iff]
  rintro ⟨r, c, hr, hc, hu⟩
  exact placeData_encodeFront_resolved _ hr hc hu

end

/-- Settles O52: the fresh matrix has the version's side and every cell of it is resolved before the mask; DLEN counts the
bytes of the packed stream, which has R172's three lengths. -/
theorem encodeLeavesAResolvedMatrix : Obligations.EncodeLeavesAResolvedMatrix := by
  intro s herr hfits
  obtain ⟨b, hpack⟩ := packBits_encode hfits
  obtain ⟨hb, hb8⟩ := length_of_packBits_le hpack
  obtain ⟨hcap, hlen⟩ := length_of_packBits hpack
  obtain ⟨⟨h1, h5⟩, hver, hn⟩ := encodeFront_legal s
  have hdlen := toNat_dlen_encodeBack (v := chooseVersion s.plen.toNat) hb (encodeFront s)
  rw [State.length_payload] at hcap hlen
  refine ⟨_, exec_encode_legal hpack, ?_⟩
  rw [encodeBack_ver, encodeBack_n, encodeBack_err, encodeFront_err]
  refine ⟨h1, h5, by rw [hn, hver]; rfl, by rwa [hver], fun r c hr hc => ⟨?resolved, ?read⟩,
    unres_encodeBack_encodeFront hb _ s, herr, ?dlens⟩
  case resolved => exact cell_encodeBack_ne_unresolved hb _ s hr hc
  case read =>
    have hside := (encodeFront s).n_toNat_le
    obtain ⟨code, hread, _, hcode, _⟩ :=
      matrixReadsAsCellCodes (encodeBack (chooseVersion s.plen.toNat) b (encodeFront s)) r c (by omega) (by omega)
    obtain ⟨_, _, _, _, hdark⟩ := hcode (by rw [encodeBack_n]; exact ⟨hr, hc⟩)
    exact ⟨code, hread, hdark⟩
  case dlens => rw [hdlen, hver]; omega

/-! ### What ENCODE writes (R241) -/

/-- The fields that neither stage writes. -/
theorem encodeBack_encodeFront_eq (v : Nat) (b : List Bool) (s : State) : encodeBack v b (encodeFront s) =
    let t := encodeBack v b (encodeFront s)
    { s with ver := t.ver, result := t.result, n := t.n, matrix := t.matrix, bitlen := t.bitlen, dlen := t.dlen,
             eclen := t.eclen, gdeg := t.gdeg, unres := t.unres, gfvalid := true, mem := t.mem } := by
  apply State.ext_fields
  all_goals simp

theorem byteAt_encodeFront (s : State) (a : Nat) : (encodeFront s).byteAt a = s.byteAt a :=
  State.byteAt_congr (encodeFront_mem s) (encodeFront_resetCount s) a

theorem tablesSound_encodeFront {s : State} (h : TablesSound s) : TablesSound (encodeFront s) := by
  rwa [TablesSound, encodeFront_gfvalid, encodeFront_mem]

/-- A state with the same tables, built or not, has the same claim on them. -/
theorem tablesReady_congr {s u t : State} (hvalid : u.gfvalid = s.gfvalid)
    (hsame : ∀ a, inExp a = true ∨ inLog a = true → u.byteAt a = s.byteAt a) (h : TablesReady u t) :
    TablesReady s t := by
  obtain ⟨htrue, hbuilt, hkept, hzero⟩ := h
  exact ⟨htrue, hbuilt, fun hv a ha => (hkept (hvalid.trans hv) a ha).trans (hsame a ha),
    hzero.trans (hsame _ (.inr (by decide)))⟩

/-- The stores before `ensure_gf()` and after it do not reach EXP and LOG, which lie below GEN. -/
theorem tablesReady_encodeBack {s : State} (h : TablesSound s) {b : List Bool} (hb : b.length ≤ 688)
    (hb8 : b.length % 8 = 0) (v : Nat) : TablesReady s (encodeBack v b s) := by
  have below : ∀ {a}, inExp a = true ∨ inLog a = true → a < parAddr 0 ∧ a < cwAddr 0 ∧ a < bitsAddr 0 := by
    intro a ha
    have := lt_genAddr_zero_of_inTables ha
    simp only [genAddr, parAddr, cwAddr, bitsAddr] at *
    omega
  have hsound : TablesSound (b2bEffect (storeBitSequence b s)) :=
    fun hv => tablesBuilt_b2bEffect (tablesBuilt_storeBitSequence (h hv))
  refine tablesReady_congr (u := b2bEffect (storeBitSequence b s)) rfl (fun a ha => ?packed)
    (tablesReady_of_byteAt_eq_ensureGf hsound (encodeBack_gfvalid s v b) (tablesBuilt_encodeBack h) fun a ha => ?after)
  all_goals obtain ⟨hpar, hcw, hbits⟩ := below ha
  case packed => exact byteAt_packed_outside hb s (.inl hbits) (.inl hcw)
  case after =>
    exact byteAt_encodeBack_outside hb hb8 s (.inl hbits) (.inl hcw) (.inl (lt_genAddr_zero_of_inTables ha)) (.inl hpar)

/-- Settles O53: the registers are those of the stages, and every stage's stores are inside the ranges named. -/
theorem encodeWritesOnlyItsOwnState : Obligations.EncodeWritesOnlyItsOwnState := by
  intro s hsound hfits
  obtain ⟨b, hpack⟩ := packBits_encode hfits
  obtain ⟨hb, hb8⟩ := length_of_packBits_le hpack
  obtain ⟨_, hver, _⟩ := encodeFront_legal s
  have hdlen := toNat_dlen_encodeBack (v := chooseVersion s.plen.toNat) hb (encodeFront s)
  have hbitlen := toNat_bitlen_encodeBack (v := chooseVersion s.plen.toNat) hb (encodeFront s)
  have heclen := toNat_ofNat_ecCount (chooseVersion s.plen.toNat)
  refine ⟨_, exec_encode_legal hpack, encodeBack_encodeFront_eq _ b s, ?_⟩
  rw [encodeBack_result, encodeBack_ver, encodeBack_eclen, encodeBack_gdeg, hdlen, hbitlen, heclen, hver]
  refine ⟨toNat_result_encodeFront s, rfl, rfl, rfl,
    tablesReady_congr (encodeFront_gfvalid s) (fun a _ => byteAt_encodeFront s a)
      (tablesReady_encodeBack (tablesSound_encodeFront hsound) hb hb8 _),
    fun a hbits hcw hgen hpar hexp hlog => ?frame⟩
  case frame =>
    have h8 : 8 * (b.length / 8) = b.length := by omega
    rw [Nat.mul_add, h8] at hbits
    rw [byteAt_encodeBack_outside hb hb8 _ (by omega) (by omega) (by omega) (by omega), byteAt_ensureGf_outside hexp hlog,
      byteAt_packed_outside hb _ (by simp only [bitsAddr] at *; omega) (by omega), byteAt_encodeFront]

/-! ### What ENCODE's result depends on (R241) -/

section
variable {s s' : State}

/-- The first stage reads PLEN and the configuration alone. -/
theorem encodeFront_agree (hcfg : s'.cfg = s.cfg) (hplen : s'.plen = s.plen) :
    (encodeFront s').ver = (encodeFront s).ver ∧ (encodeFront s').result = (encodeFront s).result ∧
    (encodeFront s').n = (encodeFront s).n ∧ (encodeFront s').matrix = (encodeFront s).matrix := by
  simp only [encodeFront_ver, encodeFront_result, encodeFront_n, encodeFront_matrix, hcfg, hplen, and_self]

theorem payload_agree (hplen : s'.plen = s.plen)
    (hpay : ∀ i, i < s.plen.toNat → s'.byteAt (payloadAddr i) = s.byteAt (payloadAddr i)) : s'.payload = s.payload := by
  rw [State.payload, State.payload, hplen]
  exact State.bytesAt_congr fun i hi => by simpa [payloadAddr] using hpay i hi

variable (hs : TablesSound s) (hs' : TablesSound s') {b : List Bool} (hb : b.length ≤ 688) (v : Nat)
include hs hs' hb

/-- The stored sequences are functions of the packed bits, by the field's own arithmetic. -/
theorem encodeBack_sequences_agree :
    (encodeBack v b s').bitSequence = (encodeBack v b s).bitSequence ∧
    (encodeBack v b s').dataCodewords = (encodeBack v b s).dataCodewords ∧
    (encodeBack v b s').parityCodewords = (encodeBack v b s).parityCodewords ∧
    (encodeBack v b s').bytesAt (genAddr 0) (ecCount v + 1) = (encodeBack v b s).bytesAt (genAddr 0) (ecCount v + 1) := by
  obtain ⟨hpar, _, hgen⟩ := parityCodewords_encodeBack (v := v) hb hs
  obtain ⟨hpar', _, hgen'⟩ := parityCodewords_encodeBack (v := v) hb hs'
  exact ⟨(bitSequence_encodeBack hb hs').trans (bitSequence_encodeBack hb hs).symm,
    (dataCodewords_encodeBack hb s').1.trans (dataCodewords_encodeBack hb s).1.symm,
    hpar'.trans hpar.symm, hgen'.trans hgen.symm⟩

/-- The matrix is that of the packed bits on the stamped matrix. -/
theorem encodeBack_matrix_agree (hn : s'.n = s.n) (hmatrix : s'.matrix = s.matrix) :
    (encodeBack v b s').matrix = (encodeBack v b s).matrix := by
  obtain ⟨_, hpar, _⟩ := parityCodewords_encodeBack (v := v) hb hs
  obtain ⟨_, hpar', _⟩ := parityCodewords_encodeBack (v := v) hb hs'
  rw [matrix_encodeBack hb, matrix_encodeBack hb, (dataCodewords_encodeBack hb s).2, (dataCodewords_encodeBack hb s').2,
    hpar, hpar', hn, hmatrix]

end

/-- Settles O54: each stage's result is a function of the version and the packed bits, which are functions of the payload and
the configuration. -/
theorem encodeDependsOnlyOnThePayload : Obligations.EncodeDependsOnlyOnThePayload := by
  intro s s' hs hs' hcfg hplen hpay herr herr'
  obtain ⟨hver, hresult, hn, hmatrix⟩ := encodeFront_agree hcfg hplen
  rcases Nat.lt_or_ge 84 s.plen.toNat with hlong | hfits
  case inl =>
    exact ⟨_, _, exec_encode_long hlong, exec_encode_long (hplen ▸ hlong), hver, hresult, hn, rfl, rfl, fun _ => rfl,
      fun hfits => absurd hlong (Nat.not_lt.mpr hfits)⟩
  case inr =>
    obtain ⟨b, hpack⟩ := packBits_encode hfits
    obtain ⟨hb, _⟩ := length_of_packBits_le hpack
    have hexec' : exec .encode s' = .next (encodeBack (chooseVersion s.plen.toNat) b (encodeFront s')) := by
      rw [← hplen]
      exact exec_encode_legal (by rw [hcfg, payload_agree hplen hpay, hplen, hpack])
    obtain ⟨hbits, hdata, hparity, hgen⟩ := encodeBack_sequences_agree (tablesSound_encodeFront hs)
      (tablesSound_encodeFront hs') hb (chooseVersion s.plen.toNat)
    refine ⟨_, _, exec_encode_legal hpack, hexec', ?_⟩
    simp only [encodeBack_ver, encodeBack_result, encodeBack_n, encodeBack_err, encodeBack_eclen, encodeBack_gdeg,
      encodeFront_err, unres_encodeBack_encodeFront hb, toNat_ofNat_ecCount]
    exact ⟨hver, hresult, hn,
      encodeBack_matrix_agree (tablesSound_encodeFront hs) (tablesSound_encodeFront hs') hb _ hn hmatrix,
      herr'.trans herr.symm, fun hlong => absurd hfits (Nat.not_le.mpr hlong),
      fun _ => ⟨trivial, (bits_agree_of_bitSequence_eq hbits).1, (codewords_agree_of_dataCodewords_eq hdata).1, trivial,
        trivial, hbits, hdata, hparity, hgen⟩⟩

end Sys2Proof.Machine
end

section
/-! PROOFS, family 46 (rasterizer): what DRAW makes of the registers and of every pixel (O55), and the second DRAW (O56). -/

namespace Sys2Proof.Machine

/-- Pixel (x, y) shows a dark cell when the state's matrix is drawn with the geometry of R261 and R262 for a w by h surface. -/
def State.DrawsDark (s : State) (w h x y : Nat) : Prop :=
  ShowsDark s.matrix s.n.toNat (cellSize s.cfg.rpad s.n.toNat w h)
    (centreOffset w s.n.toNat (cellSize s.cfg.rpad s.n.toNat w h))
    (centreOffset h s.n.toNat (cellSize s.cfg.rpad s.n.toNat w h)) x y

theorem State.n_toNat_pos {s : State} (hn : s.n ≠ 0) : 0 < s.n.toNat :=
  Nat.pos_of_ne_zero fun hzero => hn (BitVec.eq_of_toNat_eq hzero)

theorem exec_draw_without_matrix {s : State} (hn : s.n = 0) (w h : Nat) :
    exec (.draw w h) s = .next (raise .illegalOperand (encode (.draw w h)) s) :=
  exec_draw_illegal (congrArg BitVec.toNat hn) w h

theorem exec_draw_with_matrix {s : State} (hn : s.n ≠ 0) (w h : Nat) : exec (.draw w h) s = .next (drawEffect w h s) :=
  exec_draw_legal (State.n_toNat_pos hn).ne' w h

/-! ### The registers -/

theorem drawEffect_eq (w h : Nat) (s : State) : drawEffect w h s =
    { s with surfw := BitVec.ofNat 12 w, surfh := BitVec.ofNat 12 h, cellsz := (drawEffect w h s).cellsz,
             offx := (drawEffect w h s).offx, offy := (drawEffect w h s).offy, surf := (drawEffect w h s).surf } := rfl

/-- CELLSZ holds every cell size (R261). -/
theorem toNat_cellsz_drawEffect {s : State} {w : Nat} (h : Nat) (hn : 0 < s.n.toNat) (hw : w < 4096) :
    (drawEffect w h s).cellsz.toNat = cellSize s.cfg.rpad s.n.toNat w h := by
  obtain ⟨_, hlt, _⟩ := cellSize_range (rpad := s.cfg.rpad) (h := h) hn hw
  exact (BitVec.toNat_ofNat _ _).trans (Nat.mod_eq_of_lt hlt)

/-! ### The pixels -/

section
variable {w : Nat} (hw : w < 4096) (h : Nat) (s : State) {x y : Nat}
include hw

theorem surfPixel_drawEffect (hx : x < 4096) : surfPixel (drawEffect w h s).surf x y =
    open Classical in if x < w ∧ y < h then some (decide (s.DrawsDark w h x y)) else surfPixel s.surf x y :=
  draw_pixel hw.le h (cellSize_pos _ _ _ _) _ _ _ _ _ hx

theorem surfPixel_drawEffect_outside (hx : x < 4096) (hout : ¬(x < w ∧ y < h)) :
    surfPixel (drawEffect w h s).surf x y = surfPixel s.surf x y := by
  rw [surfPixel_drawEffect hw h s hx, if_neg hout]

variable (hxw : x < w) (hyh : y < h)
include hxw hyh

theorem surfPixel_drawEffect_eq_some_iff (p : Bool) :
    surfPixel (drawEffect w h s).surf x y = some p ↔ (s.DrawsDark w h x y ↔ p = true) := by
  classical
  rw [surfPixel_drawEffect hw h s (hxw.trans hw), if_pos ⟨hxw, hyh⟩, Option.some.injEq, Bool.eq_iff_iff, decide_eq_true_eq]

end

/-- Settles O55: the fault without a matrix; otherwise the registers hold the geometry and each pixel is as `draw_pixel` says. -/
theorem drawRendersTheMatrix : Obligations.DrawRendersTheMatrix := by
  intro s w h hw hh
  rw [← encode_draw hw hh]
  refine ⟨decode_encode (Bool.and_eq_true_iff.mpr ⟨decide_eq_true hw, decide_eq_true hh⟩),
    fun hn => exec_draw_without_matrix hn w h, fun hn => ?matrix⟩
  case matrix =>
    have hpos : 0 < s.n.toNat := State.n_toNat_pos hn
    obtain ⟨_, hlt, hcs⟩ := cellSize_range (rpad := s.cfg.rpad) (h := h) hpos hw
    refine ⟨_, _, _, _, exec_draw_with_matrix hn w h, hcs, rfl, rfl, drawEffect_eq w h s,
      toNat_cellsz_drawEffect h hpos hw, toInt_centreOffset hw s.n.isLt hlt, toInt_centreOffset hh s.n.isLt hlt,
      fun x y hx hy => ⟨?dark, ?light⟩, fun x y hx => surfPixel_drawEffect_outside hw h s hx⟩
    case dark => exact (surfPixel_drawEffect_eq_some_iff hw h s hx hy true).trans (iff_true_right rfl)
    case light => exact (surfPixel_drawEffect_eq_some_iff hw h s hx hy false).trans (iff_false_right Bool.false_ne_true)

/-! ### The second DRAW -/

theorem risingKeys_drawEffect (w h : Nat) {s : State} (hs : risingKeys s.surf = true) :
    risingKeys (drawEffect w h s).surf = true :=
  risingKeys_paintCells _ _ _ _ _ _ _ (risingKeys_clearSurface w h hs)

/-- DRAW reads neither the surface nor a register it writes ("No state retained between calls", R260). -/
theorem drawsDark_drawEffect (w h : Nat) (s : State) : (drawEffect w h s).DrawsDark = s.DrawsDark := rfl

theorem surf_drawEffect_twice {w : Nat} (hw : w < 4096) (h : Nat) {s : State} (hs : risingKeys s.surf = true) :
    (drawEffect w h (drawEffect w h s)).surf = (drawEffect w h s).surf := by
  have hdrawn : risingKeys (drawEffect w h s).surf = true := risingKeys_drawEffect w h hs
  refine surface_ext (risingKeys_drawEffect w h hdrawn) hdrawn fun x y hx => ?_
  by_cases hin : x < w ∧ y < h
  case pos =>
    rw [surfPixel_drawEffect hw h _ hx, surfPixel_drawEffect hw h s hx, if_pos hin, if_pos hin, drawsDark_drawEffect]
  case neg => exact surfPixel_drawEffect_outside hw h _ hx hin

theorem drawEffect_twice {w : Nat} (hw : w < 4096) (h : Nat) {s : State} (hs : risingKeys s.surf = true) :
    drawEffect w h (drawEffect w h s) = drawEffect w h s :=
  calc drawEffect w h (drawEffect w h s)
    _ = { drawEffect w h s with surf := (drawEffect w h (drawEffect w h s)).surf } := rfl
    _ = drawEffect w h s := by rw [surf_drawEffect_twice hw h hs]

/-- Settles O56: the second DRAW is legal as the first one was, and repeats its writes. -/
theorem drawTwiceIsDrawOnce : Obligations.DrawTwiceIsDrawOnce := by
  intro s w h hw _ hn hs
  have hagain : exec (.draw w h) (drawEffect w h s) = .next (drawEffect w h (drawEffect w h s)) :=
    exec_draw_with_matrix (by rwa [drawEffect_n]) w h
  exact ⟨_, exec_draw_with_matrix hn w h, hagain.trans (congrArg _ (drawEffect_twice hw h hs))⟩

end Sys2Proof.Machine
end

section
/-! PROOFS, family 47 (system commands): what NOP (O57) and CLRERR (O58) do. -/

namespace Sys2Proof.Machine

theorem exec_nop (s : State) : exec .nop s = .next s := rfl

theorem exec_clrerr (s : State) : exec .clrerr s = .next (acknowledge s) := rfl

/-- CLRERR's word is executed with and without a latched fault (R92 step 1, R281). -/
theorem cmdWrite_clrerrWord (s : State) : cmdWrite 0x10000000 s = .next (acknowledge s) := by
  by_cases herr : s.err = none
  · exact cmdWrite_command herr (decode_encode (i := .clrerr) rfl)
  · exact cmdWrite_clrerr herr

theorem acknowledge_of_clear {s : State} (herr : s.err = none) (hinfo : s.errinfo = 0) : acknowledge s = s := by
  rw [acknowledge, ← herr, ← hinfo]

/-- Settles O57: the word is NOP's encoding, and NOP answers the state it was given. -/
theorem nopChangesNothing : Obligations.NopChangesNothing := ⟨decode_encode (i := .nop) rfl, exec_nop⟩

/-- Settles O58: CLRERR acknowledges, by its word at the port too, whether a fault is latched or not. -/
theorem clrerrClearsTheFault : Obligations.ClrerrClearsTheFault :=
  ⟨decode_encode (i := .clrerr) rfl, fun s => ⟨exec_clrerr s, (step_cmd _ s).trans (cmdWrite_clrerrWord s),
    fun herr hinfo => (exec_clrerr s).trans (by rw [acknowledge_of_clear herr hinfo])⟩⟩

end Sys2Proof.Machine
end

section
/-! PROOFS, family 60 (exceptions), the port: the accesses that raise BAD_ACCESS (O14), the blocked state (O8), which loses no
fault (O22), and the step that always answers (O18). -/

namespace Sys2Proof.Machine

/-! ### Unmapped and read-only addresses (R63, R303) -/

theorem readWord_of_unmapped (s : State) {a : Nat} (h : Unmapped a) : s.readWord a = none := by
  rw [Option.eq_none_iff_forall_ne_some]
  intro w hw
  have hmapped := (readWord_isSome_iff s a).mp ⟨w, hw⟩
  simp only [Unmapped, inCells, inBuffers, inPayload, inExp, inLog, inGen, inPar, inCw, inBits, Bool.or_eq_true,
    decide_eq_true_eq] at h hmapped
  omega

theorem readEffect_of_unmapped {a : Nat} (h : Unmapped a) (s : State) : readEffect a s = s := by
  rw [Unmapped] at h
  exact readEffect_of_not_table (decide_eq_false (by omega)) (decide_eq_false (by omega)) s

/-- The read of an unmapped address returns 0, and raises BAD_ACCESS unless a fault is latched (R64 (g), R305). -/
theorem hostRead_of_unmapped {a : Addr} (h : Unmapped a.toNat) (s : State) :
    hostRead a s = if s.err = none then raise .badAccess (a.setWidth 32) { s with rdata := 0 } else { s with rdata := 0 } := by
  have heffect := readEffect_of_unmapped h s
  rw [hostRead_unmapped (by rw [heffect, readWord_of_unmapped s h]), heffect]

/-- No register or element the host can write stands at such an address (R64 (e), R303). -/
theorem hostStore_badAccess {a : Addr} (h : Unmapped a.toNat ∨ ReadOnly a.toNat) (v : Word) (s : State) :
    hostStore a v s = raise .badAccess (a.setWidth 32) s := by
  simp only [Unmapped, ReadOnly] at h
  rcases hostStore_cases a v s with ⟨ha, _⟩ | ⟨ha, _⟩ | ⟨ha, _⟩ | ⟨ha, _⟩ | ⟨ha, _⟩ | ⟨ha, _⟩ | ⟨ha, _⟩ | ⟨_, _, _, _, hs⟩
  iterate 5 · omega
  · simp only [inPayload, inCw, decide_eq_true_eq] at ha; omega
  · simp only [inBits, decide_eq_true_eq] at ha; omega
  · exact hs

/-- Settles O14: the unmapped read by the port's rule for it, the write by the addresses that store something. -/
theorem badAccessesLatchBadAccess : Obligations.BadAccessesLatchBadAccess := by
  intro s a v herr
  rw [BitVec.ofNat_toNat]
  refine ⟨fun h => ?read, fun h => ?write⟩
  case read => rw [step_offering, portEvent_read, hostRead_of_unmapped h, if_pos herr, raise]
  case write =>
    have hcmd : a ≠ 0x0000 := by
      rintro rfl
      simp [Unmapped, ReadOnly] at h
    rw [step_write hcmd herr, hostStore_badAccess h, raise]

/-! ### The blocked state (R305) -/

/-- While a fault is latched a read leaves its side effect and the word returned, and nothing else. -/
theorem hostRead_of_latched {s : State} (herr : s.err ≠ none) (a : Addr) :
    hostRead a s = { readEffect a.toNat s with rdata := (hostRead a s).rdata } := by
  rcases hostRead_cases a s with ⟨w, h⟩ | ⟨hnone, _⟩
  · rw [h]
  · exact absurd hnone herr

@[simp] theorem readEffect_err (a : Nat) (s : State) : (readEffect a s).err = s.err := by
  unfold readEffect; split <;> simp

@[simp] theorem readEffect_errinfo (a : Nat) (s : State) : (readEffect a s).errinfo = s.errinfo := by
  unfold readEffect; split <;> simp

theorem hostRead_keeps_latch {s : State} (herr : s.err ≠ none) (a : Addr) :
    (hostRead a s).err = s.err ∧ (hostRead a s).errinfo = s.errinfo := by
  rw [hostRead_of_latched herr a]
  simp

/-- Every write but CLRERR's word to CMD is discarded. -/
theorem hostWrite_of_latched {s : State} (herr : s.err ≠ none) {a : Addr} {v : Word}
    (h : ¬(a = 0x0000 ∧ v = 0x10000000)) : hostWrite a v s = .next s := by
  by_cases ha : a = 0x0000
  · subst ha
    exact cmdWrite_blocked herr fun hv => h ⟨rfl, hv⟩
  · exact hostWrite_blocked ha herr v

/-- Settles O8: the writes are discarded, and a read does no more than return its word and build the tables. -/
theorem latchedFaultBlocksTheBlock : Obligations.LatchedFaultBlocksTheBlock := by
  intro s herr
  refine ⟨fun a v h => hostWrite_of_latched herr h, fun a => ?read⟩
  case read =>
    obtain ⟨hlatch, hinfo⟩ := hostRead_keeps_latch herr a
    refine ⟨hostRead a s, rfl, hlatch, hinfo, fun h => ?unmapped, fun hlo hhi => ?table⟩
    case unmapped => rw [hostRead_of_unmapped h, if_neg herr]
    case table =>
      have hread := hostRead_of_latched herr a
      rw [readEffect_of_table (inTables_iff.mpr ⟨hlo, hhi⟩)] at hread
      exact ⟨hread, by rw [hread]; exact ensureGf_gfvalid s⟩

/-- What an event makes of a latched fault: it stays, or CLRERR or the reset clears it (R305, R308). -/
theorem portEvent_of_latched {e : PortEvent} {s t : State} (herr : s.err ≠ none) (ht : portEvent e s = .next t) :
    (t.err = s.err ∧ t.errinfo = s.errinfo) ∨
    ((e = .write 0x0000 0x10000000 ∨ e = .reset) ∧ t.err = none ∧ t.errinfo = 0) := by
  cases e with
  | read a =>
    cases ht
    exact .inl (hostRead_keeps_latch herr a)
  | write a v =>
    rw [portEvent_write] at ht
    by_cases h : a = 0x0000 ∧ v = 0x10000000
    · obtain ⟨rfl, rfl⟩ := h
      rw [hostWrite_cmd, cmdWrite_clrerr herr] at ht
      cases ht
      exact .inr ⟨.inl rfl, rfl, rfl⟩
    · rw [hostWrite_of_latched herr h] at ht
      cases ht
      exact .inl ⟨rfl, rfl⟩
  | reset =>
    cases ht
    exact .inr ⟨.inr rfl, rfl, rfl⟩

/-- Settles O22: an idle step changes nothing, and of the events only CLRERR's word and the reset clear the latch. -/
theorem latchedFaultIsNeverLost : Obligations.LatchedFaultIsNeverLost := by
  intro s t f hf ht
  apply step_induction ht
  case idle => exact fun _ => .inl ⟨hf, rfl⟩
  case event =>
    intro e rest hp hu
    rw [hp, List.head?_cons, Option.some.injEq, Option.some.injEq, ← hf]
    exact portEvent_of_latched (s := { s with pending := rest }) (hf ▸ Option.some_ne_none f) hu

/-- Settles O18: an idle step answers the same state, and every event at the port answers (O17). -/
theorem everyStepAnswersANextState : Obligations.EveryStepAnswersANextState := by
  intro s
  obtain ⟨idle, busy⟩ := eventsTakeEffectInIssueOrder s
  cases hp : s.pending with
  | nil => exact ⟨s, idle hp⟩
  | cons e rest =>
    obtain ⟨t, ht, _⟩ := busy e rest hp
    exact ⟨t, ht⟩

end Sys2Proof.Machine
end

section
/-! PROOFS, family 60 (exceptions), the commands: ILLEGAL_OPERAND (O27) and PAYLOAD_TOO_LONG (O28) in exactly their cases, and
what a fault of a command leaves of the state (O26). -/

namespace Sys2Proof.Machine

/-! ### ILLEGAL_OPERAND (R302) -/

/-- R302 for one command: the fault exactly outside the domain, and then nothing but the latch written. -/
def IllegalOperandExact (i : Instr) (s : State) : Prop :=
  ∃ t, exec i s = .next t ∧ (t.err = some .illegalOperand ↔ OperandIllegal i s) ∧
    (OperandIllegal i s → t = { s with err := some .illegalOperand, errinfo := encode i })

theorem illegalOperandExact_of_legal {i : Instr} {s t : State} (hop : ¬OperandIllegal i s) (ht : exec i s = .next t)
    (herr : t.err ≠ some .illegalOperand) : IllegalOperandExact i s :=
  ⟨t, ht, ⟨fun h => absurd h herr, fun h => absurd h hop⟩, fun h => absurd h hop⟩

/-- A command that raises the fault outside its domain and keeps the latch inside it. -/
theorem illegalOperandExact_of_domain {i : Instr} {s t : State} {domain : Prop} (hs : s.err = none)
    (hop : OperandIllegal i s ↔ ¬domain) (legal : domain → exec i s = .next t) (hlatch : t.err = s.err)
    (illegal : ¬domain → exec i s = .next (raise .illegalOperand (encode i) s)) : IllegalOperandExact i s := by
  by_cases hd : domain
  · exact illegalOperandExact_of_legal (fun h => hop.mp h hd) (legal hd) (by simp [hlatch, hs])
  · exact ⟨_, illegal hd, ⟨fun _ => hop.mpr hd, fun _ => rfl⟩, fun _ => rfl⟩

/-- PACK checks the version first; a payload too long for a legal version is another fault (R307). -/
theorem illegalOperandExact_pack {s : State} (hs : s.err = none) : IllegalOperandExact .pack s := by
  by_cases hv : 1 ≤ s.ver.toNat ∧ s.ver.toNat ≤ 5
  case neg => exact ⟨_, exec_pack_version hv, ⟨fun _ => by simp only [OperandIllegal]; omega, fun _ => rfl⟩, fun _ => rfl⟩
  case pos =>
    have hop : ¬OperandIllegal .pack s := by simp only [OperandIllegal]; omega
    by_cases hlong : cap s.ver.toNat < s.plen.toNat
    · exact illegalOperandExact_of_legal hop (exec_pack_long hv hlong) (by simp)
    · obtain ⟨b, hb⟩ := packBits_of_le (cfg := s.cfg) (pay := s.payload) (v := s.ver.toNat) (by simpa using hlong)
      exact illegalOperandExact_of_legal hop (exec_pack_legal hv hb) (by simp [hs])

/-- ENCODE's only fault is the payload's length (R301). -/
theorem illegalOperandExact_encode {s : State} (hs : s.err = none) : IllegalOperandExact .encode s := by
  by_cases hlong : 84 < s.plen.toNat
  · exact illegalOperandExact_of_legal id (exec_encode_long hlong) (by simp)
  · obtain ⟨b, hb⟩ := packBits_encode (Nat.le_of_not_lt hlong)
    exact illegalOperandExact_of_legal id (exec_encode_legal hb) (by simp [hs])

/-- Settles O27, command by command: R302's list is the complement of each command's domain. -/
theorem illegalOperandInExactlyItsCases : Obligations.IllegalOperandInExactlyItsCases := by
  intro i s hs
  cases i with
  | nop | gfinit | gfmul | vsel | fstamp | mask | clrerr =>
    exact illegalOperandExact_of_legal id rfl (by simp [hs])
  | pack => exact illegalOperandExact_pack hs
  | encode => exact illegalOperandExact_encode hs
  | rsgen d =>
    exact illegalOperandExact_of_domain hs Nat.not_le.symm (exec_rsgen_legal · s) (by simp)
      fun h => exec_rsgen_illegal (Nat.lt_of_not_le h) s
  | rsenc ec =>
    exact illegalOperandExact_of_domain hs (by simp only [OperandIllegal]; omega) (exec_rsenc_legal · s) (by simp)
      (exec_rsenc_illegal · s)
  | b2b =>
    exact illegalOperandExact_of_domain hs (by simp only [OperandIllegal]; omega) exec_b2b_legal (by simp) exec_b2b_illegal
  | xbits =>
    exact illegalOperandExact_of_domain hs (by simp only [OperandIllegal]; omega) exec_xbits_legal (by simp)
      exec_xbits_illegal
  | mnew n =>
    exact illegalOperandExact_of_domain hs (by simp only [OperandIllegal]; omega) (exec_mnew_legal · s) (by simp)
      (exec_mnew_illegal · s)
  | sstamp =>
    exact illegalOperandExact_of_domain hs (by simp only [OperandIllegal, side]; omega) exec_sstamp_legal (by simp)
      exec_sstamp_illegal
  | place =>
    exact illegalOperandExact_of_domain hs (by simp only [OperandIllegal, not_and_or, Nat.not_le]) exec_place_legal (by simp)
      exec_place_illegal
  | draw w h =>
    exact illegalOperandExact_of_domain hs not_ne_iff.symm (exec_draw_legal · w h) (by simp)
      fun hn => exec_draw_illegal (not_ne_iff.mp hn) w h

/-! ### What a command that raises a fault leaves (R304, R242) -/

/-- A command's fault is recorded over the state before it, but for an ENCODE whose payload is too long. -/
theorem exec_raises {i : Instr} {s t : State} (hs : s.err = none) (ht : exec i s = .next t) : t.err ≠ none →
    (∃ f, (f = .illegalOperand ∨ PackTooLong f i s) ∧ i ≠ .encode ∧ t = raise f (encode i) s) ∨
    (i = .encode ∧ 84 < s.plen.toNat ∧
      t = raise .payloadTooLong (encode .encode) { encodeFront s with matrix := newMatrix }) := by
  apply exec_next_induction ht
  case fault => exact fun f hf hi _ => .inl ⟨f, hf, hi, rfl⟩
  case encodeLong => exact fun hlong _ => .inr ⟨rfl, hlong, rfl⟩
  all_goals simp [hs]

/-- R242: what ENCODE's first stage has written when the payload proves too long, with the matrix set back. -/
theorem encodeFront_of_long {s : State} (hlong : 84 < s.plen.toNat) :
    { encodeFront s with matrix := newMatrix } = { s with ver := 5, result := 5, n := 37, matrix := newMatrix } := by
  rw [encodeFront_eq, encodeFront_ver, encodeFront_result, encodeFront_n, chooseVersion_of_gt hlong]
  rfl

theorem decode_eq_encode_iff {w : Word} : decode w = .command .encode ↔ w = 0x0E000000 :=
  ⟨fun h => (encodeOfDecodeIsTheWord w _ h).2.symm, fun h => h ▸ decode_encode (i := .encode) rfl⟩

/-- Settles O26: a word that decodes to no command raises over the unchanged state, a command as `exec_raises` says. -/
theorem faultsArePrecise : Obligations.FaultsArePrecise := by
  intro s t w hs ht hraised
  rw [step_cmd] at ht
  cases hd : decode w with
  | illegal d =>
    have hw : w ≠ 0x0E000000 := fun hw => by simp [decode_eq_encode_iff.mpr hw] at hd
    rw [cmdWrite_illegal hs hd] at ht
    cases ht
    exact ⟨rfl, fun _ => rfl, fun h => absurd h hw⟩
  | command i =>
    obtain ⟨_, rfl⟩ := encodeOfDecodeIsTheWord w i hd
    rw [cmdWrite_command hs hd] at ht
    rcases exec_raises hs ht hraised with ⟨f, _, hi, rfl⟩ | ⟨rfl, hlong, rfl⟩
    · have hw : encode i ≠ 0x0E000000 := fun hw => hi (by simpa [hd] using decode_eq_encode_iff.mpr hw)
      exact ⟨rfl, fun _ => rfl, fun h => absurd h hw⟩
    · exact ⟨rfl, fun h => absurd rfl h, fun _ => by rw [encodeFront_of_long hlong, raise]⟩

/-! ### PAYLOAD_TOO_LONG (R301) -/

/-- R301's two conditions. -/
def PayloadTooLong (i : Instr) (s : State) : Prop :=
  (i = .pack ∧ 1 ≤ s.ver.toNat ∧ s.ver.toNat ≤ 5 ∧ s.plen.toNat > cap s.ver.toNat) ∨ (i = .encode ∧ s.plen.toNat > 84)

theorem err_of_payloadTooLong {i : Instr} {s t : State} (h : PayloadTooLong i s) (ht : exec i s = .next t) :
    t.err = some .payloadTooLong := by
  rcases h with ⟨rfl, h1, h5, hlong⟩ | ⟨rfl, hlong⟩
  · rw [exec_pack_long ⟨h1, h5⟩ hlong] at ht
    cases ht; rfl
  · rw [exec_encode_long hlong] at ht
    cases ht; rfl

/-- The fault comes from PACK's second check or from ENCODE, with the command's word. -/
theorem payloadTooLong_of_err {i : Instr} {s t : State} (hs : s.err = none) (ht : exec i s = .next t)
    (herr : t.err = some .payloadTooLong) :
    PayloadTooLong i s ∧ t.errinfo = if i = .pack then 0x06000000 else 0x0E000000 := by
  rcases exec_raises hs ht (herr ▸ Option.some_ne_none _) with ⟨f, rfl | hpack, _, rfl⟩ | ⟨rfl, hlong, rfl⟩
  · simp at herr
  · obtain ⟨_, rfl, ⟨h1, h5⟩, hlong⟩ := hpack
    exact ⟨.inl ⟨rfl, h1, h5, hlong⟩, rfl⟩
  · exact ⟨.inr ⟨rfl, hlong⟩, rfl⟩

/-- Settles O28: both directions over what a command answers, and no command writes PLEN. -/
theorem payloadTooLongInExactlyItsCases : Obligations.PayloadTooLongInExactlyItsCases := by
  intro i s hs
  obtain ⟨t, ht⟩ := exec_answers i s
  obtain ⟨_, hplen, _⟩ := exec_keeps_host_fields ht
  exact ⟨t, ht, ⟨fun herr => (payloadTooLong_of_err hs ht herr).1, fun h => err_of_payloadTooLong h ht⟩,
    fun herr => ⟨hplen, (payloadTooLong_of_err hs ht herr).2⟩⟩

end Sys2Proof.Machine
end

section
/-! PROOFS, family 70 (reset): the values reset leaves (O16), which satisfy the invariant (O19). -/

namespace Sys2Proof.Machine

/-- A memory in which nothing is written holds a value at LOG[0] only (R341). -/
theorem memRead_nil {a : Nat} (h : a ≠ logAddr 0) : memRead [] a = none := by
  rw [memRead, lookupKey_nil, Memory.absent, if_neg h]

/-- Without a matrix every word of M reads 0 (R64 (b)). -/
theorem readGives_cell_without_matrix {s : State} (hn : s.n = 0) {a : Addr} (ha : 0x1000 ≤ a.toNat) : ReadGives s a 0 := by
  have hword : s.cellWord a.toNat = 0 := by simp [State.cellWord, hn]
  exact hword ▸ readGives_cell s ha

/-- Settles O16: both states hold the reset values beside fields that reset does not fix. -/
theorem resetLeavesTheResetValues : Obligations.ResetLeavesTheResetValues := by
  refine fun s => ⟨resetBlock s, rfl, rfl, rfl, fun u hu => ?_⟩
  obtain ⟨cfg, surf, pending, k, rfl⟩ : ∃ cfg surf pending k,
      u = { State.reset with cfg := cfg, surf := surf, pending := pending, resetCount := k } := by
    rcases List.mem_pair.mp hu with rfl | rfl
    · exact ⟨s.cfg, s.surf, s.pending, s.resetCount + 1, rfl⟩
    · exact ⟨_, _, _, _, rfl⟩
  exact ⟨rfl, rfl, rfl, rfl, rfl, rfl, rfl, rfl, rfl, rfl, rfl, rfl, rfl, rfl, rfl, rfl, rfl,
    readGives_register _ (by decide), rfl, fun a => memRead_nil, fun a => readGives_cell_without_matrix rfl⟩

/-- Settles O19: the reset values satisfy the invariant beside every configuration. -/
theorem resetSatisfiesTheInvariant : Obligations.ResetSatisfiesTheInvariant := fun cfg => inv_resetValues cfg rfl [] 0

end Sys2Proof.Machine
end
